-- ==== Sys2Proof/Word.lean ====
section
/-! DEFINITION. The bit-vector types of the Bit Buffer: storage words and characters. -/

namespace Sys2Proof

/-- One storage word of a slot (10_state.md R21). A configuration has words of W bits, W at most 64
(00_scope.md R5); they are held in 64 bits, of which the bits at W and above do not exist and are 0
(log 4, DESIGN CHOICE, safe). -/
abbrev Word := BitVec 64

/-- An 8-bit value: a character code (00_scope.md R12), a byte of a slot (20_memory.md R56) or IMM8. -/
abbrev Byte := BitVec 8

/-- A command word (30_encoding.md R70). -/
abbrev CommandWord := BitVec 32

end Sys2Proof
end

