-- ==== Sys2Proof/Syntax.lean ====
section
/-! DEFINITION. The commands of BB-CMD version 1, one constructor per row of spec/opcode_table.json
(30_encoding.md R75). -/

namespace Sys2Proof

/-- A command (30_encoding.md R75). Slot numbers `d`, `a`, `b` (R71), widths and the numeric value of V2C
(R72) are counts or indexes, so natural numbers, which `Instr.WellFormed` bounds by their fields; characters
and bytes are 8-bit codes. ARG and IDX are no part of the word (R73). -/
inductive Instr where
  /-- CLEAR b<d> (R120) -/
  | clear (d : Nat)
  /-- ADDBIT b<d>, #<bit> (R121) -/
  | addbit (d : Nat) (bit : Bool)
  /-- ADDBITS b<d>, #<width>, ARG (R123) -/
  | addbits (d : Nat) (width : Nat)
  /-- GETBITS b<d>, #<width>, IDX (R125) -/
  | getbits (d : Nat) (width : Nat)
  /-- GETBYTE b<d>, IDX (R126) -/
  | getbyte (d : Nat)
  /-- SETBYTE b<d>, IDX, #<byte> (R127) -/
  | setbyte (d : Nat) (byte : Byte)
  /-- NUMBITS b<d> (R128) -/
  | numbits (d : Nat)
  /-- NUMBYTES b<d> (R129) -/
  | numbytes (d : Nat)
  /-- PADBITS b<d> (R130) -/
  | padbits (d : Nat)
  /-- DEC_BIN b<d>, 'c' (R161) -/
  | decBin (d : Nat) (c : Byte)
  /-- DEC_HEX b<d>, 'c' (R162) -/
  | decHex (d : Nat) (c : Byte)
  /-- DEC_B64 b<d>, 'c' (R163) -/
  | decB64 (d : Nat) (c : Byte)
  /-- DEC_ASC b<d>, 'c' (R164) -/
  | decAsc (d : Nat) (c : Byte)
  /-- ENCLEN_BIN b<d> (R172) -/
  | enclenBin (d : Nat)
  /-- ENC_BIN b<d>, IDX (R173) -/
  | encBin (d : Nat)
  /-- ENCLEN_HEX b<d> (R174) -/
  | enclenHex (d : Nat)
  /-- ENC_HEX b<d>, IDX (R175) -/
  | encHex (d : Nat)
  /-- ENCLEN_B64 b<d> (R176) -/
  | enclenB64 (d : Nat)
  /-- ENC_B64 b<d>, IDX (R177) -/
  | encB64 (d : Nat)
  /-- ENCLEN_ASC b<d> (R178) -/
  | enclenAsc (d : Nat)
  /-- ENC_ASC b<d>, IDX (R179) -/
  | encAsc (d : Nat)
  /-- XOR b<d>, b<a>, b<b> (R200) -/
  | xor (d a b : Nat)
  /-- RKXOR b<d>, b<a>: target d, key a (R201) -/
  | rkxor (d a : Nat)
  /-- C2V_HEX 'c' (R102) -/
  | c2vHex (c : Byte)
  /-- V2C_HEX #n (R103) -/
  | v2cHex (n : Nat)
  /-- C2V_B64 'c' (R104) -/
  | c2vB64 (c : Byte)
  /-- V2C_B64 #n (R105) -/
  | v2cB64 (n : Nat)
deriving DecidableEq, Repr

end Sys2Proof
end

