-- ==== Sys2Proof/WellFormed.lean ====
section
/-! DEFINITION. Which commands the one 32-bit format can spell (30_encoding.md R70): slot numbers that fit a
4-bit field, widths and values that fit IMM8. A slot number at or above NBUF and a width above W are well
formed: they raise SLOT and WIDTH when executed (R71, R72). A command that is not well formed has no word; `exec`
takes it by its value (log 18). -/

namespace Sys2Proof

/-- A slot field holds 4 bits (30_encoding.md R71). -/
abbrev SlotFits (d : Nat) : Prop := d < 16

/-- IMM8 holds 8 bits (30_encoding.md R72). -/
abbrev Imm8Fits (n : Nat) : Prop := n < 256

/-- The command has a command word (30_encoding.md R70 to R72). -/
def Instr.WellFormed : Instr → Bool
  | .clear d => decide (SlotFits d)
  | .addbit d _ => decide (SlotFits d)
  | .addbits d width => decide (SlotFits d ∧ Imm8Fits width)
  | .getbits d width => decide (SlotFits d ∧ Imm8Fits width)
  | .getbyte d => decide (SlotFits d)
  | .setbyte d _ => decide (SlotFits d)
  | .numbits d => decide (SlotFits d)
  | .numbytes d => decide (SlotFits d)
  | .padbits d => decide (SlotFits d)
  | .decBin d _ => decide (SlotFits d)
  | .decHex d _ => decide (SlotFits d)
  | .decB64 d _ => decide (SlotFits d)
  | .decAsc d _ => decide (SlotFits d)
  | .enclenBin d => decide (SlotFits d)
  | .encBin d => decide (SlotFits d)
  | .enclenHex d => decide (SlotFits d)
  | .encHex d => decide (SlotFits d)
  | .enclenB64 d => decide (SlotFits d)
  | .encB64 d => decide (SlotFits d)
  | .enclenAsc d => decide (SlotFits d)
  | .encAsc d => decide (SlotFits d)
  | .xor d a b => decide (SlotFits d ∧ SlotFits a ∧ SlotFits b)
  | .rkxor d a => decide (SlotFits d ∧ SlotFits a)
  | .c2vHex _ => true
  | .v2cHex n => decide (Imm8Fits n)
  | .c2vB64 _ => true
  | .v2cB64 n => decide (Imm8Fits n)

end Sys2Proof
end

