-- ==== Sys2Proof/Decode.lean ====
section
/-! DEFINITION. The decoder and encoder of command words (30_encoding.md R70 to R78), from the opcode map of
R75. The decoder is total: it answers one command or a rejection by name. -/

namespace Sys2Proof

/-- Why a word spells no command; the block raises ILLEGAL for each (30_encoding.md R76, R77). -/
inductive Reject where
  /-- OP is not in the opcode map (R77). -/
  | unassignedOpcode
  /-- A bit of RSV [31:28] is 1 (R76). -/
  | reservedBits
  /-- An unused slot field, unused IMM8 bits or ADDBIT's IMM8[7:1] are not 0 (R76). -/
  | unusedField
deriving DecidableEq, Repr

/-- The fields of a command word (30_encoding.md R70). -/
structure Fields where
  op : BitVec 8
  d : BitVec 4
  a : BitVec 4
  b : BitVec 4
  imm8 : BitVec 8
  rsv : BitVec 4
deriving DecidableEq, Repr

/-- The fields at their bit positions: OP 7:0, D 11:8, A 15:12, B 19:16, IMM8 27:20, RSV 31:28 (R70). -/
def Fields.ofWord (w : CommandWord) : Fields :=
  { op := w.extractLsb' 0 8
    d := w.extractLsb' 8 4
    a := w.extractLsb' 12 4
    b := w.extractLsb' 16 4
    imm8 := w.extractLsb' 20 8
    rsv := w.extractLsb' 28 4 }

/-- The word with these fields (R70). -/
def Fields.toWord (f : Fields) : CommandWord :=
  f.rsv ++ f.imm8 ++ f.b ++ f.a ++ f.d ++ f.op

/-- Rows that use D alone: A, B and IMM8 must be 0 (R75, R76). -/
def Fields.usesOnlyD (f : Fields) : Bool := f.a == 0 && f.b == 0 && f.imm8 == 0

/-- Rows that use D and IMM8: A and B must be 0 (R75, R76). -/
def Fields.usesDImm (f : Fields) : Bool := f.a == 0 && f.b == 0

/-- ADDBIT's row: A, B and IMM8[7:1] must be 0 (R75, R76). -/
def Fields.usesDBit (f : Fields) : Bool := f.a == 0 && f.b == 0 && f.imm8.extractLsb' 1 7 == 0

/-- XOR's row: IMM8 must be 0 (R75, R76). -/
def Fields.usesDAB (f : Fields) : Bool := f.imm8 == 0

/-- RKXOR's row: B and IMM8 must be 0 (R75, R76). -/
def Fields.usesDA (f : Fields) : Bool := f.b == 0 && f.imm8 == 0

/-- Rows that use IMM8 alone: D, A and B must be 0 (R75, R76). -/
def Fields.usesOnlyImm (f : Fields) : Bool := f.d == 0 && f.a == 0 && f.b == 0

/-- The strict check of R76, then the row's command. -/
def checkRow (f : Fields) (unusedAreZero : Bool) (i : Instr) : Except Reject Instr :=
  if f.rsv != 0 then .error .reservedBits
  else if unusedAreZero then .ok i
  else .error .unusedField

/-- The opcode map (30_encoding.md R75); every OP not in it is illegal (R77). -/
def decodeFields (f : Fields) : Except Reject Instr :=
  match f.op.toNat with
  | 0x01 => checkRow f f.usesOnlyD (.clear f.d.toNat)
  | 0x02 => checkRow f f.usesDBit (.addbit f.d.toNat (f.imm8.getLsbD 0))
  | 0x03 => checkRow f f.usesDImm (.addbits f.d.toNat f.imm8.toNat)
  | 0x04 => checkRow f f.usesDImm (.getbits f.d.toNat f.imm8.toNat)
  | 0x05 => checkRow f f.usesOnlyD (.getbyte f.d.toNat)
  | 0x06 => checkRow f f.usesDImm (.setbyte f.d.toNat f.imm8)
  | 0x07 => checkRow f f.usesOnlyD (.numbits f.d.toNat)
  | 0x08 => checkRow f f.usesOnlyD (.numbytes f.d.toNat)
  | 0x09 => checkRow f f.usesOnlyD (.padbits f.d.toNat)
  | 0x10 => checkRow f f.usesDImm (.decBin f.d.toNat f.imm8)
  | 0x11 => checkRow f f.usesDImm (.decHex f.d.toNat f.imm8)
  | 0x12 => checkRow f f.usesDImm (.decB64 f.d.toNat f.imm8)
  | 0x13 => checkRow f f.usesDImm (.decAsc f.d.toNat f.imm8)
  | 0x18 => checkRow f f.usesOnlyD (.enclenBin f.d.toNat)
  | 0x19 => checkRow f f.usesOnlyD (.encBin f.d.toNat)
  | 0x1A => checkRow f f.usesOnlyD (.enclenHex f.d.toNat)
  | 0x1B => checkRow f f.usesOnlyD (.encHex f.d.toNat)
  | 0x1C => checkRow f f.usesOnlyD (.enclenB64 f.d.toNat)
  | 0x1D => checkRow f f.usesOnlyD (.encB64 f.d.toNat)
  | 0x1E => checkRow f f.usesOnlyD (.enclenAsc f.d.toNat)
  | 0x1F => checkRow f f.usesOnlyD (.encAsc f.d.toNat)
  | 0x20 => checkRow f f.usesDAB (.xor f.d.toNat f.a.toNat f.b.toNat)
  | 0x21 => checkRow f f.usesDA (.rkxor f.d.toNat f.a.toNat)
  | 0x30 => checkRow f f.usesOnlyImm (.c2vHex f.imm8)
  | 0x31 => checkRow f f.usesOnlyImm (.v2cHex f.imm8.toNat)
  | 0x32 => checkRow f f.usesOnlyImm (.c2vB64 f.imm8)
  | 0x33 => checkRow f f.usesOnlyImm (.v2cB64 f.imm8.toNat)
  | _ => .error .unassignedOpcode

/-- The decoder of command words, total on all 2^32 words (30_encoding.md R78). -/
def decode (w : CommandWord) : Except Reject Instr := decodeFields (Fields.ofWord w)

/-- The decoder on table words: one 32-bit word, no byte order (30_encoding.md R70, R78). A word with a bit
at position 32 or above is no command word. -/
def decodeTableWord (nbits w : Nat) : Option Instr :=
  if w % 2 ^ nbits < 2 ^ 32 then (decode (BitVec.ofNat 32 (w % 2 ^ nbits))).toOption else none

/-- The opcode of a command (30_encoding.md R75). -/
def Instr.opcode : Instr → BitVec 8
  | .clear _ => 0x01
  | .addbit _ _ => 0x02
  | .addbits _ _ => 0x03
  | .getbits _ _ => 0x04
  | .getbyte _ => 0x05
  | .setbyte _ _ => 0x06
  | .numbits _ => 0x07
  | .numbytes _ => 0x08
  | .padbits _ => 0x09
  | .decBin _ _ => 0x10
  | .decHex _ _ => 0x11
  | .decB64 _ _ => 0x12
  | .decAsc _ _ => 0x13
  | .enclenBin _ => 0x18
  | .encBin _ => 0x19
  | .enclenHex _ => 0x1A
  | .encHex _ => 0x1B
  | .enclenB64 _ => 0x1C
  | .encB64 _ => 0x1D
  | .enclenAsc _ => 0x1E
  | .encAsc _ => 0x1F
  | .xor _ _ _ => 0x20
  | .rkxor _ _ => 0x21
  | .c2vHex _ => 0x30
  | .v2cHex _ => 0x31
  | .c2vB64 _ => 0x32
  | .v2cB64 _ => 0x33

/-- The fields of a row that uses D and IMM8, the others 0. -/
def Fields.forDImm (op : BitVec 8) (d : Nat) (imm8 : BitVec 8) : Fields :=
  { op := op, d := BitVec.ofNat 4 d, a := 0, b := 0, imm8 := imm8, rsv := 0 }

/-- The fields that spell a command: the used ones of its row of R75, the others 0 (R76). -/
def encodeFields (i : Instr) : Fields :=
  match i with
  | .clear d => Fields.forDImm i.opcode d 0
  | .addbit d bit => Fields.forDImm i.opcode d (if bit then 1 else 0)
  | .addbits d width => Fields.forDImm i.opcode d (BitVec.ofNat 8 width)
  | .getbits d width => Fields.forDImm i.opcode d (BitVec.ofNat 8 width)
  | .getbyte d => Fields.forDImm i.opcode d 0
  | .setbyte d byte => Fields.forDImm i.opcode d byte
  | .numbits d => Fields.forDImm i.opcode d 0
  | .numbytes d => Fields.forDImm i.opcode d 0
  | .padbits d => Fields.forDImm i.opcode d 0
  | .decBin d c => Fields.forDImm i.opcode d c
  | .decHex d c => Fields.forDImm i.opcode d c
  | .decB64 d c => Fields.forDImm i.opcode d c
  | .decAsc d c => Fields.forDImm i.opcode d c
  | .enclenBin d => Fields.forDImm i.opcode d 0
  | .encBin d => Fields.forDImm i.opcode d 0
  | .enclenHex d => Fields.forDImm i.opcode d 0
  | .encHex d => Fields.forDImm i.opcode d 0
  | .enclenB64 d => Fields.forDImm i.opcode d 0
  | .encB64 d => Fields.forDImm i.opcode d 0
  | .enclenAsc d => Fields.forDImm i.opcode d 0
  | .encAsc d => Fields.forDImm i.opcode d 0
  | .xor d a b =>
      { op := i.opcode, d := BitVec.ofNat 4 d, a := BitVec.ofNat 4 a, b := BitVec.ofNat 4 b, imm8 := 0, rsv := 0 }
  | .rkxor d a =>
      { op := i.opcode, d := BitVec.ofNat 4 d, a := BitVec.ofNat 4 a, b := 0, imm8 := 0, rsv := 0 }
  | .c2vHex c => Fields.forDImm i.opcode 0 c
  | .v2cHex n => Fields.forDImm i.opcode 0 (BitVec.ofNat 8 n)
  | .c2vB64 c => Fields.forDImm i.opcode 0 c
  | .v2cB64 n => Fields.forDImm i.opcode 0 (BitVec.ofNat 8 n)

/-- The command word of a well-formed command (30_encoding.md R70, R75). -/
def encode (i : Instr) : CommandWord := (encodeFields i).toWord

end Sys2Proof
end

