-- ==== Sys2Proof/Config.lean ====
section
/-! DEFINITION. What an implementation fixes (00_scope.md R5 to R8, 20_memory.md R60) and the values the
spec leaves unspecified (70_reset_and_hazards.md R260, R262). -/

namespace Sys2Proof

/-- The parameters of one block: the word width W (R5), the slot count NBUF (R6), the words per slot NW (R7)
and the base address BASE of the register block (20_memory.md R60). They are constant; State holds them
because PARAM is state (10_state.md R20, R41), so that a statement can range over every configuration (log 1). -/
structure Config where
  wordWidth : Nat
  nbuf : Nat
  nw : Nat
  base : Nat
deriving DecidableEq, Repr

/-- CAP = W·NW − 1, the capacity of a slot in bits (00_scope.md R7). -/
def Config.cap (c : Config) : Nat := c.wordWidth * c.nw - 1

/-- The configurations the spec allows (00_scope.md R5, R6, R7). That NW is at least 1 is DEDUCED from
10_state.md R22 (a slot has between 1 and NW words). -/
abbrev Config.Valid (c : Config) : Prop :=
  (c.wordWidth = 8 ∨ c.wordWidth = 16 ∨ c.wordWidth = 32 ∨ c.wordWidth = 64) ∧
  1 ≤ c.nbuf ∧ c.nbuf ≤ 16 ∧ 1 ≤ c.nw ∧ c.wordWidth * c.nw ≤ 2 ^ 31

/-- The reference configuration: W = 64, NBUF = 4, NW = 512 (00_scope.md R5, R6, R7). BASE is open; 0 is
this model's (log 2, DESIGN CHOICE, unsafe for a claim that rests on it). -/
def Config.reference : Config := { wordWidth := 64, nbuf := 4, nw := 512, base := 0 }

/-- How many host cycles pass before the command accepted at draw n completes, beyond the step that completes it:
the OPEN parameter LAT less one (00_scope.md R8, 70_reset_and_hazards.md R262). A free value. The spec leaves it open
for each command and each operand; that it depends on the count of draws alone is this model's DESIGN CHOICE: safe
within one run, unsafe for a claim that compares the latencies of two runs (log 8). -/
opaque Config.latency : Nat → Nat

/-- What RESULT reads as while BUSY = 1 (70_reset_and_hazards.md R260). A free value of the draw
counter (log 9). -/
opaque Config.anyResult : Nat → BitVec 64

/-- What STATUS.LAST_ERR reads as while BUSY = 1 (70_reset_and_hazards.md R260). A free value of the draw
counter (log 9). -/
opaque Config.anyLastErr : Nat → BitVec 4

/-- What STATUS.ERR_CHAR reads as while BUSY = 1 (70_reset_and_hazards.md R260). A free value of the draw
counter (log 9). -/
opaque Config.anyErrChar : Nat → BitVec 8

end Sys2Proof
end

