-- ==== Sys2Proof/Machine/State.lean ====
section
/-! DEFINITION. The state of the block (10_state.md R20 to R46), the inputs of its two outside agents (the host
and the reset line) and the reasons a step can stop. -/

namespace Sys2Proof.Machine

/-- One buffer slot S[d] (10_state.md R21, R23, R25). `words` holds the words that belong to the buffer, index
0 the least significant; their number is numWords (R22). Words at index numWords and above are unobservable and
are not held (R29; log 3, safe). -/
structure Slot where
  /-- words[0 .. numWords−1] (R21) -/
  words : List Word
  /-- usedBitsInLastWord (R23) -/
  used : Nat
  /-- frontPaddingBits, an unsigned 32-bit counter (R25) -/
  pad : BitVec 32
deriving DecidableEq, Repr

/-- The empty buffer: "one zero-valued word, zero used bits" (10_state.md R22, R46). -/
def Slot.empty : Slot := { words := [0], used := 0, pad := 0 }

/-- The storage of the block: its slots, S[0] first (10_state.md R20). -/
abbrev Memory := List Slot

/-- LATCH: the command word, ARG and IDX copied at an accepted CMD write (10_state.md R43). -/
structure Latch where
  word : CommandWord
  arg : BitVec 64
  idx : BitVec 32
deriving DecidableEq, Repr

/-- What a host access does: read, or write a 64-bit value (20_memory.md R60, R61). -/
inductive AccessKind where
  | read
  | write (value : BitVec 64)
deriving DecidableEq, Repr

/-- One host access: which host makes it (60_exceptions.md R233), its byte address, its width in bits and its
kind (20_memory.md R60, R61). -/
structure Access where
  host : Nat
  addr : Nat
  width : Nat
  kind : AccessKind
deriving DecidableEq, Repr

/-- What the outside world does to the block in one cycle: RST asserted or not (70_reset_and_hazards.md R250;
log 17), and at most one host access (20_memory.md R63). -/
structure HostCycle where
  rst : Bool
  access : Option Access
deriving DecidableEq, Repr

/-- An error a command can end with (60_exceptions.md R220). `char` carries the offending character (10_state.md
R40). -/
inductive CmdError where
  | illegal
  | slot
  | width
  | value
  | char (c : Byte)
  | range
  | size
  | emptyKey
  | group
  | full
deriving DecidableEq, Repr

/-- The state of the block (10_state.md R20), and below `latch` the model's own fields (INVENTORY.md, State). -/
structure State where
  /-- PARAM's W, NBUF and NW (R41), and BASE (20_memory.md R60): constant (log 1). -/
  cfg : Config
  /-- S[0..NBUF−1] (R20) -/
  slots : Memory
  /-- ARG (R32) -/
  arg : BitVec 64
  /-- IDX (R33) -/
  idx : BitVec 32
  /-- RESULT (R34) -/
  result : BitVec 64
  /-- STATUS.STICKY (R37) -/
  sticky : Bool
  /-- STATUS.OVERRUN (R38) -/
  overrun : Bool
  /-- STATUS.LAST_ERR (R39) -/
  lastErr : BitVec 4
  /-- STATUS.ERR_CHAR (R40) -/
  errChar : BitVec 8
  /-- LATCH, empty when no command is in flight (R43). STATUS.BUSY (R36) is `latch.isSome` (log 5). -/
  latch : Option Latch
  /-- The model's own: host cycles before the command in flight completes, LAT (00_scope.md R8; log 8). -/
  wait : Nat
  /-- The model's own: how many free values were drawn (log 10). -/
  draws : Nat
  /-- The model's own: the host's cycles still to come, oldest first (log 6). -/
  inputs : List HostCycle
  /-- The model's own: the host that has driven the block since reset (60_exceptions.md R233; log 12). -/
  owner : Option Nat
  /-- The model's own: the value last returned to a host read (log 11). -/
  readData : Option (BitVec 64)
deriving DecidableEq, Repr

/-- Why a step of the machine stops with a fault. No command's meaning raises one (60_exceptions.md R224). -/
inductive Fault where
  /-- Raised by `serveAccess` for an access whose address is outside the 256 bytes of the register block
  (20_memory.md R60): it is no access of this block. Safe: the model stops (log 13). -/
  | outsideWindow
deriving DecidableEq, Repr

/-- Why a step of the machine is refused. No command's meaning raises one (60_exceptions.md R224). -/
inductive Refusal where
  /-- An arm of `exec` without a meaning; no arm is left that says so. Safe. -/
  | notModelled (mnemonic : String)
  /-- Raised by `serveAccess` for an access that is not 64 bits wide (20_memory.md R61: "refuses it"). Safe. -/
  | accessWidth
  /-- Raised by `serveAccess` for an offset that is no multiple of 8 (20_memory.md R61: "refuses it"). Safe. -/
  | misalignedAccess
  /-- Raised by `serveAccess` when a second host drives the block (60_exceptions.md R233: "a model refuses such a
  run"). Safe (log 12). -/
  | secondHost
deriving DecidableEq, Repr

/-- The state after reset of a block with configuration `c` (10_state.md R46, 70_reset_and_hazards.md R250):
every slot the empty buffer, every register 0, no command in flight. -/
def State.resetWith (c : Config) : State :=
  { cfg := c
    slots := List.replicate c.nbuf Slot.empty
    arg := 0
    idx := 0
    result := 0
    sticky := false
    overrun := false
    lastErr := 0
    errChar := 0
    latch := none
    wait := 0
    draws := 0
    inputs := []
    owner := none
    readData := none }

/-- The block right after reset, at the reference configuration (00_scope.md R5 to R7; log 1). -/
def State.reset : State := State.resetWith Config.reference

end Sys2Proof.Machine
end

