-- ==== Sys2Proof/Machine/Flags.lean ====
section
/-! DEFINITION. STATUS and PARAM as 64-bit words, and the codes of errors (10_state.md R35 to R41,
60_exceptions.md R220). -/

namespace Sys2Proof.Machine

/-- The code an error writes to STATUS.LAST_ERR (60_exceptions.md R220); 0 is success, 11 to 15 are never
produced. -/
def CmdError.code : CmdError → BitVec 4
  | .illegal => 1
  | .slot => 2
  | .width => 3
  | .value => 4
  | .char _ => 5
  | .range => 6
  | .size => 7
  | .emptyKey => 8
  | .group => 9
  | .full => 10

/-- What an error writes to STATUS.ERR_CHAR: the offending character for CHAR, else 0 (10_state.md R40). -/
def CmdError.info : CmdError → BitVec 8
  | .char c => c
  | _ => 0

/-- The layout of STATUS (10_state.md R35): BUSY 0, STICKY 1, OVERRUN 2, LAST_ERR 11:8, ERR_CHAR 23:16,
reserved bits 0. -/
def packStatus (busy sticky overrun : Bool) (lastErr : BitVec 4) (errChar : BitVec 8) : BitVec 64 :=
  0#40 ++ errChar ++ 0#4 ++ lastErr ++ 0#5 ++ BitVec.ofBool overrun ++ BitVec.ofBool sticky ++ BitVec.ofBool busy

/-- STATUS.BUSY: a command is in flight (10_state.md R36, R43; log 5). -/
def State.busy (s : State) : Bool := s.latch.isSome

/-- STATUS (10_state.md R35). -/
def State.statusWord (s : State) : BitVec 64 :=
  packStatus s.busy s.sticky s.overrun s.lastErr s.errChar

/-- STATUS as a host read sees it: while BUSY = 1 the fields LAST_ERR and ERR_CHAR are free values
(70_reset_and_hazards.md R260; log 9). -/
def State.statusSeen (s : State) : BitVec 64 :=
  if s.busy then
    packStatus true s.sticky s.overrun (Config.anyLastErr s.draws) (Config.anyErrChar s.draws)
  else s.statusWord

/-- RESULT as a host read sees it: a free value while BUSY = 1 (70_reset_and_hazards.md R260; log 9). -/
def State.resultSeen (s : State) : BitVec 64 :=
  if s.busy then Config.anyResult s.draws else s.result

/-- PARAM (10_state.md R41): W 7:0, NBUF 15:8, NW 47:16, version 1 at 55:48, 63:56 = 0. -/
def State.paramWord (s : State) : BitVec 64 :=
  0#8 ++ 1#8 ++ BitVec.ofNat 32 s.cfg.nw ++ BitVec.ofNat 8 s.cfg.nbuf ++ BitVec.ofNat 8 s.cfg.wordWidth

end Sys2Proof.Machine
end

