-- ==== Sys2Proof/Machine/Ops.lean ====
section
/-! DEFINITION. The named operations over slots (00_scope.md R11, 20_memory.md R50 to R57, 43_xor.md R200, R201)
and the completion of a command, with success or with an error (30_encoding.md R79, 60_exceptions.md R221). -/

namespace Sys2Proof.Machine

/-! ## The bit space of a slot -/

/-- Σ_{j<w} f(j)·2^j (00_scope.md R11). -/
def bitsValue (f : Nat → Bool) : Nat → Nat
  | 0 => 0
  | w + 1 => bitsValue f w + (f w).toNat * 2 ^ w

/-- numWords (10_state.md R22). -/
def Slot.numWords (b : Slot) : Nat := b.words.length

/-- n = W·(numWords − 1) + used (10_state.md R26). -/
def Slot.numBits (W : Nat) (b : Slot) : Nat := W * (b.numWords - 1) + b.used

/-- numBytes = n div 8 (10_state.md R27). -/
def Slot.numBytes (W : Nat) (b : Slot) : Nat := b.numBits W / 8

/-- The storage bit at position p: bit p mod W of word p div W (00_scope.md R10, 20_memory.md R50). -/
def Slot.bit (W : Nat) (b : Slot) (p : Nat) : Bool := (b.words.getD (p / W) 0).getLsbD (p % W)

/-- BitRead (20_memory.md R52): w bits from position i, the lowest-addressed one least significant. -/
def Slot.bitRead (W : Nat) (b : Slot) (i w : Nat) : Nat := bitsValue (fun j => b.bit W (i + j)) w

/-- One bit of a word set to `v`. -/
def setWordBit (x : Word) (k : Nat) (v : Bool) : Word :=
  if v then x ||| BitVec.twoPow 64 k else x &&& ~~~(BitVec.twoPow 64 k)

/-- words[p div W][p mod W] <- v (20_memory.md R53). -/
def writeBit (W : Nat) (words : List Word) (p : Nat) (v : Bool) : List Word :=
  words.modify (p / W) (fun x => setWordBit x (p % W) v)

/-- words[(i+j) div W][(i+j) mod W] <- v[j] for j < w (20_memory.md R53, R54). -/
def writeBits (W : Nat) (words : List Word) (i : Nat) : Nat → Nat → List Word
  | 0, _ => words
  | w + 1, v => writeBit W (writeBits W words i w v) (i + w) (v.testBit w)

/-- BitWrite (20_memory.md R53): changes neither numWords nor used nor pad. -/
def Slot.bitWrite (W : Nat) (b : Slot) (i w v : Nat) : Slot :=
  { b with words := writeBits W b.words i w v }

/-- Zero words up to k words in all: the words that become part of the buffer (20_memory.md R54). -/
def growTo (words : List Word) (k : Nat) : List Word :=
  words ++ List.replicate (k - words.length) 0

/-- Append (20_memory.md R54), the single insertion primitive: FULL beyond CAP, else w bits of v at the
insertion point. pad never changes. -/
def Slot.append (c : Config) (b : Slot) (w v : Nat) : Except CmdError Slot :=
  let n0 := b.numBits c.wordWidth
  let n1 := n0 + w
  if c.cap < n1 then .error .full
  else .ok { b with
    words := writeBits c.wordWidth (growTo b.words (n1 / c.wordWidth + 1)) n0 w v
    used := n1 % c.wordWidth }

/-! ## The byte space of a slot -/

/-- The lowest position of byte k, which counts from the top of the sequence: n − 8(k+1) (20_memory.md R56). -/
def Slot.bytePos (W : Nat) (b : Slot) (k : Nat) : Nat := b.numBits W - 8 * (k + 1)

/-- ByteRead (20_memory.md R56). -/
def Slot.byteRead (W : Nat) (b : Slot) (k : Nat) : Nat := b.bitRead W (b.bytePos W k) 8

/-- ByteWrite (20_memory.md R56). -/
def Slot.byteWrite (W : Nat) (b : Slot) (k v : Nat) : Slot := b.bitWrite W (b.bytePos W k) 8 v

/-! ## XOR of slots -/

/-- The word-by-word XOR of A and B with A's used and pad (43_xor.md R200). -/
def Slot.exclusiveOr (a b : Slot) : Slot :=
  { a with words := a.words.mapIdx (fun k x => x ^^^ b.words.getD k 0) }

/-- The first m bytes of the target XORed with the key bytes, cyclically; both are read from the slots as they
were before the command (43_xor.md R201). -/
def Slot.keyedBytes (W : Nat) (target key : Slot) : Nat → Slot
  | 0 => target
  | m + 1 =>
    (Slot.keyedBytes W target key m).byteWrite W m
      (target.byteRead W m ^^^ key.byteRead W (m % key.numBytes W))

/-- The whole target XORed with the repeating key (43_xor.md R201). -/
def Slot.repeatingKeyXor (W : Nat) (target key : Slot) : Slot :=
  Slot.keyedBytes W target key (target.numBytes W)

/-! ## Slots of the machine -/

/-- S[d] (00_scope.md R10). A slot field at or above NBUF never reaches it (`withSlot`). -/
def State.slotAt (s : State) (d : Nat) : Slot := s.slots.getD d Slot.empty

/-! ## Completion of a command -/

/-- What a successful command writes beside STATUS: nothing (a skipped character), RESULT, or one slot. -/
inductive Effect where
  | nothing
  | result (v : BitVec 64)
  | store (d : Nat) (b : Slot)
deriving DecidableEq, Repr

/-- An error of a command: no slot, ARG, IDX or RESULT changes; LAST_ERR, ERR_CHAR and STICKY are written and
BUSY is cleared (30_encoding.md R79, 60_exceptions.md R221, R228). The block saves no state and transfers no
control, so there is no return operation (R229). -/
def State.raise (s : State) (e : CmdError) : State :=
  { s with lastErr := e.code, errChar := e.info, sticky := true, latch := none, wait := 0 }

/-- A success: LAST_ERR and ERR_CHAR become 0 and BUSY is cleared (30_encoding.md R79). -/
def State.succeed (s : State) : State :=
  { s with lastErr := 0, errChar := 0, latch := none, wait := 0 }

/-- Writing RESULT (10_state.md R34). -/
def State.setResult (s : State) (v : BitVec 64) : State := { s with result := v }

/-- Writing slot d. -/
def State.setSlot (s : State) (d : Nat) (b : Slot) : State := { s with slots := s.slots.set d b }

/-- The effect of a successful command. -/
def State.apply (s : State) : Effect → State
  | .nothing => s
  | .result v => s.setResult v
  | .store d b => s.setSlot d b

/-- The one step in which a command ends (30_encoding.md R79, 10_state.md R36): every command's meaning is this
operation on what the command computes from the pre-command state. -/
def complete (s : State) : Except CmdError Effect → Host.Outcome State Fault Refusal
  | .ok e => .next (s.apply e).succeed
  | .error e => .next (s.raise e)

end Sys2Proof.Machine
end

