-- ==== Sys2Proof/Machine/Operands.lean ====
section
/-! DEFINITION. The operand forms (30_encoding.md R71 to R74) and the checks on them (60_exceptions.md R222). -/

namespace Sys2Proof.Machine

/-- The value operand ARG as latched at the CMD write (30_encoding.md R73); with no command in flight, what the
latch would take (70_reset_and_hazards.md R264; log 16). -/
def State.operandArg (s : State) : BitVec 64 :=
  match s.latch with
  | some l => l.arg
  | none => s.arg

/-- The index operand IDX as latched at the CMD write, an unsigned number (30_encoding.md R73, R74; log 16). -/
def State.operandIdx (s : State) : Nat :=
  match s.latch with
  | some l => l.idx.toNat
  | none => s.idx.toNat

/-- A used slot field: SLOT at or above NBUF, else the slot it names (30_encoding.md R71). -/
def withSlot (s : State) (d : Nat) (k : Slot → Except CmdError Effect) : Except CmdError Effect :=
  if d < s.cfg.nbuf then k (s.slotAt d) else .error .slot

/-- The width operand of ADDBITS and GETBITS: WIDTH above W (41_buffer_access.md R122). -/
def withWidth (c : Config) (width : Nat) (k : Except CmdError Effect) : Except CmdError Effect :=
  if c.wordWidth < width then .error .width else k

/-- RESULT <- zext_64(v) (30_encoding.md R74). -/
def resultOf (v : Nat) : Except CmdError Effect := .ok (.result (BitVec.ofNat 64 v))

/-- A slot grown by Append and stored back (20_memory.md R54). -/
def storeAppend (c : Config) (d : Nat) (b : Slot) (w v : Nat) : Except CmdError Effect :=
  match b.append c w v with
  | .ok b' => .ok (.store d b')
  | .error e => .error e

end Sys2Proof.Machine
end

