-- ==== Sys2Proof/Machine/Bus.lean ====
section
/-! DEFINITION. The host register space, command acceptance, the busy protocol and the reset input
(20_memory.md R60 to R62, 10_state.md R36 to R43, 70_reset_and_hazards.md R250, R251, R260, R261), and the fetch
of the command the engine executes next. -/

namespace Sys2Proof.Machine

/-! ## The register map (20_memory.md R60) -/

/-- What a host read at an offset returns (20_memory.md R60, R62): CMD and reserved offsets read 0. -/
def State.readRegister (s : State) (offset : Nat) : BitVec 64 :=
  match offset with
  | 0x08 => s.arg
  | 0x10 => s.idx.setWidth 64
  | 0x18 => s.resultSeen
  | 0x20 => s.statusSeen
  | 0x28 => s.paramWord
  | _ => 0

/-- A command word is accepted: it, ARG and IDX are latched (10_state.md R43). The latency of an accepted command
is a free value; R8 of 00_scope.md and R262 of 70_reset_and_hazards.md leave it open for each command and each operand,
and that it is applied to the draw counter alone is this model's DESIGN CHOICE (log 8, log 10). -/
def State.accept (s : State) (w : CommandWord) : State :=
  { s with
    latch := some { word := w, arg := s.arg, idx := s.idx }
    wait := Config.latency s.draws
    draws := s.draws + 1 }

/-- A command word is dropped: only OVERRUN is set (10_state.md R38). -/
def State.dropCommand (s : State) : State := { s with overrun := true }

/-- A write to CMD: accepted while BUSY = 0, dropped while BUSY = 1 (70_reset_and_hazards.md R261). -/
def State.issue (s : State) (w : CommandWord) : State :=
  if s.busy then s.dropCommand else s.accept w

/-- What a host write at an offset does (20_memory.md R60, R62): CMD takes bits 31:0 (10_state.md R42), ARG all
64, IDX bits 31:0 (R33); every other offset ignores writes. -/
def State.writeRegister (s : State) (offset : Nat) (v : BitVec 64) : State :=
  match offset with
  | 0x00 => s.issue (v.setWidth 32)
  | 0x08 => { s with arg := v }
  | 0x10 => { s with idx := v.setWidth 32 }
  | _ => s

/-- A host read: its value goes to the host and no register changes (20_memory.md R62). While BUSY = 1 the next
read draws fresh free values (70_reset_and_hazards.md R260; log 9, log 10). -/
def State.hostRead (s : State) (offset : Nat) : State :=
  { s with
    readData := some (s.readRegister offset)
    draws := if s.busy then s.draws + 1 else s.draws }

/-- A host access inside the interface. -/
def State.perform (s : State) (offset : Nat) : AccessKind → State
  | .read => s.hostRead offset
  | .write v => s.writeRegister offset v

/-- `s` driven by this host (60_exceptions.md R233; log 12). -/
def State.grant (s : State) (host : Nat) : State := { s with owner := some host }

/-- The address lies in the 256 bytes at BASE (20_memory.md R60). -/
abbrev State.inWindow (s : State) (addr : Nat) : Prop := s.cfg.base ≤ addr ∧ addr < s.cfg.base + 256

/-- Another host than this one has driven the block since reset (60_exceptions.md R233; log 12). -/
abbrev State.ownedByOther (s : State) (host : Nat) : Prop := s.owner ≠ none ∧ s.owner ≠ some host

/-- One host access: outside the block's window it faults (log 13); a second host is refused (60_exceptions.md
R233); so are narrow and misaligned accesses (20_memory.md R61); any other is performed. -/
def serveAccess (s : State) (a : Access) : Host.Outcome State Fault Refusal :=
  if ¬ s.inWindow a.addr then .fault .outsideWindow
  else if s.ownedByOther a.host then .refused .secondHost
  else if a.width ≠ 64 then .refused .accessWidth
  else if (a.addr - s.cfg.base) % 8 ≠ 0 then .refused .misalignedAccess
  else .next ((s.grant a.host).perform (a.addr - s.cfg.base) a.kind)

/-! ## Cycles -/

/-- RST is asserted in the coming cycle (70_reset_and_hazards.md R250). -/
def State.resetAsserted (s : State) : Bool :=
  match s.inputs with
  | c :: _ => c.rst
  | [] => false

/-- Reset (70_reset_and_hazards.md R250, R251): the reset state of this configuration, whatever was in flight;
an access in the same cycle is dropped. The inputs still to come stay, and free values stay fresh (log 10). -/
def State.takeReset (s : State) : State :=
  { State.resetWith s.cfg with inputs := s.inputs.tail, draws := s.draws }

/-- One cycle of the latency passes (70_reset_and_hazards.md R262; log 8). -/
def State.tick (s : State) : State := { s with wait := s.wait - 1 }

/-- The inputs still to come. -/
def State.withInputs (s : State) (rest : List HostCycle) : State := { s with inputs := rest }

/-- One cycle in which the engine completes nothing: the host's access, if it makes one (log 7). -/
def hostCycle (s : State) : Host.Outcome State Fault Refusal :=
  match s.inputs with
  | [] => .next s.tick
  | { access := none, .. } :: rest => .next (s.tick.withInputs rest)
  | { access := some a, .. } :: rest => serveAccess (s.tick.withInputs rest) a

/-- The command the engine executes in this step: the latched word, decoded, once its latency has passed
(10_state.md R43, 30_encoding.md R79; log 7). -/
def State.fetch (s : State) : Option (Except Reject Instr) :=
  match s.latch with
  | some l => if s.wait = 0 then some (decode l.word) else none
  | none => none

/-- A latched word that spells no command ends with ILLEGAL (30_encoding.md R76, R77, R79). -/
def rejectCommand (s : State) : Host.Outcome State Fault Refusal := complete s (.error .illegal)

/-- `s` with the command word in the latch, accepted as a CMD write would (ARG and IDX copied, 10_state.md R43)
and its latency passed, so that the engine executes it in the very next step (log 14). A cycle with RST asserted
at the head of the inputs would take precedence (70_reset_and_hazards.md R251), so it is dropped. -/
def State.latchWord (s : State) (w : CommandWord) : State :=
  { s with
    latch := some { word := w, arg := s.arg, idx := s.idx }
    wait := 0
    inputs := s.inputs.dropWhile (fun c => c.rst) }

end Sys2Proof.Machine
end

