-- ==== Sys2Proof/Machine/BufferAccess.lean ====
section
/-! DEFINITION. The buffer access commands (41_buffer_access.md R120 to R130). Checks stand in the order of
60_exceptions.md R222. -/

namespace Sys2Proof.Machine

/-- CLEAR (41_buffer_access.md R120): slot d becomes the empty buffer. -/
def execClear (d : Nat) (s : State) : Host.Outcome State Fault Refusal :=
  complete s (withSlot s d fun _ => .ok (.store d Slot.empty))

/-- ADDBIT (41_buffer_access.md R121). -/
def execAddbit (d : Nat) (bit : Bool) (s : State) : Host.Outcome State Fault Refusal :=
  complete s (withSlot s d fun b => storeAppend s.cfg d b 1 bit.toNat)

/-- ADDBITS (41_buffer_access.md R123, R124): WIDTH, then VALUE for a bit of ARG at or above the width, then
FULL. -/
def execAddbits (d width : Nat) (s : State) : Host.Outcome State Fault Refusal :=
  complete s (withSlot s d fun b =>
    withWidth s.cfg width
      (if width < 64 ∧ s.operandArg >>> width ≠ 0 then .error .value
       else storeAppend s.cfg d b width s.operandArg.toNat))

/-- GETBITS (41_buffer_access.md R125): WIDTH, then RANGE. -/
def execGetbits (d width : Nat) (s : State) : Host.Outcome State Fault Refusal :=
  complete s (withSlot s d fun b =>
    withWidth s.cfg width
      (if b.numBits s.cfg.wordWidth ≤ s.operandIdx ∨ b.numBits s.cfg.wordWidth < s.operandIdx + width then
         .error .range
       else resultOf (b.bitRead s.cfg.wordWidth s.operandIdx width)))

/-- GETBYTE (41_buffer_access.md R126). -/
def execGetbyte (d : Nat) (s : State) : Host.Outcome State Fault Refusal :=
  complete s (withSlot s d fun b =>
    if b.numBytes s.cfg.wordWidth ≤ s.operandIdx then .error .range
    else resultOf (b.byteRead s.cfg.wordWidth s.operandIdx))

/-- SETBYTE (41_buffer_access.md R127). -/
def execSetbyte (d : Nat) (byte : Byte) (s : State) : Host.Outcome State Fault Refusal :=
  complete s (withSlot s d fun b =>
    if b.numBytes s.cfg.wordWidth ≤ s.operandIdx then .error .range
    else .ok (.store d (b.byteWrite s.cfg.wordWidth s.operandIdx byte.toNat)))

/-- NUMBITS (41_buffer_access.md R128). -/
def execNumbits (d : Nat) (s : State) : Host.Outcome State Fault Refusal :=
  complete s (withSlot s d fun b => resultOf (b.numBits s.cfg.wordWidth))

/-- NUMBYTES (41_buffer_access.md R129). -/
def execNumbytes (d : Nat) (s : State) : Host.Outcome State Fault Refusal :=
  complete s (withSlot s d fun b => resultOf (b.numBytes s.cfg.wordWidth))

/-- PADBITS (41_buffer_access.md R130). -/
def execPadbits (d : Nat) (s : State) : Host.Outcome State Fault Refusal :=
  complete s (withSlot s d fun b => resultOf b.pad.toNat)

end Sys2Proof.Machine
end

