-- ==== Sys2Proof/Machine/CharCodec.lean ====
section
/-! DEFINITION. The char codecs: the hex and base64 tables and their four commands (40_char_codecs.md). -/

namespace Sys2Proof.Machine

/-- hexval (40_char_codecs.md R100, R102): none outside the alphabet `0-9a-f`. -/
def hexValue (c : Byte) : Option Nat :=
  if 0x30 ≤ c.toNat ∧ c.toNat ≤ 0x39 then some (c.toNat - 0x30)
  else if 0x61 ≤ c.toNat ∧ c.toNat ≤ 0x66 then some (c.toNat - 0x61 + 10)
  else none

/-- hexchar, for n at most 15 (40_char_codecs.md R100). -/
def hexChar (n : Nat) : Byte :=
  if n < 10 then BitVec.ofNat 8 (0x30 + n) else BitVec.ofNat 8 (0x61 + (n - 10))

/-- b64val (40_char_codecs.md R101, R104): none outside the alphabet `A-Za-z0-9+/`. -/
def b64Value (c : Byte) : Option Nat :=
  if 0x41 ≤ c.toNat ∧ c.toNat ≤ 0x5A then some (c.toNat - 0x41)
  else if 0x61 ≤ c.toNat ∧ c.toNat ≤ 0x7A then some (c.toNat - 0x61 + 26)
  else if 0x30 ≤ c.toNat ∧ c.toNat ≤ 0x39 then some (c.toNat - 0x30 + 52)
  else if c.toNat = 0x2B then some 62
  else if c.toNat = 0x2F then some 63
  else none

/-- b64char, for n at most 63 (40_char_codecs.md R101). -/
def b64Char (n : Nat) : Byte :=
  if n < 26 then BitVec.ofNat 8 (0x41 + n)
  else if n < 52 then BitVec.ofNat 8 (0x61 + (n - 26))
  else if n < 62 then BitVec.ofNat 8 (0x30 + (n - 52))
  else if n = 62 then 0x2B
  else 0x2F

/-- A charToValue command: RESULT is the character's value, or CHAR (40_char_codecs.md R102, R104). -/
def charToValue (value : Option Nat) (c : Byte) : Except CmdError Effect :=
  match value with
  | some v => resultOf v
  | none => .error (.char c)

/-- A valueToChar command: VALUE above the largest value, else RESULT is the character (40_char_codecs.md R103,
R105). -/
def valueToChar (limit n : Nat) (c : Byte) : Except CmdError Effect :=
  if limit < n then .error .value else resultOf c.toNat

/-- C2V_HEX (40_char_codecs.md R102). -/
def execC2vHex (c : Byte) (s : State) : Host.Outcome State Fault Refusal :=
  complete s (charToValue (hexValue c) c)

/-- V2C_HEX (40_char_codecs.md R103). -/
def execV2cHex (n : Nat) (s : State) : Host.Outcome State Fault Refusal :=
  complete s (valueToChar 15 n (hexChar n))

/-- C2V_B64 (40_char_codecs.md R104). -/
def execC2vB64 (c : Byte) (s : State) : Host.Outcome State Fault Refusal :=
  complete s (charToValue (b64Value c) c)

/-- V2C_B64 (40_char_codecs.md R105). -/
def execV2cB64 (n : Nat) (s : State) : Host.Outcome State Fault Refusal :=
  complete s (valueToChar 63 n (b64Char n))

end Sys2Proof.Machine
end

