-- ==== Sys2Proof/Machine/Decoders.lean ====
section
/-! DEFINITION. The format decoders, one character a command (42_format_codecs.md R160 to R168). -/

namespace Sys2Proof.Machine

/-- The binary alphabet: `0` and `1` (42_format_codecs.md R161). -/
def binValue (c : Byte) : Option Nat :=
  if c = 0x30 then some 0 else if c = 0x31 then some 1 else none

/-- The ASCII codec: every code 0x00 to 0xFF is legal (42_format_codecs.md R164). -/
def ascValue (c : Byte) : Option Nat := some c.toNat

/-- One character of a decoder: CHAR outside the alphabet, else its group of g bits is appended
(42_format_codecs.md R160). -/
def decodeChar (s : State) (d g : Nat) (c : Byte) (value : Option Nat) : Except CmdError Effect :=
  withSlot s d fun b =>
    match value with
    | some v => storeAppend s.cfg d b g v
    | none => .error (.char c)

/-- Line feed and carriage return, which the base64 decoder skips (42_format_codecs.md R163). -/
def isLineEnd (c : Byte) : Bool := c == 0x0A || c == 0x0D

/-- A base64 `=`: a zero group of 6 bits, and 8 more padding bits; neither on FULL (42_format_codecs.md R163).
The count never wraps (log 19). -/
def appendPadding (c : Config) (d : Nat) (b : Slot) : Except CmdError Effect :=
  match b.append c 6 0 with
  | .ok b' => .ok (.store d { b' with pad := b'.pad + 8 })
  | .error e => .error e

/-- DEC_BIN (42_format_codecs.md R161). -/
def execDecBin (d : Nat) (c : Byte) (s : State) : Host.Outcome State Fault Refusal :=
  complete s (decodeChar s d 1 c (binValue c))

/-- DEC_HEX (42_format_codecs.md R162). -/
def execDecHex (d : Nat) (c : Byte) (s : State) : Host.Outcome State Fault Refusal :=
  complete s (decodeChar s d 4 c (hexValue c))

/-- DEC_B64 (42_format_codecs.md R163): line ends are skipped, `=` pads, alphabet characters append 6 bits. -/
def execDecB64 (d : Nat) (c : Byte) (s : State) : Host.Outcome State Fault Refusal :=
  complete s
    (if isLineEnd c then withSlot s d fun _ => .ok .nothing
     else if c = 0x3D then withSlot s d fun b => appendPadding s.cfg d b
     else decodeChar s d 6 c (b64Value c))

/-- DEC_ASC (42_format_codecs.md R164). -/
def execDecAsc (d : Nat) (c : Byte) (s : State) : Host.Outcome State Fault Refusal :=
  complete s (decodeChar s d 8 c (ascValue c))

end Sys2Proof.Machine
end

