-- ==== Sys2Proof/Machine/Encoders.lean ====
section
/-! DEFINITION. The format encoders: rendering lengths and indexed characters (42_format_codecs.md R170 to
R179). -/

namespace Sys2Proof.Machine

/-- The size of the region hex and ASCII render: n − min(pad, n) (42_format_codecs.md R170). Binary and base64
render all n bits. -/
def Slot.unpadded (W : Nat) (b : Slot) : Nat := b.numBits W - min b.pad.toNat (b.numBits W)

/-- The length of a rendering of m bits in groups of g: GROUP if they are not whole (42_format_codecs.md R170,
R171). -/
def renderLength (m g : Nat) : Except CmdError Effect :=
  if m % g ≠ 0 then .error .group else resultOf (m / g)

/-- Character k of a rendering of m bits in groups of g: GROUP, then RANGE, else the character
(42_format_codecs.md R170, R171). -/
def renderChar (m g k : Nat) (c : Byte) : Except CmdError Effect :=
  if m % g ≠ 0 then .error .group
  else if m / g ≤ k then .error .range
  else resultOf c.toNat

/-- The group of g bits that character k stands for: BitRead(d, n − g·(k+1), g) (42_format_codecs.md R170). -/
def Slot.groupAt (W : Nat) (b : Slot) (g k : Nat) : Nat := b.bitRead W (b.numBits W - g * (k + 1)) g

/-- The base64 character of group k: `=` if the whole group lies below bit position pad, else its alphabet
character (42_format_codecs.md R177). -/
def Slot.b64CharAt (W : Nat) (b : Slot) (k : Nat) : Byte :=
  if b.numBits W - 6 * k - 1 < b.pad.toNat then 0x3D else b64Char (b.groupAt W 6 k)

/-- ENCLEN_BIN (42_format_codecs.md R172). -/
def execEnclenBin (d : Nat) (s : State) : Host.Outcome State Fault Refusal :=
  complete s (withSlot s d fun b => resultOf (b.numBits s.cfg.wordWidth))

/-- ENC_BIN (42_format_codecs.md R173). -/
def execEncBin (d : Nat) (s : State) : Host.Outcome State Fault Refusal :=
  complete s (withSlot s d fun b =>
    if b.numBits s.cfg.wordWidth ≤ s.operandIdx then .error .range
    else resultOf (0x30 + (b.bit s.cfg.wordWidth (b.numBits s.cfg.wordWidth - 1 - s.operandIdx)).toNat))

/-- ENCLEN_HEX (42_format_codecs.md R174). -/
def execEnclenHex (d : Nat) (s : State) : Host.Outcome State Fault Refusal :=
  complete s (withSlot s d fun b => renderLength (b.unpadded s.cfg.wordWidth) 4)

/-- ENC_HEX (42_format_codecs.md R175). -/
def execEncHex (d : Nat) (s : State) : Host.Outcome State Fault Refusal :=
  complete s (withSlot s d fun b =>
    renderChar (b.unpadded s.cfg.wordWidth) 4 s.operandIdx (hexChar (b.groupAt s.cfg.wordWidth 4 s.operandIdx)))

/-- ENCLEN_B64 (42_format_codecs.md R176). -/
def execEnclenB64 (d : Nat) (s : State) : Host.Outcome State Fault Refusal :=
  complete s (withSlot s d fun b => renderLength (b.numBits s.cfg.wordWidth) 6)

/-- ENC_B64 (42_format_codecs.md R177). -/
def execEncB64 (d : Nat) (s : State) : Host.Outcome State Fault Refusal :=
  complete s (withSlot s d fun b =>
    renderChar (b.numBits s.cfg.wordWidth) 6 s.operandIdx (b.b64CharAt s.cfg.wordWidth s.operandIdx))

/-- ENCLEN_ASC (42_format_codecs.md R178). -/
def execEnclenAsc (d : Nat) (s : State) : Host.Outcome State Fault Refusal :=
  complete s (withSlot s d fun b => renderLength (b.unpadded s.cfg.wordWidth) 8)

/-- ENC_ASC (42_format_codecs.md R179). -/
def execEncAsc (d : Nat) (s : State) : Host.Outcome State Fault Refusal :=
  complete s (withSlot s d fun b =>
    renderChar (b.unpadded s.cfg.wordWidth) 8 s.operandIdx
      (BitVec.ofNat 8 (b.groupAt s.cfg.wordWidth 8 s.operandIdx)))

end Sys2Proof.Machine
end

