-- ==== Sys2Proof/Machine/Xor.lean ====
section
/-! DEFINITION. The XOR commands (43_xor.md R200 to R203). Both read only the pre-command state, so their slots
may be the same slot. -/

namespace Sys2Proof.Machine

/-- XOR (43_xor.md R200): SLOT for d, a, b in that order, SIZE if the bit counts differ. -/
def execXor (d a b : Nat) (s : State) : Host.Outcome State Fault Refusal :=
  complete s (withSlot s d fun _ => withSlot s a fun sa => withSlot s b fun sb =>
    if sa.numBits s.cfg.wordWidth ≠ sb.numBits s.cfg.wordWidth then .error .size
    else .ok (.store d (sa.exclusiveOr sb)))

/-- RKXOR (43_xor.md R201): SLOT for d, a, then EMPTYKEY if the key slot has no whole byte. -/
def execRkxor (d a : Nat) (s : State) : Host.Outcome State Fault Refusal :=
  complete s (withSlot s d fun target => withSlot s a fun key =>
    if key.numBytes s.cfg.wordWidth = 0 then .error .emptyKey
    else .ok (.store d (target.repeatingKeyXor s.cfg.wordWidth key)))

end Sys2Proof.Machine
end

