-- ==== Sys2Proof/Machine/Dispatch.lean ====
section
/-! DEFINITION. The dispatch: one arm per command (30_encoding.md R75, R79). -/

namespace Sys2Proof.Machine

def exec (i : Instr) (s : State) : Host.Outcome State Fault Refusal :=
  match i with
  | .clear d => Sys2Proof.Machine.execClear d s
  | .addbit d bit => Sys2Proof.Machine.execAddbit d bit s
  | .addbits d width => Sys2Proof.Machine.execAddbits d width s
  | .getbits d width => Sys2Proof.Machine.execGetbits d width s
  | .getbyte d => Sys2Proof.Machine.execGetbyte d s
  | .setbyte d byte => Sys2Proof.Machine.execSetbyte d byte s
  | .numbits d => Sys2Proof.Machine.execNumbits d s
  | .numbytes d => Sys2Proof.Machine.execNumbytes d s
  | .padbits d => Sys2Proof.Machine.execPadbits d s
  | .decBin d c => Sys2Proof.Machine.execDecBin d c s
  | .decHex d c => Sys2Proof.Machine.execDecHex d c s
  | .decB64 d c => Sys2Proof.Machine.execDecB64 d c s
  | .decAsc d c => Sys2Proof.Machine.execDecAsc d c s
  | .enclenBin d => Sys2Proof.Machine.execEnclenBin d s
  | .encBin d => Sys2Proof.Machine.execEncBin d s
  | .enclenHex d => Sys2Proof.Machine.execEnclenHex d s
  | .encHex d => Sys2Proof.Machine.execEncHex d s
  | .enclenB64 d => Sys2Proof.Machine.execEnclenB64 d s
  | .encB64 d => Sys2Proof.Machine.execEncB64 d s
  | .enclenAsc d => Sys2Proof.Machine.execEnclenAsc d s
  | .encAsc d => Sys2Proof.Machine.execEncAsc d s
  | .xor d a b => Sys2Proof.Machine.execXor d a b s
  | .rkxor d a => Sys2Proof.Machine.execRkxor d a s
  | .c2vHex c => Sys2Proof.Machine.execC2vHex c s
  | .v2cHex n => Sys2Proof.Machine.execV2cHex n s
  | .c2vB64 c => Sys2Proof.Machine.execC2vB64 c s
  | .v2cB64 n => Sys2Proof.Machine.execV2cB64 n s

end Sys2Proof.Machine
end

