-- ==== Sys2Proof/Machine/Step.lean ====
section
/-! DEFINITION. One step of the block: reset, or the completion of the command in flight, or one host cycle
(70_reset_and_hazards.md R251, R261, R262; log 7). -/

namespace Sys2Proof.Machine

/-- One step. Reset takes precedence over everything (60_exceptions.md R227, 70_reset_and_hazards.md R251); a
latched command whose latency has passed is executed in one atomic step (30_encoding.md R79, 20_memory.md R63);
otherwise one host cycle passes. -/
def step (s : State) : Host.Outcome State Fault Refusal :=
  if s.resetAsserted then .next s.takeReset
  else
    match s.fetch with
    | some (.ok i) => exec i s
    | some (.error _) => rejectCommand s
    | none => hostCycle s

/-- The state in which the engine is about to execute the command word `w` (log 14). -/
def State.withFetchWord (s : State) (nbits w : Nat) : State :=
  s.latchWord (BitVec.ofNat 32 (w % 2 ^ nbits))

end Sys2Proof.Machine
end

