-- ==== Sys2Proof/Machine/Macro.lean ====
section
/-! DEFINITION. The host's side of the interface: command transactions (30_encoding.md R81,
70_reset_and_hazards.md R264) and the host macros FROM_x, TO_x and XORKEY (30_encoding.md R82, 42_format_codecs.md
R165, R180). None is a command of the block, and nothing here is state of the block (log 15). -/

namespace Sys2Proof.Machine

/-- One command transaction: optional writes of ARG and IDX, then the command (30_encoding.md R81). -/
structure Transaction where
  arg : Option (BitVec 64)
  idx : Option (BitVec 32)
  cmd : Instr
deriving DecidableEq, Repr

/-- A transaction that writes neither ARG nor IDX. -/
def Transaction.plain (i : Instr) : Transaction := { arg := none, idx := none, cmd := i }

/-- A transaction that writes IDX. -/
def Transaction.indexed (i : Instr) (k : Nat) : Transaction :=
  { arg := none, idx := some (BitVec.ofNat 32 k), cmd := i }

/-- The registers after the transaction's operand writes. -/
def State.withOperands (s : State) (t : Transaction) : State :=
  { s with arg := t.arg.getD s.arg, idx := t.idx.getD s.idx }

/-- A transaction as one atomic step, Execute(w, ARG, IDX) (70_reset_and_hazards.md R264). -/
def transact (t : Transaction) (s : State) : Host.Outcome State Fault Refusal :=
  exec t.cmd (s.withOperands t)

/-- A 64-bit write by a host at an offset of the register block, with RST not asserted. -/
def writeCycle (host base offset : Nat) (v : BitVec 64) : HostCycle :=
  { rst := false, access := some { host := host, addr := base + offset, width := 64, kind := .write v } }

/-- The host cycles of a transaction's writes: ARG, IDX, CMD (30_encoding.md R81, 20_memory.md R60). -/
def Transaction.cycles (t : Transaction) (host base : Nat) : List HostCycle :=
  (t.arg.map fun v => writeCycle host base 0x08 v).toList ++
  (t.idx.map fun v => writeCycle host base 0x10 (v.setWidth 64)).toList ++
  [writeCycle host base 0x00 ((encode t.cmd).setWidth 64)]

/-- One transaction of a host macro: the host goes on with `k` if it succeeds, and ends with `failed` on the state it
leaves if LAST_ERR ≠ 0 (30_encoding.md R82). -/
def transactThen {α : Type} (t : Transaction) (s : State) (failed k : State → Host.Outcome α Fault Refusal) :
    Host.Outcome α Fault Refusal :=
  match transact t s with
  | .next s' => if s'.lastErr = 0 then k s' else failed s'
  | .fault r => .fault r
  | .refused r => .refused r

/-- A host macro's commands in order; the host stops at the first with LAST_ERR ≠ 0 (30_encoding.md R82). -/
def runTransactions : List Transaction → State → Host.Outcome State Fault Refusal
  | [], s => .next s
  | t :: ts, s => transactThen t s .next fun s' => runTransactions ts s'

/-- FROM_x b<d>, "text": CLEAR, then the characters, the last one first (30_encoding.md R82, 42_format_codecs.md
R165). `dec` is the decoder command of the format. -/
def fromText (dec : Nat → Byte → Instr) (d : Nat) (text : List Byte) : List Transaction :=
  Transaction.plain (.clear d) :: text.reverse.map fun c => Transaction.plain (dec d c)

/-- What a string encode ends with: the text, or the error code it fails with; and the state it leaves
(42_format_codecs.md R180). -/
inductive Encoded where
  | text (characters : List Byte) (final : State)
  | failed (code : BitVec 4) (final : State)
deriving DecidableEq, Repr

/-- A string encode fails with the LAST_ERR of the command that failed, in the state that command leaves
(42_format_codecs.md R180, 60_exceptions.md R221). -/
def encodeFails (s : State) : Host.Outcome Encoded Fault Refusal := .next (.failed s.lastErr s)

/-- A character in front of the text still to come; a failure stays as it is. -/
def prependCharacter (c : Byte) : Host.Outcome Encoded Fault Refusal → Host.Outcome Encoded Fault Refusal
  | .next (.text cs s) => .next (.text (c :: cs) s)
  | o => o

/-- The characters k, k+1, … of a rendering, m of them, each read by one transaction (42_format_codecs.md R180). -/
def readText (char : Instr) : Nat → Nat → State → Host.Outcome Encoded Fault Refusal
  | 0, _, s => .next (.text [] s)
  | m + 1, k, s =>
    transactThen (Transaction.indexed char k) s encodeFails fun s' =>
      prependCharacter (s'.result.setWidth 8) (readText char m (k + 1) s')

/-- TO_x b<d>: the length, then every character from the first to the last; if ENCLEN_x raises GROUP, the string
encode fails with GROUP (30_encoding.md R82, 42_format_codecs.md R180). `len` and `char` are the encoder commands of
the format. -/
def toText (len char : Nat → Instr) (d : Nat) (s : State) : Host.Outcome Encoded Fault Refusal :=
  transactThen (Transaction.plain (len d)) s encodeFails fun s' => readText (char d) s'.result.toNat 0 s'

/-- XORKEY b<d>, "key": FROM_ASC into the scratch slot, then RKXOR (30_encoding.md R82). -/
def xorKey (d scratch : Nat) (key : List Byte) : List Transaction :=
  fromText .decAsc scratch key ++ [Transaction.plain (.rkxor d scratch)]

end Sys2Proof.Machine
end

