-- ==== Sys2Proof/Safety.lean ====
section
/-! DEFINITION. The terms claims are stated in: the canonical form of the storage, the machine's invariant, what
the end of a command looks like, and the tables of the spec as data. -/

namespace Sys2Proof.Machine

/-! ## Canonical form and invariant -/

/-- The canonical form of a slot: 1 to NW words (10_state.md R22), used < W (R23, R24), no word beyond W bits
(log 4), and every spare bit 0 (R28). -/
abbrev Slot.WF (c : Config) (b : Slot) : Prop :=
  1 ≤ b.numWords ∧ b.numWords ≤ c.nw ∧ b.used < c.wordWidth ∧
  (b.words.all fun x => decide (x.toNat < 2 ^ c.wordWidth)) = true ∧
  (∀ p < c.wordWidth * b.numWords, b.numBits c.wordWidth ≤ p → b.bit c.wordWidth p = false)

/-- The canonical form of the storage: NBUF slots (00_scope.md R6), each in canonical form. -/
abbrev Memory.wf (c : Config) (m : Memory) : Prop := m.length = c.nbuf ∧ ∀ b ∈ m, b.WF c

/-- The padding count is at most 8 for every 6 bits of the slot, so the 32-bit counter cannot overflow
(92_eei_decisions.md D33). -/
abbrev Slot.PadBounded (c : Config) (b : Slot) : Prop := 3 * b.pad.toNat ≤ 4 * b.numBits c.wordWidth

/-- LAST_ERR is a code of 60_exceptions.md R220, ERR_CHAR is 0 unless it is CHAR (10_state.md R40), and an error
has left STICKY set (R37). -/
abbrev State.StatusLegal (s : State) : Prop :=
  s.lastErr.toNat ≤ 10 ∧ (s.lastErr ≠ 5 → s.errChar = 0) ∧ (s.lastErr ≠ 0 → s.sticky = true)

/-- The invariant of the machine: an allowed configuration, storage in canonical form, bounded padding counts, a
legal STATUS, and no latency left when no command is in flight. -/
abbrev State.Inv (s : State) : Prop :=
  s.cfg.Valid ∧ Memory.wf s.cfg s.slots ∧ (∀ b ∈ s.slots, b.PadBounded s.cfg) ∧ s.StatusLegal ∧
  (s.latch = none → s.wait = 0)

/-! ## How a command ends -/

/-- What no command changes: the configuration, ARG, IDX (10_state.md R32, R33), OVERRUN (R38), and the model's
own fields other than the latency count. -/
def SameShell (s t : State) : Prop :=
  t.cfg = s.cfg ∧ t.arg = s.arg ∧ t.idx = s.idx ∧ t.overrun = s.overrun ∧ t.draws = s.draws ∧
  t.inputs = s.inputs ∧ t.owner = s.owner ∧ t.readData = s.readData

/-- `t` is `s` after a command that succeeded, but for the slots and RESULT (30_encoding.md R79). -/
def EndsOk (s t : State) : Prop :=
  SameShell s t ∧ t.lastErr = 0 ∧ t.errChar = 0 ∧ t.sticky = s.sticky ∧ t.latch = none ∧ t.wait = 0

/-- `t` is `s` after a command that failed with this LAST_ERR and ERR_CHAR and changed nothing else
(60_exceptions.md R221). -/
def FailsWith (s t : State) (code : BitVec 4) (info : BitVec 8) : Prop :=
  SameShell s t ∧ t.slots = s.slots ∧ t.result = s.result ∧ t.lastErr = code ∧ t.errChar = info ∧
  t.sticky = true ∧ t.latch = none ∧ t.wait = 0

/-- `t` is `s` after a command that wrote RESULT with `v` and changed no slot. -/
def Answers (s t : State) (v : BitVec 64) : Prop :=
  EndsOk s t ∧ t.slots = s.slots ∧ t.result = v

/-- `t` is `s` after a command that changed no slot but d, and not RESULT. -/
def WritesOnly (s t : State) (d : Nat) : Prop :=
  EndsOk s t ∧ t.result = s.result ∧ t.slots.length = s.slots.length ∧ ∀ e, e ≠ d → t.slots[e]? = s.slots[e]?

/-- n(d), the number of bits of slot d (10_state.md R26). -/
def State.numBitsOf (s : State) (d : Nat) : Nat := (s.slotAt d).numBits s.cfg.wordWidth

/-- bit(d, p) (00_scope.md R10). -/
def State.bitAt (s : State) (d p : Nat) : Bool := (s.slotAt d).bit s.cfg.wordWidth p

/-- S[d].pad as a number (10_state.md R25). -/
def State.padOf (s : State) (d : Nat) : Nat := (s.slotAt d).pad.toNat

/-- Appending w bits of v to slot d (20_memory.md R54): every bit below the old n is as before, value bit j is at
position n + j, n has grown by w, and no other slot and no register but STATUS is touched. -/
def Appended (s t : State) (d w v : Nat) : Prop :=
  WritesOnly s t d ∧ t.numBitsOf d = s.numBitsOf d + w ∧
  (∀ p < s.numBitsOf d, t.bitAt d p = s.bitAt d p) ∧
  (∀ j < w, t.bitAt d (s.numBitsOf d + j) = v.testBit j)

/-- The command completes with this error code and character and no other effect (60_exceptions.md R221). -/
def Fails (i : Instr) (s : State) (code : BitVec 4) (info : BitVec 8) : Prop :=
  ∃ t, exec i s = .next t ∧ FailsWith s t code info

/-- The command completes and RESULT holds `v` (10_state.md R34). -/
def Returns (i : Instr) (s : State) (v : Nat) : Prop :=
  ∃ t, exec i s = .next t ∧ Answers s t (BitVec.ofNat 64 v)

/-- Σ_{j<w} bit(d, i+j)·2^j (00_scope.md R11, 20_memory.md R52). -/
def Slot.sumOfBits (W : Nat) (b : Slot) (i w : Nat) : Nat :=
  ∑ j ∈ Finset.range w, (b.bit W (i + j)).toNat * 2 ^ j

/-- BitRead on slot d of the machine, as that sum (20_memory.md R52). -/
def State.fieldOf (s : State) (d i w : Nat) : Nat := (s.slotAt d).sumOfBits s.cfg.wordWidth i w

/-- The same block seen through two word widths (20_memory.md R58): the same registers, the same slots as bit
sequences, the same padding counts. -/
def SameContents (s t : State) : Prop :=
  s.cfg.nbuf = t.cfg.nbuf ∧ s.arg = t.arg ∧ s.idx = t.idx ∧ s.result = t.result ∧ s.sticky = t.sticky ∧
  s.overrun = t.overrun ∧ s.lastErr = t.lastErr ∧ s.errChar = t.errChar ∧ s.latch = t.latch ∧
  ∀ d < s.cfg.nbuf, s.numBitsOf d = t.numBitsOf d ∧ s.padOf d = t.padOf d ∧
    ∀ p < s.numBitsOf d, s.bitAt d p = t.bitAt d p

/-- The architectural state agrees: everything of 10_state.md R20 (log 8, log 10 and log 11 name the rest). -/
def SameArchitecture (s t : State) : Prop :=
  s.cfg = t.cfg ∧ s.slots = t.slots ∧ s.arg = t.arg ∧ s.idx = t.idx ∧ s.result = t.result ∧
  s.sticky = t.sticky ∧ s.overrun = t.overrun ∧ s.lastErr = t.lastErr ∧ s.errChar = t.errChar ∧ s.latch = t.latch

/-- The bus cycle in which this host makes this 64-bit access at an offset of the register block, RST not asserted
(20_memory.md R60, R61). -/
def busCycle (s : State) (host offset : Nat) (kind : AccessKind) : HostCycle :=
  { rst := false, access := some { host := host, addr := s.cfg.base + offset, width := 64, kind := kind } }

/-- k steps of the block, stopping at the first fault or refusal. -/
def runSteps : Nat → State → Host.Outcome State Fault Refusal
  | 0, s => .next s
  | k + 1, s =>
    match step s with
    | .next s' => runSteps k s'
    | o => o

/-- The block's next cycle is this one, the host may drive the block (60_exceptions.md R233), and the engine
completes nothing in it: no command is in flight, or its latency still runs (70_reset_and_hazards.md R262). -/
def FacesCycle (s : State) (host : Nat) (c : HostCycle) (rest : List HostCycle) : Prop :=
  s.inputs = c :: rest ∧ (s.owner = none ∨ s.owner = some host) ∧ (s.latch = none ∨ 0 < s.wait)

end Sys2Proof.Machine

namespace Sys2Proof

/-! ## The spec's tables -/

/-- The slot a command may write: the destination of CLEAR, the appends, SETBYTE, XOR and RKXOR (10_state.md, 2;
41_buffer_access.md; 43_xor.md). -/
def Instr.target : Instr → Option Nat
  | .clear d => some d
  | .addbit d _ => some d
  | .addbits d _ => some d
  | .setbyte d _ => some d
  | .decBin d _ => some d
  | .decHex d _ => some d
  | .decB64 d _ => some d
  | .decAsc d _ => some d
  | .xor d _ _ => some d
  | .rkxor d _ => some d
  | _ => none

/-- The slot fields a command uses, in the order D, A, B (30_encoding.md R75). -/
def Instr.slotFields : Instr → List Nat
  | .clear d => [d]
  | .addbit d _ => [d]
  | .addbits d _ => [d]
  | .getbits d _ => [d]
  | .getbyte d => [d]
  | .setbyte d _ => [d]
  | .numbits d => [d]
  | .numbytes d => [d]
  | .padbits d => [d]
  | .decBin d _ => [d]
  | .decHex d _ => [d]
  | .decB64 d _ => [d]
  | .decAsc d _ => [d]
  | .enclenBin d => [d]
  | .encBin d => [d]
  | .enclenHex d => [d]
  | .encHex d => [d]
  | .enclenB64 d => [d]
  | .encB64 d => [d]
  | .enclenAsc d => [d]
  | .encAsc d => [d]
  | .xor d a b => [d, a, b]
  | .rkxor d a => [d, a]
  | .c2vHex _ => []
  | .v2cHex _ => []
  | .c2vB64 _ => []
  | .v2cB64 _ => []

/-- The commands that write RESULT when they succeed (10_state.md R34). -/
def Instr.writesResult : Instr → Bool
  | .getbits _ _ => true
  | .getbyte _ => true
  | .numbits _ => true
  | .numbytes _ => true
  | .padbits _ => true
  | .enclenBin _ => true
  | .encBin _ => true
  | .enclenHex _ => true
  | .encHex _ => true
  | .enclenB64 _ => true
  | .encB64 _ => true
  | .enclenAsc _ => true
  | .encAsc _ => true
  | .c2vHex _ => true
  | .v2cHex _ => true
  | .c2vB64 _ => true
  | .v2cB64 _ => true
  | _ => false

/-- The error codes a decoded command can end with (60_exceptions.md R223; the codes are R220's). -/
def Instr.errorCodes : Instr → List (BitVec 4)
  | .clear _ => [2]
  | .numbits _ => [2]
  | .numbytes _ => [2]
  | .padbits _ => [2]
  | .enclenBin _ => [2]
  | .addbit _ _ => [2, 10]
  | .addbits _ _ => [2, 3, 4, 10]
  | .getbits _ _ => [2, 3, 6]
  | .getbyte _ => [2, 6]
  | .setbyte _ _ => [2, 6]
  | .encBin _ => [2, 6]
  | .decBin _ _ => [2, 5, 10]
  | .decHex _ _ => [2, 5, 10]
  | .decB64 _ _ => [2, 5, 10]
  | .decAsc _ _ => [2, 10]
  | .enclenHex _ => [2, 9]
  | .enclenB64 _ => [2, 9]
  | .enclenAsc _ => [2, 9]
  | .encHex _ => [2, 9, 6]
  | .encB64 _ => [2, 9, 6]
  | .encAsc _ => [2, 9, 6]
  | .xor _ _ _ => [2, 7]
  | .rkxor _ _ => [2, 8]
  | .c2vHex _ => [5]
  | .c2vB64 _ => [5]
  | .v2cHex _ => [4]
  | .v2cB64 _ => [4]

/-- The hex alphabet in the order of its values (40_char_codecs.md R100). -/
def hexAlphabet : List Nat :=
  [0x30, 0x31, 0x32, 0x33, 0x34, 0x35, 0x36, 0x37, 0x38, 0x39, 0x61, 0x62, 0x63, 0x64, 0x65, 0x66]

/-- The base64 alphabet in the order of its values: A–Z, a–z, 0–9, +, / (40_char_codecs.md R101). -/
def b64Alphabet : List Nat :=
  (List.range 26).map (0x41 + ·) ++ (List.range 26).map (0x61 + ·) ++ (List.range 10).map (0x30 + ·) ++ [0x2B, 0x2F]

/-- The mnemonic of a command's row (30_encoding.md R75). -/
def Instr.mnemonic : Instr → String
  | .clear _ => "CLEAR"
  | .addbit _ _ => "ADDBIT"
  | .addbits _ _ => "ADDBITS"
  | .getbits _ _ => "GETBITS"
  | .getbyte _ => "GETBYTE"
  | .setbyte _ _ => "SETBYTE"
  | .numbits _ => "NUMBITS"
  | .numbytes _ => "NUMBYTES"
  | .padbits _ => "PADBITS"
  | .decBin _ _ => "DEC_BIN"
  | .decHex _ _ => "DEC_HEX"
  | .decB64 _ _ => "DEC_B64"
  | .decAsc _ _ => "DEC_ASC"
  | .enclenBin _ => "ENCLEN_BIN"
  | .encBin _ => "ENC_BIN"
  | .enclenHex _ => "ENCLEN_HEX"
  | .encHex _ => "ENC_HEX"
  | .enclenB64 _ => "ENCLEN_B64"
  | .encB64 _ => "ENC_B64"
  | .enclenAsc _ => "ENCLEN_ASC"
  | .encAsc _ => "ENC_ASC"
  | .xor _ _ _ => "XOR"
  | .rkxor _ _ => "RKXOR"
  | .c2vHex _ => "C2V_HEX"
  | .v2cHex _ => "V2C_HEX"
  | .c2vB64 _ => "C2V_B64"
  | .v2cB64 _ => "V2C_B64"

/-- One row of the opcode map (30_encoding.md R75). -/
structure OpcodeRow where
  mnemonic : String
  pattern : CommandWord
  mask : CommandWord
deriving DecidableEq, Repr

/-- A word spells a row's command when `w & mask == match` (30_encoding.md R75). -/
abbrev OpcodeRow.Spells (r : OpcodeRow) (w : CommandWord) : Prop := w &&& r.mask = r.pattern

/-- The opcode map of 30_encoding.md R75: match and mask of every row. -/
def opcodeRows : List OpcodeRow :=
  [{ mnemonic := "CLEAR", pattern := 0x00000001#32, mask := 0xFFFFF0FF#32 },
   { mnemonic := "ADDBIT", pattern := 0x00000002#32, mask := 0xFFEFF0FF#32 },
   { mnemonic := "ADDBITS", pattern := 0x00000003#32, mask := 0xF00FF0FF#32 },
   { mnemonic := "GETBITS", pattern := 0x00000004#32, mask := 0xF00FF0FF#32 },
   { mnemonic := "GETBYTE", pattern := 0x00000005#32, mask := 0xFFFFF0FF#32 },
   { mnemonic := "SETBYTE", pattern := 0x00000006#32, mask := 0xF00FF0FF#32 },
   { mnemonic := "NUMBITS", pattern := 0x00000007#32, mask := 0xFFFFF0FF#32 },
   { mnemonic := "NUMBYTES", pattern := 0x00000008#32, mask := 0xFFFFF0FF#32 },
   { mnemonic := "PADBITS", pattern := 0x00000009#32, mask := 0xFFFFF0FF#32 },
   { mnemonic := "DEC_BIN", pattern := 0x00000010#32, mask := 0xF00FF0FF#32 },
   { mnemonic := "DEC_HEX", pattern := 0x00000011#32, mask := 0xF00FF0FF#32 },
   { mnemonic := "DEC_B64", pattern := 0x00000012#32, mask := 0xF00FF0FF#32 },
   { mnemonic := "DEC_ASC", pattern := 0x00000013#32, mask := 0xF00FF0FF#32 },
   { mnemonic := "ENCLEN_BIN", pattern := 0x00000018#32, mask := 0xFFFFF0FF#32 },
   { mnemonic := "ENC_BIN", pattern := 0x00000019#32, mask := 0xFFFFF0FF#32 },
   { mnemonic := "ENCLEN_HEX", pattern := 0x0000001A#32, mask := 0xFFFFF0FF#32 },
   { mnemonic := "ENC_HEX", pattern := 0x0000001B#32, mask := 0xFFFFF0FF#32 },
   { mnemonic := "ENCLEN_B64", pattern := 0x0000001C#32, mask := 0xFFFFF0FF#32 },
   { mnemonic := "ENC_B64", pattern := 0x0000001D#32, mask := 0xFFFFF0FF#32 },
   { mnemonic := "ENCLEN_ASC", pattern := 0x0000001E#32, mask := 0xFFFFF0FF#32 },
   { mnemonic := "ENC_ASC", pattern := 0x0000001F#32, mask := 0xFFFFF0FF#32 },
   { mnemonic := "XOR", pattern := 0x00000020#32, mask := 0xFFF000FF#32 },
   { mnemonic := "RKXOR", pattern := 0x00000021#32, mask := 0xFFFF00FF#32 },
   { mnemonic := "C2V_HEX", pattern := 0x00000030#32, mask := 0xF00FFFFF#32 },
   { mnemonic := "V2C_HEX", pattern := 0x00000031#32, mask := 0xF00FFFFF#32 },
   { mnemonic := "C2V_B64", pattern := 0x00000032#32, mask := 0xF00FFFFF#32 },
   { mnemonic := "V2C_B64", pattern := 0x00000033#32, mask := 0xF00FFFFF#32 }]

end Sys2Proof
end

