-- ==== Sys2Proof/Certificates/Slice0/Obligations.lean ====
section
/-! DEFINITION. The statements for the provers, from the numbered rules of spec/ (OBLIGATIONS.json lists them). -/

open Sys2Proof Sys2Proof.Machine

/-! ## Reset and invariant -/

/-- 10_state.md R46 (with R41 for PARAM): the state after reset, for every allowed configuration. -/
def Obligations.ResetLeavesEveryBufferEmpty : Prop :=
  ∀ c : Config, c.Valid →
    (∀ d < c.nbuf, ∃ b, (State.resetWith c).slots[d]? = some b ∧ b.words.head? = some 0 ∧ b.numWords = 1 ∧
      b.used = 0 ∧ b.pad = 0 ∧ b.numBits c.wordWidth = 0 ∧ b.numBytes c.wordWidth = 0) ∧
    (State.resetWith c).slots.length = c.nbuf ∧
    (State.resetWith c).arg = 0 ∧ (State.resetWith c).idx = 0 ∧ (State.resetWith c).result = 0 ∧
    (State.resetWith c).statusWord = 0 ∧ (State.resetWith c).latch = none ∧
    (State.resetWith c).paramWord.toNat =
      c.wordWidth + c.nbuf * 2 ^ 8 + c.nw * 2 ^ 16 + 1 * 2 ^ 48

/-- The invariant holds after reset, for every allowed configuration and at the reference one. -/
def Obligations.ResetSatisfiesTheInvariant : Prop :=
  (∀ c : Config, c.Valid → (State.resetWith c).Inv) ∧ State.reset.Inv

/-- Every step keeps the invariant: the storage stays in canonical form (10_state.md R22 to R24, R28), the padding
counts stay bounded (92_eei_decisions.md D33), LAST_ERR stays a code of 60_exceptions.md R220, ERR_CHAR stays 0
unless LAST_ERR is CHAR, an error leaves STICKY set, and the configuration stays allowed. -/
def Obligations.EveryStepKeepsTheInvariant : Prop :=
  ∀ s t : State, s.Inv → step s = .next t → t.Inv

/-- 10_state.md R37, R38, R41: as long as reset is not asserted, no step clears STICKY or OVERRUN, and no step at
all changes the configuration that PARAM shows. -/
def Obligations.OnlyResetClearsStickyAndOverrun : Prop :=
  ∀ s t : State, step s = .next t →
    t.cfg = s.cfg ∧ t.paramWord = s.paramWord ∧
    (s.resetAsserted = false →
      (s.sticky = true → t.sticky = true) ∧ (s.overrun = true → t.overrun = true)) ∧
    (s.resetAsserted = true → t.sticky = false ∧ t.overrun = false)

/-! ## Registers as words -/

/-- 10_state.md R35, R41: the places of the fields of STATUS and PARAM; reserved bits read 0. -/
def Obligations.StatusAndParamLayout : Prop :=
  ∀ s : State,
    s.statusWord.getLsbD 0 = s.latch.isSome ∧ s.statusWord.getLsbD 1 = s.sticky ∧
    s.statusWord.getLsbD 2 = s.overrun ∧ s.statusWord.extractLsb' 3 5 = 0 ∧
    s.statusWord.extractLsb' 8 4 = s.lastErr ∧ s.statusWord.extractLsb' 12 4 = 0 ∧
    s.statusWord.extractLsb' 16 8 = s.errChar ∧ s.statusWord.extractLsb' 24 40 = 0 ∧
    s.paramWord.extractLsb' 0 8 = BitVec.ofNat 8 s.cfg.wordWidth ∧
    s.paramWord.extractLsb' 8 8 = BitVec.ofNat 8 s.cfg.nbuf ∧
    s.paramWord.extractLsb' 16 32 = BitVec.ofNat 32 s.cfg.nw ∧
    s.paramWord.extractLsb' 48 8 = 1 ∧ s.paramWord.extractLsb' 56 8 = 0

/-! ## Encoding -/

/-- Decoding an encoded command gives it back, for every well-formed command (30_encoding.md R70, R75). -/
def Obligations.DecodeInvertsEncode : Prop :=
  ∀ i : Instr, i.WellFormed = true → decode (encode i) = .ok i

/-- A word that decodes is the encoding of the command it decodes to, which is well formed: each command has one
word (30_encoding.md R70, R76). -/
def Obligations.EncodeInvertsDecode : Prop :=
  ∀ (w : CommandWord) (i : Instr), decode w = .ok i → i.WellFormed = true ∧ encode i = w

/-- 30_encoding.md R75, R78: a word decodes to a command of a row exactly if `w & mask == match`, two different rows
spell no word in common, and a word that no row spells is rejected. -/
def Obligations.WordsSpellTheRowTheyMatch : Prop :=
  (∀ (w : CommandWord), ∀ r ∈ opcodeRows, (r.Spells w ↔ ∃ i, decode w = .ok i ∧ i.mnemonic = r.mnemonic)) ∧
  (∀ (w : CommandWord), ∀ r ∈ opcodeRows, ∀ r' ∈ opcodeRows, r.Spells w → r'.Spells w → r = r') ∧
  (∀ (w : CommandWord), (∀ r ∈ opcodeRows, ¬ r.Spells w) → ∃ e, decode w = .error e)

/-- 30_encoding.md R76, R77: a latched word that no row spells raises ILLEGAL (code 1) and has no other effect. -/
def Obligations.UnspelledWordsRaiseIllegal : Prop :=
  ∀ (s : State) (l : Latch), s.resetAsserted = false → s.latch = some l → s.wait = 0 →
    (∀ r ∈ opcodeRows, ¬ r.Spells l.word) → ∃ t, step s = .next t ∧ FailsWith s t 1 0

/-- Some words of 95_test_vectors.md decode to the commands that file names. -/
def Obligations.SampleWordsDecode : Prop :=
  decode 0x00000101#32 = .ok (.clear 1) ∧ decode 0x00100002#32 = .ok (.addbit 0 true) ∧
  decode 0x00C00004#32 = .ok (.getbits 0 12) ∧ decode 0x04100006#32 = .ok (.setbyte 0 0x41) ∧
  decode 0x05900112#32 = .ok (.decB64 1 0x59) ∧ decode 0x0000021F#32 = .ok (.encAsc 2) ∧
  decode 0x00010220#32 = .ok (.xor 2 0 1) ∧ decode 0x00001021#32 = .ok (.rkxor 0 1) ∧
  decode 0x01A00033#32 = .ok (.v2cB64 26) ∧ decode 0x00000000#32 = .error .unassignedOpcode

/-! ## Steps -/

/-- 30_encoding.md R79: once the latency has passed and reset is not asserted, a step executes the latched
command, with nothing added around it. -/
def Obligations.StepRunsTheLatchedCommand : Prop :=
  ∀ (s : State) (l : Latch) (i : Instr), s.resetAsserted = false → s.latch = some l → s.wait = 0 →
    decode l.word = .ok i → step s = exec i s

/-- 70_reset_and_hazards.md R250, R251: when reset is asserted the next state is the reset state of this
configuration, whatever is in flight; an access in the same cycle is dropped (its successors stay), and OVERRUN is not
set. That accesses other than CMD writes are dropped too is DEDUCED (log 17). -/
def Obligations.ResetInputTakesPrecedence : Prop :=
  ∀ (s : State) (c : HostCycle) (rest : List HostCycle), s.inputs = c :: rest → c.rst = true →
    ∃ t, step s = .next t ∧ SameArchitecture t (State.resetWith s.cfg) ∧ t.inputs = rest ∧ t.busy = false

/-- 70_reset_and_hazards.md R261, 10_state.md R36, R38, R42, R43: a write to CMD while BUSY = 0 latches bits 31:0, ARG
and IDX and sets BUSY; while BUSY = 1 it is dropped and sets OVERRUN. Neither changes a slot, ARG, IDX, RESULT or
another field of STATUS. Cycles and steps are this model's (log 6, log 7). -/
def Obligations.CommandWriteLatchesOrIsDropped : Prop :=
  ∀ (s : State) (host : Nat) (v : BitVec 64) (rest : List HostCycle),
    FacesCycle s host (busCycle s host 0x00 (.write v)) rest →
    ∃ t, step s = .next t ∧ t.inputs = rest ∧ t.busy = true ∧ t.cfg = s.cfg ∧ t.slots = s.slots ∧ t.arg = s.arg ∧
      t.idx = s.idx ∧ t.result = s.result ∧ t.sticky = s.sticky ∧ t.lastErr = s.lastErr ∧ t.errChar = s.errChar ∧
      (s.busy = false → t.overrun = s.overrun ∧
        t.latch = some { word := v.extractLsb' 0 32, arg := s.arg, idx := s.idx }) ∧
      (s.busy = true → t.overrun = true ∧ t.latch = s.latch)

/-- 10_state.md R32, R33, R43, 70_reset_and_hazards.md R263: writes of ARG and IDX take effect, busy or not, and leave
the command in flight its latched operands; nothing else changes. Cycles and steps are this model's (log 6, log 7). -/
def Obligations.OperandWritesLeaveTheLatch : Prop :=
  ∀ (s : State) (host : Nat) (v : BitVec 64) (rest : List HostCycle),
    (FacesCycle s host (busCycle s host 0x08 (.write v)) rest →
      ∃ t, step s = .next t ∧ SameArchitecture t { s with arg := v } ∧ t.inputs = rest) ∧
    (FacesCycle s host (busCycle s host 0x10 (.write v)) rest →
      ∃ t, step s = .next t ∧ SameArchitecture t { s with idx := v.extractLsb' 0 32 } ∧ t.inputs = rest)

/-- 20_memory.md R62: writes to RESULT, STATUS, PARAM and reserved offsets are ignored. Cycles and steps are this
model's (log 6, log 7). -/
def Obligations.OtherWritesAreIgnored : Prop :=
  ∀ (s : State) (host offset : Nat) (v : BitVec 64) (rest : List HostCycle),
    offset % 8 = 0 → 0x18 ≤ offset → offset < 0x100 →
    FacesCycle s host (busCycle s host offset (.write v)) rest →
    ∃ t, step s = .next t ∧ SameArchitecture t s ∧ t.inputs = rest

/-- 20_memory.md R60, R62: what a read returns while BUSY = 0, at every offset; a read changes nothing. Cycles, steps
and the place of the value read are this model's (log 6, log 7, log 11). -/
def Obligations.ReadsReturnTheRegisters : Prop :=
  ∀ (s : State) (host offset : Nat) (rest : List HostCycle),
    offset % 8 = 0 → offset < 0x100 → s.busy = false →
    FacesCycle s host (busCycle s host offset .read) rest →
    ∃ t, step s = .next t ∧ SameArchitecture t s ∧ t.inputs = rest ∧
      t.readData = some
        (if offset = 0x08 then s.arg
         else if offset = 0x10 then s.idx.setWidth 64
         else if offset = 0x18 then s.result
         else if offset = 0x20 then s.statusWord
         else if offset = 0x28 then s.paramWord
         else 0)

/-- 70_reset_and_hazards.md R260: while BUSY = 1 a read changes nothing, and of STATUS the bits BUSY, STICKY, OVERRUN
and the reserved bits, and all of PARAM, ARG and IDX, read correctly. Nothing is said of LAST_ERR, ERR_CHAR and
RESULT: they are free values (log 9). Cycles, steps and the place of the value read are this model's (log 6, log 7,
log 11). -/
def Obligations.ReadsWhileBusy : Prop :=
  ∀ (s : State) (host offset : Nat) (rest : List HostCycle),
    offset % 8 = 0 → offset < 0x100 → s.busy = true →
    FacesCycle s host (busCycle s host offset .read) rest →
    ∃ t v, step s = .next t ∧ SameArchitecture t s ∧ t.inputs = rest ∧ t.readData = some v ∧
      (offset = 0x08 → v = s.arg) ∧ (offset = 0x10 → v = s.idx.setWidth 64) ∧ (offset = 0x28 → v = s.paramWord) ∧
      (offset = 0x20 → v.getLsbD 0 = true ∧ v.getLsbD 1 = s.sticky ∧ v.getLsbD 2 = s.overrun ∧
        v.extractLsb' 3 5 = 0 ∧ v.extractLsb' 12 4 = 0 ∧ v.extractLsb' 24 40 = 0)

/-- 20_memory.md R61: an access of another width than 64 bits and a misaligned one are refused by name. 60_exceptions.md
R233 puts two hosts that drive the block at once outside the interface; that the first host since reset owns the block,
and that every access by another one, a read too, is refused, is this model's (log 12). An access outside the register
block faults; that fault and the order of the checks are this model's too (log 13). -/
def Obligations.AccessesOutsideTheInterfaceStop : Prop :=
  ∀ (s : State) (a : Access) (rest : List HostCycle),
    s.inputs = { rst := false, access := some a } :: rest → (s.latch = none ∨ 0 < s.wait) →
    (¬ s.inWindow a.addr → step s = .fault .outsideWindow) ∧
    (s.inWindow a.addr → s.ownedByOther a.host → step s = .refused .secondHost) ∧
    (s.inWindow a.addr → ¬ s.ownedByOther a.host → a.width ≠ 64 → step s = .refused .accessWidth) ∧
    (s.inWindow a.addr → ¬ s.ownedByOther a.host → a.width = 64 → (a.addr - s.cfg.base) % 8 ≠ 0 →
      step s = .refused .misalignedAccess)

/-- 70_reset_and_hazards.md R262: an accepted command completes after finitely many steps: with no further input, the
command is in flight for exactly `wait` more cycles and completed by the next step. Steps and the count `wait` are
this model's (log 7, log 8). -/
def Obligations.EveryAcceptedCommandCompletes : Prop :=
  ∀ (s : State) (l : Latch), s.latch = some l → s.inputs = [] →
    (∀ k ≤ s.wait, ∃ u : State, runSteps k s = .next u ∧ u.latch = some l) ∧
    ∃ t : State, runSteps (s.wait + 1) s = .next t ∧ t.busy = false

/-- 70_reset_and_hazards.md R264: for a host that obeys the busy protocol, the bus writes of a transaction followed by
the wait for BUSY = 0 have the effect of one atomic Execute(w, ARG, IDX), whatever the latency. Cycles, steps and the
latency's form are this model's (log 6, log 7, log 8, log 16). -/
def Obligations.TransactionIsOneAtomicStep : Prop :=
  ∀ (s : State) (t : Transaction) (host : Nat),
    s.latch = none → s.wait = 0 → (s.owner = none ∨ s.owner = some host) → t.cmd.WellFormed = true →
    s.inputs = t.cycles host s.cfg.base →
    ∃ u v : State,
      runSteps (s.inputs.length + Config.latency s.draws + 1) s = .next u ∧
      transact t s = .next v ∧ SameArchitecture u v ∧ u.latch = none ∧ u.inputs = []

/-! ## Errors and frames, over all commands -/

/-- 60_exceptions.md R224: no command terminates or stops the machine; each completes, and BUSY is cleared. -/
def Obligations.NoCommandStopsTheMachine : Prop :=
  ∀ (i : Instr) (s : State), ∃ t, exec i s = .next t ∧ t.busy = false

/-- 60_exceptions.md R221: a command that completes with LAST_ERR ≠ 0 changes no slot, ARG, IDX or RESULT; it sets
STICKY, clears BUSY, and ERR_CHAR is 0 unless LAST_ERR is CHAR (5). -/
def Obligations.FailingCommandsHaveNoEffect : Prop :=
  ∀ (i : Instr) (s t : State), exec i s = .next t → t.lastErr ≠ 0 →
    FailsWith s t t.lastErr t.errChar ∧ (t.lastErr ≠ 5 → t.errChar = 0)

/-- 60_exceptions.md R223: the error codes each command can end with. -/
def Obligations.ErrorsOfEachCommand : Prop :=
  ∀ (i : Instr) (s t : State), exec i s = .next t → t.lastErr = 0 ∨ t.lastErr ∈ i.errorCodes

/-- 30_encoding.md R71, 60_exceptions.md R222: a used slot field at or above NBUF raises SLOT (2), before every other
check of the command. Slot numbers of 16 and above, which no word spells, are this model's (log 18). -/
def Obligations.SlotFieldsAreCheckedFirst : Prop :=
  ∀ (i : Instr) (s : State) (d : Nat), d ∈ i.slotFields → s.cfg.nbuf ≤ d → Fails i s 2 0

/-- Every command leaves ARG, IDX, OVERRUN, the configuration and every slot but its target as they were; a command
that succeeds leaves STICKY as it was (10_state.md R32, R33, R38; 30_encoding.md R79). -/
def Obligations.OnlyTheTargetSlotChanges : Prop :=
  ∀ (i : Instr) (s t : State), exec i s = .next t →
    SameShell s t ∧ t.slots.length = s.slots.length ∧ (t.lastErr = 0 → t.errChar = 0 ∧ t.sticky = s.sticky) ∧
    ∀ e, i.target ≠ some e → t.slots[e]? = s.slots[e]?

/-- 10_state.md R34: RESULT is written only by a command that completes with LAST_ERR = 0 and is one of those
listed; every other command leaves it as it was. -/
def Obligations.OnlyListedCommandsWriteResult : Prop :=
  ∀ (i : Instr) (s t : State), exec i s = .next t →
    (i.writesResult = false ∨ t.lastErr ≠ 0) → t.result = s.result

/-- 10_state.md R25, 42_format_codecs.md R167: a command changes the padding count of a slot only if it is CLEAR of
that slot, DEC_B64 of `=` into it, or XOR with it as destination. -/
def Obligations.OnlyClearPaddingAndXorWritePad : Prop :=
  ∀ (i : Instr) (s t : State) (d : Nat), s.Inv → exec i s = .next t → t.padOf d ≠ s.padOf d →
    i = .clear d ∨ i = .decB64 d 0x3D ∨ ∃ a b, i = .xor d a b

/-- 20_memory.md R58: no command's result depends on the word width but through the width limit (WIDTH, 3) and the
capacity (FULL, 10): from the same contents, a command that meets neither limit leaves the same contents. -/
def Obligations.ResultsDoNotDependOnTheWordWidth : Prop :=
  ∀ (i : Instr) (s s' t t' : State), s.Inv → s'.Inv → SameContents s s' →
    exec i s = .next t → exec i s' = .next t' →
    t.lastErr ≠ 3 → t.lastErr ≠ 10 → t'.lastErr ≠ 3 → t'.lastErr ≠ 10 → SameContents t t'

/-! ## Buffer access -/

/-- 41_buffer_access.md R120: the slot becomes the empty buffer, of one zero word, with used = 0 and pad = 0; STATUS
apart, nothing else changes. -/
def Obligations.ClearEmptiesTheSlot : Prop :=
  ∀ (s : State) (d : Nat), s.Inv → d < s.cfg.nbuf →
    ∃ t, exec (.clear d) s = .next t ∧ WritesOnly s t d ∧
      ∃ b, t.slots[d]? = some b ∧ b.words.head? = some 0 ∧ b.numWords = 1 ∧ b.used = 0 ∧ b.pad = 0

/-- 41_buffer_access.md R121: one bit at the insertion point, or FULL (10) at CAP. -/
def Obligations.AddbitAppendsOneBit : Prop :=
  ∀ (s : State) (d : Nat) (bit : Bool), s.Inv → d < s.cfg.nbuf →
    (s.numBitsOf d < s.cfg.cap →
      ∃ t, exec (.addbit d bit) s = .next t ∧ Appended s t d 1 bit.toNat ∧ t.padOf d = s.padOf d) ∧
    (s.numBitsOf d = s.cfg.cap → Fails (.addbit d bit) s 10 0)

/-- 41_buffer_access.md R123, R124: `width` bits of ARG at the insertion point; WIDTH (3) above W, then VALUE (4) for
a bit of ARG at or above the width, then FULL (10). ARG is the latched one, or the register if no command is in flight
(log 16); widths of 256 and above are this model's (log 18). -/
def Obligations.AddbitsAppendsTheValue : Prop :=
  ∀ (s : State) (d width : Nat), s.Inv → d < s.cfg.nbuf →
    (width ≤ s.cfg.wordWidth → s.operandArg.toNat < 2 ^ width → s.numBitsOf d + width ≤ s.cfg.cap →
      ∃ t, exec (.addbits d width) s = .next t ∧ Appended s t d width s.operandArg.toNat ∧
        t.padOf d = s.padOf d) ∧
    (s.cfg.wordWidth < width → Fails (.addbits d width) s 3 0) ∧
    (width ≤ s.cfg.wordWidth → 2 ^ width ≤ s.operandArg.toNat → Fails (.addbits d width) s 4 0) ∧
    (width ≤ s.cfg.wordWidth → s.operandArg.toNat < 2 ^ width → s.cfg.cap < s.numBitsOf d + width →
      Fails (.addbits d width) s 10 0)

/-- 41_buffer_access.md R125: the field of `width` bits from bit IDX; WIDTH (3) above W, then RANGE (6). IDX is the
latched one, or the register if no command is in flight (log 16); widths of 256 and above are this model's (log 18). -/
def Obligations.GetbitsReadsTheField : Prop :=
  ∀ (s : State) (d width : Nat), s.Inv → d < s.cfg.nbuf →
    (width ≤ s.cfg.wordWidth → s.operandIdx < s.numBitsOf d → s.operandIdx + width ≤ s.numBitsOf d →
      Returns (.getbits d width) s (s.fieldOf d s.operandIdx width)) ∧
    (s.cfg.wordWidth < width → Fails (.getbits d width) s 3 0) ∧
    (width ≤ s.cfg.wordWidth → (s.numBitsOf d ≤ s.operandIdx ∨ s.numBitsOf d < s.operandIdx + width) →
      Fails (.getbits d width) s 6 0)

/-- 41_buffer_access.md R126 with 20_memory.md R56: byte IDX, counted from the top of the sequence; RANGE (6) at
numBytes and above. IDX is the latched one, or the register if no command is in flight (log 16). -/
def Obligations.GetbyteReadsTheByte : Prop :=
  ∀ (s : State) (d : Nat), s.Inv → d < s.cfg.nbuf →
    (s.operandIdx < s.numBitsOf d / 8 →
      Returns (.getbyte d) s (s.fieldOf d (s.numBitsOf d - 8 * (s.operandIdx + 1)) 8)) ∧
    (s.numBitsOf d / 8 ≤ s.operandIdx → Fails (.getbyte d) s 6 0)

/-- 41_buffer_access.md R127 with 20_memory.md R56: byte IDX becomes the operand byte and no other bit of the slot
changes, nor n nor pad; RANGE (6) at numBytes and above. IDX is the latched one, or the register if no command is in
flight (log 16). -/
def Obligations.SetbyteWritesTheByte : Prop :=
  ∀ (s : State) (d : Nat) (byte : Byte), s.Inv → d < s.cfg.nbuf →
    (s.operandIdx < s.numBitsOf d / 8 →
      ∃ t, exec (.setbyte d byte) s = .next t ∧ WritesOnly s t d ∧ t.numBitsOf d = s.numBitsOf d ∧
        t.padOf d = s.padOf d ∧
        (∀ j < 8, t.bitAt d (s.numBitsOf d - 8 * (s.operandIdx + 1) + j) = byte.getLsbD j) ∧
        (∀ p < s.numBitsOf d,
          (p < s.numBitsOf d - 8 * (s.operandIdx + 1) ∨ s.numBitsOf d - 8 * s.operandIdx ≤ p) →
          t.bitAt d p = s.bitAt d p)) ∧
    (s.numBitsOf d / 8 ≤ s.operandIdx → Fails (.setbyte d byte) s 6 0)

/-- 41_buffer_access.md R128, R129, R130 and 42_format_codecs.md R172: n, n div 8, pad, and n again as the length
of the binary rendering; n is at most CAP. -/
def Obligations.CountsAreReturned : Prop :=
  ∀ (s : State) (d : Nat), s.Inv → d < s.cfg.nbuf →
    Returns (.numbits d) s (s.numBitsOf d) ∧ Returns (.numbytes d) s (s.numBitsOf d / 8) ∧
    Returns (.padbits d) s (s.padOf d) ∧ Returns (.enclenBin d) s (s.numBitsOf d) ∧
    s.numBitsOf d = s.cfg.wordWidth * ((s.slotAt d).numWords - 1) + (s.slotAt d).used ∧
    s.numBitsOf d ≤ s.cfg.cap

/-! ## Decoders -/

/-- 42_format_codecs.md R161: `0` and `1` append their bit; every other character is CHAR (5), before FULL (10). -/
def Obligations.DecBinAppendsOneBit : Prop :=
  ∀ (s : State) (d : Nat) (c : Byte), s.Inv → d < s.cfg.nbuf →
    ((c = 0x30 ∨ c = 0x31) → s.numBitsOf d + 1 ≤ s.cfg.cap →
      ∃ t, exec (.decBin d c) s = .next t ∧ Appended s t d 1 (if c = 0x31 then 1 else 0) ∧
        t.padOf d = s.padOf d) ∧
    (c ≠ 0x30 → c ≠ 0x31 → Fails (.decBin d c) s 5 c) ∧
    ((c = 0x30 ∨ c = 0x31) → s.cfg.cap < s.numBitsOf d + 1 → Fails (.decBin d c) s 10 0)

/-- 42_format_codecs.md R162: a character of the hex alphabet of 40_char_codecs.md R100 appends the 4 bits of its
place in it; every other character is CHAR (5), before FULL (10). -/
def Obligations.DecHexAppendsTheNibble : Prop :=
  ∀ (s : State) (d : Nat) (c : Byte), s.Inv → d < s.cfg.nbuf →
    (∀ v < 16, c.toNat = hexAlphabet.getD v 0 → s.numBitsOf d + 4 ≤ s.cfg.cap →
      ∃ t, exec (.decHex d c) s = .next t ∧ Appended s t d 4 v ∧ t.padOf d = s.padOf d) ∧
    (c.toNat ∉ hexAlphabet → Fails (.decHex d c) s 5 c) ∧
    (c.toNat ∈ hexAlphabet → s.cfg.cap < s.numBitsOf d + 4 → Fails (.decHex d c) s 10 0)

/-- 42_format_codecs.md R163: line feed and carriage return change nothing; `=` appends 6 zero bits and adds 8 to
pad; a character of the base64 alphabet of 40_char_codecs.md R101 appends the 6 bits of its place in it; every
other character is CHAR (5); FULL (10) changes neither the slot nor pad. -/
def Obligations.DecB64AppendsTheGroup : Prop :=
  ∀ (s : State) (d : Nat) (c : Byte), s.Inv → d < s.cfg.nbuf →
    ((c = 0x0A ∨ c = 0x0D) →
      ∃ t, exec (.decB64 d c) s = .next t ∧ EndsOk s t ∧ t.slots = s.slots ∧ t.result = s.result) ∧
    (c = 0x3D → s.numBitsOf d + 6 ≤ s.cfg.cap →
      ∃ t, exec (.decB64 d c) s = .next t ∧ Appended s t d 6 0 ∧ t.padOf d = s.padOf d + 8) ∧
    (∀ v < 64, c.toNat = b64Alphabet.getD v 0 → s.numBitsOf d + 6 ≤ s.cfg.cap →
      ∃ t, exec (.decB64 d c) s = .next t ∧ Appended s t d 6 v ∧ t.padOf d = s.padOf d) ∧
    (c ≠ 0x0A → c ≠ 0x0D → c ≠ 0x3D → c.toNat ∉ b64Alphabet → Fails (.decB64 d c) s 5 c) ∧
    ((c = 0x3D ∨ c.toNat ∈ b64Alphabet) → s.cfg.cap < s.numBitsOf d + 6 → Fails (.decB64 d c) s 10 0)

/-- 42_format_codecs.md R164: every character appends its 8 bits; only FULL (10) can fail it. -/
def Obligations.DecAscAppendsTheByte : Prop :=
  ∀ (s : State) (d : Nat) (c : Byte), s.Inv → d < s.cfg.nbuf →
    (s.numBitsOf d + 8 ≤ s.cfg.cap →
      ∃ t, exec (.decAsc d c) s = .next t ∧ Appended s t d 8 c.toNat ∧ t.padOf d = s.padOf d) ∧
    (s.cfg.cap < s.numBitsOf d + 8 → Fails (.decAsc d c) s 10 0)

/-! ## Encoders -/

/-- 42_format_codecs.md R170, R171, R174, R176, R178: the lengths of the hex, base64 and ASCII renderings; hex and
ASCII leave out min(pad, n) bits; GROUP (9) for a region that is not whole characters. -/
def Obligations.RenderingLengthsAreReturned : Prop :=
  ∀ (s : State) (d m : Nat), s.Inv → d < s.cfg.nbuf → m = s.numBitsOf d - min (s.padOf d) (s.numBitsOf d) →
    (m % 4 = 0 → Returns (.enclenHex d) s (m / 4)) ∧ (m % 4 ≠ 0 → Fails (.enclenHex d) s 9 0) ∧
    (m % 8 = 0 → Returns (.enclenAsc d) s (m / 8)) ∧ (m % 8 ≠ 0 → Fails (.enclenAsc d) s 9 0) ∧
    (s.numBitsOf d % 6 = 0 → Returns (.enclenB64 d) s (s.numBitsOf d / 6)) ∧
    (s.numBitsOf d % 6 ≠ 0 → Fails (.enclenB64 d) s 9 0)

/-- 42_format_codecs.md R173: character IDX of the binary rendering; RANGE (6) at n and above. IDX is the latched one,
or the register if no command is in flight (log 16). -/
def Obligations.EncBinReturnsTheCharacter : Prop :=
  ∀ (s : State) (d : Nat), s.Inv → d < s.cfg.nbuf →
    (s.operandIdx < s.numBitsOf d →
      Returns (.encBin d) s (if s.bitAt d (s.numBitsOf d - 1 - s.operandIdx) then 0x31 else 0x30)) ∧
    (s.numBitsOf d ≤ s.operandIdx → Fails (.encBin d) s 6 0)

/-- 42_format_codecs.md R175: character IDX of the hex rendering, from the alphabet of 40_char_codecs.md R100; GROUP
(9), then RANGE (6). IDX is the latched one, or the register if no command is in flight (log 16). -/
def Obligations.EncHexReturnsTheCharacter : Prop :=
  ∀ (s : State) (d m : Nat), s.Inv → d < s.cfg.nbuf → m = s.numBitsOf d - min (s.padOf d) (s.numBitsOf d) →
    (m % 4 = 0 → s.operandIdx < m / 4 →
      Returns (.encHex d) s
        (hexAlphabet.getD (s.fieldOf d (s.numBitsOf d - 4 * (s.operandIdx + 1)) 4) 0)) ∧
    (m % 4 ≠ 0 → Fails (.encHex d) s 9 0) ∧
    (m % 4 = 0 → m / 4 ≤ s.operandIdx → Fails (.encHex d) s 6 0)

/-- 42_format_codecs.md R177: character IDX of the base64 rendering: `=` (0x3D) when the whole group lies below
position pad, else from the alphabet of 40_char_codecs.md R101; GROUP (9), then RANGE (6). IDX is the latched one, or
the register if no command is in flight (log 16). -/
def Obligations.EncB64ReturnsTheCharacter : Prop :=
  ∀ (s : State) (d : Nat), s.Inv → d < s.cfg.nbuf →
    (s.numBitsOf d % 6 = 0 → s.operandIdx < s.numBitsOf d / 6 →
      Returns (.encB64 d) s
        (if s.numBitsOf d - 6 * s.operandIdx - 1 < s.padOf d then 0x3D
         else b64Alphabet.getD (s.fieldOf d (s.numBitsOf d - 6 * (s.operandIdx + 1)) 6) 0)) ∧
    (s.numBitsOf d % 6 ≠ 0 → Fails (.encB64 d) s 9 0) ∧
    (s.numBitsOf d % 6 = 0 → s.numBitsOf d / 6 ≤ s.operandIdx → Fails (.encB64 d) s 6 0)

/-- 42_format_codecs.md R179: character IDX of the ASCII rendering; GROUP (9), then RANGE (6). IDX is the latched one,
or the register if no command is in flight (log 16). -/
def Obligations.EncAscReturnsTheCharacter : Prop :=
  ∀ (s : State) (d m : Nat), s.Inv → d < s.cfg.nbuf → m = s.numBitsOf d - min (s.padOf d) (s.numBitsOf d) →
    (m % 8 = 0 → s.operandIdx < m / 8 →
      Returns (.encAsc d) s (s.fieldOf d (s.numBitsOf d - 8 * (s.operandIdx + 1)) 8)) ∧
    (m % 8 ≠ 0 → Fails (.encAsc d) s 9 0) ∧
    (m % 8 = 0 → m / 8 ≤ s.operandIdx → Fails (.encAsc d) s 6 0)

/-! ## XOR -/

/-- 43_xor.md R200: bit by bit from the slots as they were, with the length and pad of the first source; SIZE (7)
if the bit counts differ. The three slots may coincide. -/
def Obligations.XorCombinesTheSlots : Prop :=
  ∀ (s : State) (d a b : Nat), s.Inv → d < s.cfg.nbuf → a < s.cfg.nbuf → b < s.cfg.nbuf →
    (s.numBitsOf a = s.numBitsOf b →
      ∃ t, exec (.xor d a b) s = .next t ∧ WritesOnly s t d ∧ t.numBitsOf d = s.numBitsOf a ∧
        (t.slotAt d).used = (s.slotAt a).used ∧ t.padOf d = s.padOf a ∧
        ∀ p < s.numBitsOf a, t.bitAt d p = (s.bitAt a p ^^ s.bitAt b p)) ∧
    (s.numBitsOf a ≠ s.numBitsOf b → Fails (.xor d a b) s 7 0)

/-- 43_xor.md R201: byte k of the target is XORed with byte k mod K of the key, both as they were and both counted
from the top; the trailing n mod 8 bits, n and pad stay; EMPTYKEY (8) if the key has no whole byte. -/
def Obligations.RkxorAppliesTheKey : Prop :=
  ∀ (s : State) (d a : Nat), s.Inv → d < s.cfg.nbuf → a < s.cfg.nbuf →
    (8 ≤ s.numBitsOf a →
      ∃ t, exec (.rkxor d a) s = .next t ∧ WritesOnly s t d ∧ t.numBitsOf d = s.numBitsOf d ∧
        t.padOf d = s.padOf d ∧
        (∀ k < s.numBitsOf d / 8, ∀ j < 8,
          t.bitAt d (s.numBitsOf d - 8 * (k + 1) + j) =
            (s.bitAt d (s.numBitsOf d - 8 * (k + 1) + j) ^^
              s.bitAt a (s.numBitsOf a - 8 * (k % (s.numBitsOf a / 8) + 1) + j))) ∧
        (∀ p < s.numBitsOf d % 8, t.bitAt d p = s.bitAt d p)) ∧
    (s.numBitsOf a < 8 → Fails (.rkxor d a) s 8 0)

/-- 43_xor.md R202: XOR with b twice restores the first source, used count and pad included (as a slot, whole);
RKXOR twice with the same key slot, which is not the target, restores the target. -/
def Obligations.XorCommandsAreSelfInverse : Prop :=
  (∀ (s t u : State) (d a b : Nat), s.Inv → d < s.cfg.nbuf → a < s.cfg.nbuf → b < s.cfg.nbuf → d ≠ b →
    s.numBitsOf a = s.numBitsOf b → exec (.xor d a b) s = .next t → exec (.xor d d b) t = .next u →
    u.slotAt d = s.slotAt a ∧ u.lastErr = 0) ∧
  (∀ (s t u : State) (d a : Nat), s.Inv → d < s.cfg.nbuf → a < s.cfg.nbuf → d ≠ a → 8 ≤ s.numBitsOf a →
    exec (.rkxor d a) s = .next t → exec (.rkxor d a) t = .next u → u.slots = s.slots ∧ u.lastErr = 0)

/-! ## Char codecs -/

/-- 40_char_codecs.md R102, R103: C2V_HEX answers the place of a character in the hex alphabet of R100, or CHAR (5);
V2C_HEX the character at a place, or VALUE (4). Values of 256 and above, which no word spells, are this model's (log
18). -/
def Obligations.HexCharCodec : Prop :=
  ∀ (s : State) (c : Byte) (n : Nat),
    (∀ v < 16, c.toNat = hexAlphabet.getD v 0 → Returns (.c2vHex c) s v) ∧
    (c.toNat ∉ hexAlphabet → Fails (.c2vHex c) s 5 c) ∧
    (n ≤ 15 → Returns (.v2cHex n) s (hexAlphabet.getD n 0)) ∧
    (15 < n → Fails (.v2cHex n) s 4 0)

/-- 40_char_codecs.md R104, R105: C2V_B64 answers the place of a character in the base64 alphabet of R101, or CHAR
(5), so for `=`, line feed and carriage return too; V2C_B64 the character at a place, or VALUE (4). Values of 256 and
above, which no word spells, are this model's (log 18). -/
def Obligations.Base64CharCodec : Prop :=
  ∀ (s : State) (c : Byte) (n : Nat),
    (∀ v < 64, c.toNat = b64Alphabet.getD v 0 → Returns (.c2vB64 c) s v) ∧
    (c.toNat ∉ b64Alphabet → Fails (.c2vB64 c) s 5 c) ∧
    (n ≤ 63 → Returns (.v2cB64 n) s (b64Alphabet.getD n 0)) ∧
    (63 < n → Fails (.v2cB64 n) s 4 0)

/-- 40_char_codecs.md R106: hexval and hexchar, b64val and b64char, are inverse to each other, so that C2V after
V2C gives the value back. -/
def Obligations.CharTablesRoundTrip : Prop :=
  (∀ n < 16, hexValue (hexChar n) = some n) ∧ (∀ (c : Byte) (n : Nat), hexValue c = some n → hexChar n = c) ∧
  (∀ n < 64, b64Value (b64Char n) = some n) ∧ (∀ (c : Byte) (n : Nat), b64Value c = some n → b64Char n = c) ∧
  (∀ (s : State) (n : Nat), n < 16 →
    ∃ t, exec (.v2cHex n) s = .next t ∧ Returns (.c2vHex (t.result.setWidth 8)) t n) ∧
  (∀ (s : State) (n : Nat), n < 64 →
    ∃ t, exec (.v2cB64 n) s = .next t ∧ Returns (.c2vB64 (t.result.setWidth 8)) t n)

/-! ## Whole strings -/

/-- 42_format_codecs.md R181, R165, R180, binary: a string of `0` and `1` that fits is given back. The host's macros
are modelled outside the engine (log 15). -/
def Obligations.BinaryStringsRoundTrip : Prop :=
  ∀ (s : State) (d : Nat) (text : List Byte), s.Inv → d < s.cfg.nbuf → (∀ c ∈ text, c = 0x30 ∨ c = 0x31) →
    text.length ≤ s.cfg.cap →
    ∃ t u, runTransactions (fromText .decBin d text) s = .next t ∧ t.lastErr = 0 ∧
      t.numBitsOf d = text.length ∧ toText .enclenBin .encBin d t = .next (.text text u)

/-- 42_format_codecs.md R181, R165, R180, hex: a string over the hex alphabet, of any length that fits, is given back.
The host's macros are modelled outside the engine (log 15). -/
def Obligations.HexStringsRoundTrip : Prop :=
  ∀ (s : State) (d : Nat) (text : List Byte), s.Inv → d < s.cfg.nbuf → (∀ c ∈ text, c.toNat ∈ hexAlphabet) →
    4 * text.length ≤ s.cfg.cap →
    ∃ t u, runTransactions (fromText .decHex d text) s = .next t ∧ t.lastErr = 0 ∧
      t.numBitsOf d = 4 * text.length ∧ toText .enclenHex .encHex d t = .next (.text text u)

/-- 42_format_codecs.md R181, R165, R180, ASCII: every byte string that fits is given back. The host's macros are
modelled outside the engine (log 15). -/
def Obligations.AsciiStringsRoundTrip : Prop :=
  ∀ (s : State) (d : Nat) (text : List Byte), s.Inv → d < s.cfg.nbuf → 8 * text.length ≤ s.cfg.cap →
    ∃ t u, runTransactions (fromText .decAsc d text) s = .next t ∧ t.lastErr = 0 ∧
      t.numBitsOf d = 8 * text.length ∧ toText .enclenAsc .encAsc d t = .next (.text text u)

/-- 42_format_codecs.md R181, R165, R180, base64: a string over the base64 alphabet followed by at most two `=`, that
fits, is given back, padding and all; its padding count is 8 for each `=`. The host's macros are modelled outside the
engine (log 15). -/
def Obligations.Base64StringsRoundTrip : Prop :=
  ∀ (s : State) (d e : Nat) (body : List Byte), s.Inv → d < s.cfg.nbuf → (∀ c ∈ body, c.toNat ∈ b64Alphabet) →
    e ≤ 2 → 6 * (body.length + e) ≤ s.cfg.cap →
    ∃ t u, runTransactions (fromText .decB64 d (body ++ List.replicate e 0x3D)) s = .next t ∧ t.lastErr = 0 ∧
      t.numBitsOf d = 6 * (body.length + e) ∧ t.padOf d = 8 * e ∧
      toText .enclenB64 .encB64 d t = .next (.text (body ++ List.replicate e 0x3D) u)

/-- 42_format_codecs.md R180: TO_x of each format. If ENCLEN_x fails, the string encode fails with its error code, in
the state it leaves; else the text has the length it answers, character k is what ENC_x answers at IDX = k, no slot and
not STICKY changes, and LAST_ERR ends as 0. The host's macros are modelled outside the engine (log 15). -/
def Obligations.EncodeMacrosReadEveryCharacter : Prop :=
  ∀ (s t : State) (d : Nat), s.Inv → s.latch = none →
    ∀ f ∈ [(Instr.enclenBin, Instr.encBin), (Instr.enclenHex, Instr.encHex), (Instr.enclenB64, Instr.encB64),
        (Instr.enclenAsc, Instr.encAsc)],
      exec (f.1 d) s = .next t →
      (t.lastErr ≠ 0 → toText f.1 f.2 d s = .next (.failed t.lastErr t)) ∧
      (t.lastErr = 0 →
        ∃ text u, toText f.1 f.2 d s = .next (.text text u) ∧ text.length = t.result.toNat ∧ u.slots = s.slots ∧
          u.lastErr = 0 ∧ u.sticky = s.sticky ∧
          ∀ k c, text[k]? = some c → Returns (f.2 d) { s with idx := BitVec.ofNat 32 k } c.toNat)

/-- 42_format_codecs.md R180 with R171: a string encode of a region that is not whole characters fails with GROUP (9),
in a state in which ENCLEN_x has failed so and nothing else has changed; TO_BIN never does. The host's macros are
modelled outside the engine (log 15). -/
def Obligations.EncodeMacrosFailWithGroup : Prop :=
  ∀ (s : State) (d m : Nat), s.Inv → d < s.cfg.nbuf → m = s.numBitsOf d - min (s.padOf d) (s.numBitsOf d) →
    (m % 4 ≠ 0 → ∃ t, toText .enclenHex .encHex d s = .next (.failed 9 t) ∧ FailsWith s t 9 0) ∧
    (m % 8 ≠ 0 → ∃ t, toText .enclenAsc .encAsc d s = .next (.failed 9 t) ∧ FailsWith s t 9 0) ∧
    (s.numBitsOf d % 6 ≠ 0 → ∃ t, toText .enclenB64 .encB64 d s = .next (.failed 9 t) ∧ FailsWith s t 9 0) ∧
    (∃ text u, toText .enclenBin .encBin d s = .next (.text text u))

/-- 42_format_codecs.md R182: a buffer with pad = 0 and n a multiple of 24 has all four renderings, and decoding each
of them into any slot rebuilds the buffer. The host's macros are modelled outside the engine (log 15). -/
def Obligations.RenderingsDecodeToTheSameBuffer : Prop :=
  ∀ (s : State) (d e : Nat), s.Inv → s.latch = none → d < s.cfg.nbuf → e < s.cfg.nbuf → s.padOf d = 0 →
    s.numBitsOf d % 24 = 0 →
    ∀ f ∈ [(Instr.decBin, Instr.enclenBin, Instr.encBin), (Instr.decHex, Instr.enclenHex, Instr.encHex),
        (Instr.decB64, Instr.enclenB64, Instr.encB64), (Instr.decAsc, Instr.enclenAsc, Instr.encAsc)],
      ∃ text u v, toText f.2.1 f.2.2 d s = .next (.text text u) ∧ runTransactions (fromText f.1 e text) u = .next v ∧
        v.lastErr = 0 ∧ v.slotAt e = s.slotAt d
end

