-- ==== Sys2Proof/Laws/Bits.lean ====
section
/-! SUPPORT. The bit-level laws of the storage words: what a multi-bit read returns and what a multi-bit write
changes (20_memory.md R52, R53). -/

namespace Sys2Proof.Machine

/-! ### Values of bit groups -/

theorem bitsValue_eq_sum (f : Nat → Bool) (w : Nat) :
    bitsValue f w = ∑ j ∈ Finset.range w, (f j).toNat * 2 ^ j := by
  induction w with
  | zero => simp [bitsValue]
  | succ w ih => rw [bitsValue, ih, Finset.sum_range_succ]

theorem bitsValue_lt (f : Nat → Bool) (w : Nat) : bitsValue f w < 2 ^ w := by
  induction w with
  | zero => simp [bitsValue]
  | succ w ih =>
    have hb : (f w).toNat * 2 ^ w ≤ 1 * 2 ^ w := Nat.mul_le_mul_right _ (Bool.toNat_le _)
    simp only [bitsValue, Nat.pow_succ]
    omega

theorem bitsValue_testBit (f : Nat → Bool) (w j : Nat) :
    (bitsValue f w).testBit j = (decide (j < w) && f j) := by
  induction w with
  | zero => simp [bitsValue]
  | succ w ih =>
    have hlt := bitsValue_lt f w
    rw [bitsValue, Nat.add_comm, Nat.mul_comm, Nat.testBit_two_pow_mul_add _ hlt]
    by_cases h : j < w
    · simp [h, ih, Nat.lt_succ_of_lt h]
    · rw [if_neg h]
      by_cases h' : j = w
      · subst h'
        cases f j <;> simp
      · have h1 : ¬ j < w + 1 := by omega
        obtain ⟨k, hk⟩ : ∃ k, j - w = k + 1 := ⟨j - w - 1, by omega⟩
        cases f w <;> simp [h1, hk, Nat.testBit_succ]

/-- A bit group's value is determined by its bits. -/
theorem bitsValue_congr (f g : Nat → Bool) (w : Nat) (h : ∀ j < w, f j = g j) :
    bitsValue f w = bitsValue g w := by
  induction w with
  | zero => rfl
  | succ w ih =>
    rw [bitsValue, bitsValue, ih (fun j hj => h j (by omega)), h w (by omega)]

/-- A value below 2^w is the value of its w bits. -/
theorem bitsValue_of_testBit (f : Nat → Bool) (w v : Nat) (hv : v < 2 ^ w) (h : ∀ j < w, f j = v.testBit j) :
    bitsValue f w = v := by
  apply Nat.eq_of_testBit_eq
  intro j
  rw [bitsValue_testBit]
  by_cases hj : j < w
  · simp [hj, h j hj]
  · have : v.testBit j = false :=
      Nat.testBit_lt_two_pow (lt_of_lt_of_le hv (Nat.pow_le_pow_right (by omega) (by omega)))
    simp [hj, this]

theorem Slot.bitRead_eq_sumOfBits (W : Nat) (b : Slot) (i w : Nat) : b.bitRead W i w = b.sumOfBits W i w := by
  simp [Slot.bitRead, Slot.sumOfBits, bitsValue_eq_sum]

theorem Slot.bitRead_lt (W : Nat) (b : Slot) (i w : Nat) : b.bitRead W i w < 2 ^ w := bitsValue_lt _ _

theorem Slot.bitRead_testBit (W : Nat) (b : Slot) (i w j : Nat) :
    (b.bitRead W i w).testBit j = (decide (j < w) && b.bit W (i + j)) := bitsValue_testBit _ _ _

/-! ### One word -/

theorem getLsbD_setWordBit (x : Word) (k i : Nat) (v : Bool) (hk : k < 64) :
    (setWordBit x k v).getLsbD i = if i = k then v else x.getLsbD i := by
  unfold setWordBit
  by_cases hi : i = k
  · subst hi
    cases v <;> simp [hk]
  · have hne : ¬ k = i := fun h => hi h.symm
    by_cases h64 : i < 64
    · cases v <;> simp [hi, h64]
    · have : x.getLsbD i = false := BitVec.getLsbD_of_ge x i (by omega)
      cases v <;> simp [hi, hne, h64, this]

/-- A word is below 2^W exactly if no bit at W or above is set. -/
theorem word_lt_iff (x : Word) (W : Nat) : x.toNat < 2 ^ W ↔ ∀ i, W ≤ i → x.getLsbD i = false := by
  constructor
  · intro h i hi
    exact Nat.testBit_lt_two_pow (lt_of_lt_of_le h (Nat.pow_le_pow_right (by omega) hi))
  · intro h
    exact Nat.lt_pow_two_of_testBit _ h

theorem setWordBit_lt (x : Word) (W k : Nat) (v : Bool) (hW : W ≤ 64) (hk : k < W) (hx : x.toNat < 2 ^ W) :
    (setWordBit x k v).toNat < 2 ^ W := by
  rw [word_lt_iff] at hx ⊢
  intro i hi
  rw [getLsbD_setWordBit x k i v (by omega), if_neg (by omega)]
  exact hx i hi

/-! ### The words of a slot -/

/-- The storage bit at position p of a list of words (20_memory.md R50). -/
def wordsBit (W : Nat) (words : List Word) (p : Nat) : Bool := (words.getD (p / W) 0).getLsbD (p % W)

theorem Slot.bit_eq_wordsBit (W : Nat) (b : Slot) (p : Nat) : b.bit W p = wordsBit W b.words p := rfl

@[simp] theorem length_writeBit (W : Nat) (words : List Word) (p : Nat) (v : Bool) :
    (writeBit W words p v).length = words.length := by
  simp [writeBit]

@[simp] theorem length_writeBits (W : Nat) (words : List Word) (i w v : Nat) :
    (writeBits W words i w v).length = words.length := by
  induction w with
  | zero => rfl
  | succ w ih => simp [writeBits, ih]

theorem wordsBit_writeBit (W : Nat) (words : List Word) (p q : Nat) (v : Bool) (hW : 0 < W) (hW' : W ≤ 64)
    (hp : p < W * words.length) :
    wordsBit W (writeBit W words p v) q = if q = p then v else wordsBit W words q := by
  have hlen : p / W < words.length := Nat.div_lt_of_lt_mul hp
  have hpm : p % W < W := Nat.mod_lt _ hW
  simp only [wordsBit, writeBit, List.getD_eq_getElem?_getD, List.getElem?_modify]
  by_cases hd : p / W = q / W
  · simp only [if_pos hd]
    rw [← hd, List.getElem?_eq_getElem hlen]
    simp only [Option.map_eq_map, Option.map_some, Option.getD_some]
    rw [getLsbD_setWordBit _ _ _ _ (by omega)]
    by_cases hqp : q = p
    · simp [hqp]
    · have hm : q % W ≠ p % W := by
        intro hm
        apply hqp
        rw [← Nat.div_add_mod q W, ← Nat.div_add_mod p W, hd, hm]
      simp [hqp, hm]
  · have hqp : q ≠ p := fun h => hd (by rw [h])
    simp [hd, hqp]

theorem wordsBit_writeBits (W : Nat) (words : List Word) (i w v q : Nat) (hW : 0 < W) (hW' : W ≤ 64)
    (h : i + w ≤ W * words.length) :
    wordsBit W (writeBits W words i w v) q =
      if i ≤ q ∧ q < i + w then v.testBit (q - i) else wordsBit W words q := by
  induction w with
  | zero =>
    rw [if_neg (by omega)]
    rfl
  | succ w ih =>
    rw [writeBits, wordsBit_writeBit W _ _ _ _ hW hW' (by rw [length_writeBits]; omega), ih (by omega)]
    by_cases hq : q = i + w
    · rw [if_pos hq, if_pos (by omega), hq, Nat.add_sub_cancel_left]
    · rw [if_neg hq]
      by_cases hin : i ≤ q ∧ q < i + w
      · rw [if_pos hin, if_pos (by omega)]
      · rw [if_neg hin, if_neg (by omega)]

theorem writeBit_lt (W : Nat) (words : List Word) (p : Nat) (v : Bool) (hW : 0 < W) (hW' : W ≤ 64)
    (h : ∀ x ∈ words, x.toNat < 2 ^ W) : ∀ x ∈ writeBit W words p v, x.toNat < 2 ^ W := by
  intro x hx
  obtain ⟨k, hk, rfl⟩ := List.mem_iff_getElem.mp hx
  rw [length_writeBit] at hk
  simp only [writeBit, List.getElem_modify]
  split
  · exact setWordBit_lt _ _ _ _ hW' (Nat.mod_lt _ hW) (h _ (List.getElem_mem _))
  · exact h _ (List.getElem_mem _)

theorem writeBits_lt (W : Nat) (words : List Word) (i w v : Nat) (hW : 0 < W) (hW' : W ≤ 64)
    (h : ∀ x ∈ words, x.toNat < 2 ^ W) : ∀ x ∈ writeBits W words i w v, x.toNat < 2 ^ W := by
  induction w with
  | zero => exact h
  | succ w ih => exact writeBit_lt W _ _ _ hW hW' ih

/-! ### Words that become part of the buffer -/

@[simp] theorem length_growTo (words : List Word) (k : Nat) : (growTo words k).length = max words.length k := by
  simp only [growTo, List.length_append, List.length_replicate]
  omega

theorem wordsBit_growTo (W : Nat) (words : List Word) (k p : Nat) :
    wordsBit W (growTo words k) p = wordsBit W words p := by
  simp only [wordsBit, growTo, List.getD_eq_getElem?_getD, List.getElem?_append, List.getElem?_replicate]
  by_cases h : p / W < words.length
  · simp [h]
  · have hnone : words[p / W]? = none := by simpa using h
    rw [if_neg h, hnone]
    split <;> simp

theorem growTo_lt (W : Nat) (words : List Word) (k : Nat) (h : ∀ x ∈ words, x.toNat < 2 ^ W) :
    ∀ x ∈ growTo words k, x.toNat < 2 ^ W := by
  intro x hx
  rcases List.mem_append.mp hx with hx | hx
  · exact h x hx
  · rw [(List.mem_replicate.mp hx).2]
    simp

/-- Lists of words of W bits with the same storage bits are equal. -/
theorem words_ext (W : Nat) (xs ys : List Word) (hW : 0 < W) (hlen : xs.length = ys.length)
    (hx : ∀ x ∈ xs, x.toNat < 2 ^ W) (hy : ∀ y ∈ ys, y.toNat < 2 ^ W)
    (h : ∀ p < W * xs.length, wordsBit W xs p = wordsBit W ys p) : xs = ys := by
  apply List.ext_getElem hlen
  intro k hk hk'
  apply BitVec.eq_of_getLsbD_eq
  intro i _
  by_cases hi : i < W
  · have hkW : W * k + i < W * xs.length := by
      calc W * k + i < W * k + W := by omega
        _ = W * (k + 1) := by ring
        _ ≤ W * xs.length := Nat.mul_le_mul_left _ hk
    have hd : (W * k + i) / W = k := by
      rw [Nat.mul_add_div hW, Nat.div_eq_of_lt hi, Nat.add_zero]
    have hm : (W * k + i) % W = i := by
      rw [Nat.mul_add_mod, Nat.mod_eq_of_lt hi]
    have := h _ hkW
    simpa [wordsBit, hd, hm, List.getD_eq_getElem?_getD, hk, hk'] using this
  · rw [(word_lt_iff _ W).mp (hx _ (List.getElem_mem hk)) i (by omega),
      (word_lt_iff _ W).mp (hy _ (List.getElem_mem hk')) i (by omega)]

end Sys2Proof.Machine
end

