-- ==== Sys2Proof/Laws/State.lean ====
section
/-! SUPPORT. One lemma per field per update of State, true by rfl, so that no proof unfolds a record update. -/

namespace Sys2Proof.Machine

/-! ### `State.raise` (60_exceptions.md R221) -/

@[simp] theorem State.raise_cfg (s : State) (e : CmdError) : (s.raise e).cfg = s.cfg := rfl
@[simp] theorem State.raise_slots (s : State) (e : CmdError) : (s.raise e).slots = s.slots := rfl
@[simp] theorem State.raise_arg (s : State) (e : CmdError) : (s.raise e).arg = s.arg := rfl
@[simp] theorem State.raise_idx (s : State) (e : CmdError) : (s.raise e).idx = s.idx := rfl
@[simp] theorem State.raise_result (s : State) (e : CmdError) : (s.raise e).result = s.result := rfl
@[simp] theorem State.raise_sticky (s : State) (e : CmdError) : (s.raise e).sticky = true := rfl
@[simp] theorem State.raise_overrun (s : State) (e : CmdError) : (s.raise e).overrun = s.overrun := rfl
@[simp] theorem State.raise_lastErr (s : State) (e : CmdError) : (s.raise e).lastErr = e.code := rfl
@[simp] theorem State.raise_errChar (s : State) (e : CmdError) : (s.raise e).errChar = e.info := rfl
@[simp] theorem State.raise_latch (s : State) (e : CmdError) : (s.raise e).latch = none := rfl
@[simp] theorem State.raise_wait (s : State) (e : CmdError) : (s.raise e).wait = 0 := rfl
@[simp] theorem State.raise_draws (s : State) (e : CmdError) : (s.raise e).draws = s.draws := rfl
@[simp] theorem State.raise_inputs (s : State) (e : CmdError) : (s.raise e).inputs = s.inputs := rfl
@[simp] theorem State.raise_owner (s : State) (e : CmdError) : (s.raise e).owner = s.owner := rfl
@[simp] theorem State.raise_readData (s : State) (e : CmdError) : (s.raise e).readData = s.readData := rfl

/-! ### `State.succeed` (30_encoding.md R79) -/

@[simp] theorem State.succeed_cfg (s : State) : (s.succeed).cfg = s.cfg := rfl
@[simp] theorem State.succeed_slots (s : State) : (s.succeed).slots = s.slots := rfl
@[simp] theorem State.succeed_arg (s : State) : (s.succeed).arg = s.arg := rfl
@[simp] theorem State.succeed_idx (s : State) : (s.succeed).idx = s.idx := rfl
@[simp] theorem State.succeed_result (s : State) : (s.succeed).result = s.result := rfl
@[simp] theorem State.succeed_sticky (s : State) : (s.succeed).sticky = s.sticky := rfl
@[simp] theorem State.succeed_overrun (s : State) : (s.succeed).overrun = s.overrun := rfl
@[simp] theorem State.succeed_lastErr (s : State) : (s.succeed).lastErr = 0 := rfl
@[simp] theorem State.succeed_errChar (s : State) : (s.succeed).errChar = 0 := rfl
@[simp] theorem State.succeed_latch (s : State) : (s.succeed).latch = none := rfl
@[simp] theorem State.succeed_wait (s : State) : (s.succeed).wait = 0 := rfl
@[simp] theorem State.succeed_draws (s : State) : (s.succeed).draws = s.draws := rfl
@[simp] theorem State.succeed_inputs (s : State) : (s.succeed).inputs = s.inputs := rfl
@[simp] theorem State.succeed_owner (s : State) : (s.succeed).owner = s.owner := rfl
@[simp] theorem State.succeed_readData (s : State) : (s.succeed).readData = s.readData := rfl

/-! ### `State.setResult` (10_state.md R34) -/

@[simp] theorem State.setResult_cfg (s : State) (v : BitVec 64) : (s.setResult v).cfg = s.cfg := rfl
@[simp] theorem State.setResult_slots (s : State) (v : BitVec 64) : (s.setResult v).slots = s.slots := rfl
@[simp] theorem State.setResult_arg (s : State) (v : BitVec 64) : (s.setResult v).arg = s.arg := rfl
@[simp] theorem State.setResult_idx (s : State) (v : BitVec 64) : (s.setResult v).idx = s.idx := rfl
@[simp] theorem State.setResult_result (s : State) (v : BitVec 64) : (s.setResult v).result = v := rfl
@[simp] theorem State.setResult_sticky (s : State) (v : BitVec 64) : (s.setResult v).sticky = s.sticky := rfl
@[simp] theorem State.setResult_overrun (s : State) (v : BitVec 64) : (s.setResult v).overrun = s.overrun := rfl
@[simp] theorem State.setResult_lastErr (s : State) (v : BitVec 64) : (s.setResult v).lastErr = s.lastErr := rfl
@[simp] theorem State.setResult_errChar (s : State) (v : BitVec 64) : (s.setResult v).errChar = s.errChar := rfl
@[simp] theorem State.setResult_latch (s : State) (v : BitVec 64) : (s.setResult v).latch = s.latch := rfl
@[simp] theorem State.setResult_wait (s : State) (v : BitVec 64) : (s.setResult v).wait = s.wait := rfl
@[simp] theorem State.setResult_draws (s : State) (v : BitVec 64) : (s.setResult v).draws = s.draws := rfl
@[simp] theorem State.setResult_inputs (s : State) (v : BitVec 64) : (s.setResult v).inputs = s.inputs := rfl
@[simp] theorem State.setResult_owner (s : State) (v : BitVec 64) : (s.setResult v).owner = s.owner := rfl
@[simp] theorem State.setResult_readData (s : State) (v : BitVec 64) : (s.setResult v).readData = s.readData := rfl

/-! ### `State.setSlot` -/

@[simp] theorem State.setSlot_cfg (s : State) (d : Nat) (b : Slot) : (s.setSlot d b).cfg = s.cfg := rfl
@[simp] theorem State.setSlot_slots (s : State) (d : Nat) (b : Slot) : (s.setSlot d b).slots = s.slots.set d b := rfl
@[simp] theorem State.setSlot_arg (s : State) (d : Nat) (b : Slot) : (s.setSlot d b).arg = s.arg := rfl
@[simp] theorem State.setSlot_idx (s : State) (d : Nat) (b : Slot) : (s.setSlot d b).idx = s.idx := rfl
@[simp] theorem State.setSlot_result (s : State) (d : Nat) (b : Slot) : (s.setSlot d b).result = s.result := rfl
@[simp] theorem State.setSlot_sticky (s : State) (d : Nat) (b : Slot) : (s.setSlot d b).sticky = s.sticky := rfl
@[simp] theorem State.setSlot_overrun (s : State) (d : Nat) (b : Slot) : (s.setSlot d b).overrun = s.overrun := rfl
@[simp] theorem State.setSlot_lastErr (s : State) (d : Nat) (b : Slot) : (s.setSlot d b).lastErr = s.lastErr := rfl
@[simp] theorem State.setSlot_errChar (s : State) (d : Nat) (b : Slot) : (s.setSlot d b).errChar = s.errChar := rfl
@[simp] theorem State.setSlot_latch (s : State) (d : Nat) (b : Slot) : (s.setSlot d b).latch = s.latch := rfl
@[simp] theorem State.setSlot_wait (s : State) (d : Nat) (b : Slot) : (s.setSlot d b).wait = s.wait := rfl
@[simp] theorem State.setSlot_draws (s : State) (d : Nat) (b : Slot) : (s.setSlot d b).draws = s.draws := rfl
@[simp] theorem State.setSlot_inputs (s : State) (d : Nat) (b : Slot) : (s.setSlot d b).inputs = s.inputs := rfl
@[simp] theorem State.setSlot_owner (s : State) (d : Nat) (b : Slot) : (s.setSlot d b).owner = s.owner := rfl
@[simp] theorem State.setSlot_readData (s : State) (d : Nat) (b : Slot) : (s.setSlot d b).readData = s.readData := rfl

/-! ### `State.tick` (70_reset_and_hazards.md R262) -/

@[simp] theorem State.tick_cfg (s : State) : (s.tick).cfg = s.cfg := rfl
@[simp] theorem State.tick_slots (s : State) : (s.tick).slots = s.slots := rfl
@[simp] theorem State.tick_arg (s : State) : (s.tick).arg = s.arg := rfl
@[simp] theorem State.tick_idx (s : State) : (s.tick).idx = s.idx := rfl
@[simp] theorem State.tick_result (s : State) : (s.tick).result = s.result := rfl
@[simp] theorem State.tick_sticky (s : State) : (s.tick).sticky = s.sticky := rfl
@[simp] theorem State.tick_overrun (s : State) : (s.tick).overrun = s.overrun := rfl
@[simp] theorem State.tick_lastErr (s : State) : (s.tick).lastErr = s.lastErr := rfl
@[simp] theorem State.tick_errChar (s : State) : (s.tick).errChar = s.errChar := rfl
@[simp] theorem State.tick_latch (s : State) : (s.tick).latch = s.latch := rfl
@[simp] theorem State.tick_wait (s : State) : (s.tick).wait = s.wait - 1 := rfl
@[simp] theorem State.tick_draws (s : State) : (s.tick).draws = s.draws := rfl
@[simp] theorem State.tick_inputs (s : State) : (s.tick).inputs = s.inputs := rfl
@[simp] theorem State.tick_owner (s : State) : (s.tick).owner = s.owner := rfl
@[simp] theorem State.tick_readData (s : State) : (s.tick).readData = s.readData := rfl

/-! ### `State.withOperands` (70_reset_and_hazards.md R264) -/

@[simp] theorem State.withOperands_cfg (s : State) (t : Transaction) : (s.withOperands t).cfg = s.cfg := rfl
@[simp] theorem State.withOperands_slots (s : State) (t : Transaction) : (s.withOperands t).slots = s.slots := rfl
@[simp] theorem State.withOperands_arg (s : State) (t : Transaction) : (s.withOperands t).arg = t.arg.getD s.arg := rfl
@[simp] theorem State.withOperands_idx (s : State) (t : Transaction) : (s.withOperands t).idx = t.idx.getD s.idx := rfl
@[simp] theorem State.withOperands_result (s : State) (t : Transaction) : (s.withOperands t).result = s.result := rfl
@[simp] theorem State.withOperands_sticky (s : State) (t : Transaction) : (s.withOperands t).sticky = s.sticky := rfl
@[simp] theorem State.withOperands_overrun (s : State) (t : Transaction) : (s.withOperands t).overrun = s.overrun := rfl
@[simp] theorem State.withOperands_lastErr (s : State) (t : Transaction) : (s.withOperands t).lastErr = s.lastErr := rfl
@[simp] theorem State.withOperands_errChar (s : State) (t : Transaction) : (s.withOperands t).errChar = s.errChar := rfl
@[simp] theorem State.withOperands_latch (s : State) (t : Transaction) : (s.withOperands t).latch = s.latch := rfl
@[simp] theorem State.withOperands_wait (s : State) (t : Transaction) : (s.withOperands t).wait = s.wait := rfl
@[simp] theorem State.withOperands_draws (s : State) (t : Transaction) : (s.withOperands t).draws = s.draws := rfl
@[simp] theorem State.withOperands_inputs (s : State) (t : Transaction) : (s.withOperands t).inputs = s.inputs := rfl
@[simp] theorem State.withOperands_owner (s : State) (t : Transaction) : (s.withOperands t).owner = s.owner := rfl
@[simp] theorem State.withOperands_readData (s : State) (t : Transaction) : (s.withOperands t).readData = s.readData := rfl

/-! ### `State.latchWord` (log 14) -/

@[simp] theorem State.latchWord_cfg (s : State) (w : CommandWord) : (s.latchWord w).cfg = s.cfg := rfl
@[simp] theorem State.latchWord_slots (s : State) (w : CommandWord) : (s.latchWord w).slots = s.slots := rfl
@[simp] theorem State.latchWord_arg (s : State) (w : CommandWord) : (s.latchWord w).arg = s.arg := rfl
@[simp] theorem State.latchWord_idx (s : State) (w : CommandWord) : (s.latchWord w).idx = s.idx := rfl
@[simp] theorem State.latchWord_result (s : State) (w : CommandWord) : (s.latchWord w).result = s.result := rfl
@[simp] theorem State.latchWord_sticky (s : State) (w : CommandWord) : (s.latchWord w).sticky = s.sticky := rfl
@[simp] theorem State.latchWord_overrun (s : State) (w : CommandWord) : (s.latchWord w).overrun = s.overrun := rfl
@[simp] theorem State.latchWord_lastErr (s : State) (w : CommandWord) : (s.latchWord w).lastErr = s.lastErr := rfl
@[simp] theorem State.latchWord_errChar (s : State) (w : CommandWord) : (s.latchWord w).errChar = s.errChar := rfl
@[simp] theorem State.latchWord_latch (s : State) (w : CommandWord) : (s.latchWord w).latch = some { word := w, arg := s.arg, idx := s.idx } := rfl
@[simp] theorem State.latchWord_wait (s : State) (w : CommandWord) : (s.latchWord w).wait = 0 := rfl
@[simp] theorem State.latchWord_draws (s : State) (w : CommandWord) : (s.latchWord w).draws = s.draws := rfl
@[simp] theorem State.latchWord_inputs (s : State) (w : CommandWord) : (s.latchWord w).inputs = s.inputs.dropWhile (fun c => c.rst) := rfl
@[simp] theorem State.latchWord_owner (s : State) (w : CommandWord) : (s.latchWord w).owner = s.owner := rfl
@[simp] theorem State.latchWord_readData (s : State) (w : CommandWord) : (s.latchWord w).readData = s.readData := rfl

/-! ### `State.grant` (60_exceptions.md R233) -/

@[simp] theorem State.accept_cfg (s : State) (w : CommandWord) : (s.accept w).cfg = s.cfg := rfl
@[simp] theorem State.accept_slots (s : State) (w : CommandWord) : (s.accept w).slots = s.slots := rfl
@[simp] theorem State.accept_arg (s : State) (w : CommandWord) : (s.accept w).arg = s.arg := rfl
@[simp] theorem State.accept_idx (s : State) (w : CommandWord) : (s.accept w).idx = s.idx := rfl
@[simp] theorem State.accept_result (s : State) (w : CommandWord) : (s.accept w).result = s.result := rfl
@[simp] theorem State.accept_sticky (s : State) (w : CommandWord) : (s.accept w).sticky = s.sticky := rfl
@[simp] theorem State.accept_overrun (s : State) (w : CommandWord) : (s.accept w).overrun = s.overrun := rfl
@[simp] theorem State.accept_lastErr (s : State) (w : CommandWord) : (s.accept w).lastErr = s.lastErr := rfl
@[simp] theorem State.accept_errChar (s : State) (w : CommandWord) : (s.accept w).errChar = s.errChar := rfl
@[simp] theorem State.accept_latch (s : State) (w : CommandWord) : (s.accept w).latch = some { word := w, arg := s.arg, idx := s.idx } := rfl
@[simp] theorem State.accept_wait (s : State) (w : CommandWord) : (s.accept w).wait = Config.latency s.draws := rfl
@[simp] theorem State.accept_draws (s : State) (w : CommandWord) : (s.accept w).draws = s.draws + 1 := rfl
@[simp] theorem State.accept_inputs (s : State) (w : CommandWord) : (s.accept w).inputs = s.inputs := rfl
@[simp] theorem State.accept_owner (s : State) (w : CommandWord) : (s.accept w).owner = s.owner := rfl
@[simp] theorem State.accept_readData (s : State) (w : CommandWord) : (s.accept w).readData = s.readData := rfl
@[simp] theorem State.dropCommand_cfg (s : State) : (s.dropCommand).cfg = s.cfg := rfl
@[simp] theorem State.dropCommand_slots (s : State) : (s.dropCommand).slots = s.slots := rfl
@[simp] theorem State.dropCommand_arg (s : State) : (s.dropCommand).arg = s.arg := rfl
@[simp] theorem State.dropCommand_idx (s : State) : (s.dropCommand).idx = s.idx := rfl
@[simp] theorem State.dropCommand_result (s : State) : (s.dropCommand).result = s.result := rfl
@[simp] theorem State.dropCommand_sticky (s : State) : (s.dropCommand).sticky = s.sticky := rfl
@[simp] theorem State.dropCommand_overrun (s : State) : (s.dropCommand).overrun = true := rfl
@[simp] theorem State.dropCommand_lastErr (s : State) : (s.dropCommand).lastErr = s.lastErr := rfl
@[simp] theorem State.dropCommand_errChar (s : State) : (s.dropCommand).errChar = s.errChar := rfl
@[simp] theorem State.dropCommand_latch (s : State) : (s.dropCommand).latch = s.latch := rfl
@[simp] theorem State.dropCommand_wait (s : State) : (s.dropCommand).wait = s.wait := rfl
@[simp] theorem State.dropCommand_draws (s : State) : (s.dropCommand).draws = s.draws := rfl
@[simp] theorem State.dropCommand_inputs (s : State) : (s.dropCommand).inputs = s.inputs := rfl
@[simp] theorem State.dropCommand_owner (s : State) : (s.dropCommand).owner = s.owner := rfl
@[simp] theorem State.dropCommand_readData (s : State) : (s.dropCommand).readData = s.readData := rfl
@[simp] theorem State.grant_cfg (s : State) (host : Nat) : (s.grant host).cfg = s.cfg := rfl
@[simp] theorem State.grant_slots (s : State) (host : Nat) : (s.grant host).slots = s.slots := rfl
@[simp] theorem State.grant_arg (s : State) (host : Nat) : (s.grant host).arg = s.arg := rfl
@[simp] theorem State.grant_idx (s : State) (host : Nat) : (s.grant host).idx = s.idx := rfl
@[simp] theorem State.grant_result (s : State) (host : Nat) : (s.grant host).result = s.result := rfl
@[simp] theorem State.grant_sticky (s : State) (host : Nat) : (s.grant host).sticky = s.sticky := rfl
@[simp] theorem State.grant_overrun (s : State) (host : Nat) : (s.grant host).overrun = s.overrun := rfl
@[simp] theorem State.grant_lastErr (s : State) (host : Nat) : (s.grant host).lastErr = s.lastErr := rfl
@[simp] theorem State.grant_errChar (s : State) (host : Nat) : (s.grant host).errChar = s.errChar := rfl
@[simp] theorem State.grant_latch (s : State) (host : Nat) : (s.grant host).latch = s.latch := rfl
@[simp] theorem State.grant_wait (s : State) (host : Nat) : (s.grant host).wait = s.wait := rfl
@[simp] theorem State.grant_draws (s : State) (host : Nat) : (s.grant host).draws = s.draws := rfl
@[simp] theorem State.grant_inputs (s : State) (host : Nat) : (s.grant host).inputs = s.inputs := rfl
@[simp] theorem State.grant_owner (s : State) (host : Nat) : (s.grant host).owner = some host := rfl
@[simp] theorem State.grant_readData (s : State) (host : Nat) : (s.grant host).readData = s.readData := rfl

/-! ### `State.withInputs` -/

@[simp] theorem State.withInputs_cfg (s : State) (rest : List HostCycle) : (s.withInputs rest).cfg = s.cfg := rfl
@[simp] theorem State.withInputs_slots (s : State) (rest : List HostCycle) : (s.withInputs rest).slots = s.slots := rfl
@[simp] theorem State.withInputs_arg (s : State) (rest : List HostCycle) : (s.withInputs rest).arg = s.arg := rfl
@[simp] theorem State.withInputs_idx (s : State) (rest : List HostCycle) : (s.withInputs rest).idx = s.idx := rfl
@[simp] theorem State.withInputs_result (s : State) (rest : List HostCycle) : (s.withInputs rest).result = s.result := rfl
@[simp] theorem State.withInputs_sticky (s : State) (rest : List HostCycle) : (s.withInputs rest).sticky = s.sticky := rfl
@[simp] theorem State.withInputs_overrun (s : State) (rest : List HostCycle) : (s.withInputs rest).overrun = s.overrun := rfl
@[simp] theorem State.withInputs_lastErr (s : State) (rest : List HostCycle) : (s.withInputs rest).lastErr = s.lastErr := rfl
@[simp] theorem State.withInputs_errChar (s : State) (rest : List HostCycle) : (s.withInputs rest).errChar = s.errChar := rfl
@[simp] theorem State.withInputs_latch (s : State) (rest : List HostCycle) : (s.withInputs rest).latch = s.latch := rfl
@[simp] theorem State.withInputs_wait (s : State) (rest : List HostCycle) : (s.withInputs rest).wait = s.wait := rfl
@[simp] theorem State.withInputs_draws (s : State) (rest : List HostCycle) : (s.withInputs rest).draws = s.draws := rfl
@[simp] theorem State.withInputs_inputs (s : State) (rest : List HostCycle) : (s.withInputs rest).inputs = rest := rfl
@[simp] theorem State.withInputs_owner (s : State) (rest : List HostCycle) : (s.withInputs rest).owner = s.owner := rfl
@[simp] theorem State.withInputs_readData (s : State) (rest : List HostCycle) : (s.withInputs rest).readData = s.readData := rfl

/-! ### `State.hostRead` (20_memory.md R62) -/

@[simp] theorem State.hostRead_cfg (s : State) (offset : Nat) : (s.hostRead offset).cfg = s.cfg := rfl
@[simp] theorem State.hostRead_slots (s : State) (offset : Nat) : (s.hostRead offset).slots = s.slots := rfl
@[simp] theorem State.hostRead_arg (s : State) (offset : Nat) : (s.hostRead offset).arg = s.arg := rfl
@[simp] theorem State.hostRead_idx (s : State) (offset : Nat) : (s.hostRead offset).idx = s.idx := rfl
@[simp] theorem State.hostRead_result (s : State) (offset : Nat) : (s.hostRead offset).result = s.result := rfl
@[simp] theorem State.hostRead_sticky (s : State) (offset : Nat) : (s.hostRead offset).sticky = s.sticky := rfl
@[simp] theorem State.hostRead_overrun (s : State) (offset : Nat) : (s.hostRead offset).overrun = s.overrun := rfl
@[simp] theorem State.hostRead_lastErr (s : State) (offset : Nat) : (s.hostRead offset).lastErr = s.lastErr := rfl
@[simp] theorem State.hostRead_errChar (s : State) (offset : Nat) : (s.hostRead offset).errChar = s.errChar := rfl
@[simp] theorem State.hostRead_latch (s : State) (offset : Nat) : (s.hostRead offset).latch = s.latch := rfl
@[simp] theorem State.hostRead_wait (s : State) (offset : Nat) : (s.hostRead offset).wait = s.wait := rfl
@[simp] theorem State.hostRead_draws (s : State) (offset : Nat) : (s.hostRead offset).draws = if s.busy then s.draws + 1 else s.draws := rfl
@[simp] theorem State.hostRead_inputs (s : State) (offset : Nat) : (s.hostRead offset).inputs = s.inputs := rfl
@[simp] theorem State.hostRead_owner (s : State) (offset : Nat) : (s.hostRead offset).owner = s.owner := rfl
@[simp] theorem State.hostRead_readData (s : State) (offset : Nat) : (s.hostRead offset).readData = some (s.readRegister offset) := rfl

/-! ### `State.takeReset` (70_reset_and_hazards.md R250, R251) -/

@[simp] theorem State.takeReset_cfg (s : State) : (s.takeReset).cfg = s.cfg := rfl
@[simp] theorem State.takeReset_slots (s : State) : (s.takeReset).slots = List.replicate s.cfg.nbuf Slot.empty := rfl
@[simp] theorem State.takeReset_arg (s : State) : (s.takeReset).arg = 0 := rfl
@[simp] theorem State.takeReset_idx (s : State) : (s.takeReset).idx = 0 := rfl
@[simp] theorem State.takeReset_result (s : State) : (s.takeReset).result = 0 := rfl
@[simp] theorem State.takeReset_sticky (s : State) : (s.takeReset).sticky = false := rfl
@[simp] theorem State.takeReset_overrun (s : State) : (s.takeReset).overrun = false := rfl
@[simp] theorem State.takeReset_lastErr (s : State) : (s.takeReset).lastErr = 0 := rfl
@[simp] theorem State.takeReset_errChar (s : State) : (s.takeReset).errChar = 0 := rfl
@[simp] theorem State.takeReset_latch (s : State) : (s.takeReset).latch = none := rfl
@[simp] theorem State.takeReset_wait (s : State) : (s.takeReset).wait = 0 := rfl
@[simp] theorem State.takeReset_draws (s : State) : (s.takeReset).draws = s.draws := rfl
@[simp] theorem State.takeReset_inputs (s : State) : (s.takeReset).inputs = s.inputs.tail := rfl
@[simp] theorem State.takeReset_owner (s : State) : (s.takeReset).owner = none := rfl
@[simp] theorem State.takeReset_readData (s : State) : (s.takeReset).readData = none := rfl

/-! ### `State.resetWith` (10_state.md R46) -/

@[simp] theorem State.resetWith_cfg (c : Config) : (State.resetWith c).cfg = c := rfl
@[simp] theorem State.resetWith_slots (c : Config) : (State.resetWith c).slots = List.replicate c.nbuf Slot.empty := rfl
@[simp] theorem State.resetWith_arg (c : Config) : (State.resetWith c).arg = 0 := rfl
@[simp] theorem State.resetWith_idx (c : Config) : (State.resetWith c).idx = 0 := rfl
@[simp] theorem State.resetWith_result (c : Config) : (State.resetWith c).result = 0 := rfl
@[simp] theorem State.resetWith_sticky (c : Config) : (State.resetWith c).sticky = false := rfl
@[simp] theorem State.resetWith_overrun (c : Config) : (State.resetWith c).overrun = false := rfl
@[simp] theorem State.resetWith_lastErr (c : Config) : (State.resetWith c).lastErr = 0 := rfl
@[simp] theorem State.resetWith_errChar (c : Config) : (State.resetWith c).errChar = 0 := rfl
@[simp] theorem State.resetWith_latch (c : Config) : (State.resetWith c).latch = none := rfl
@[simp] theorem State.resetWith_wait (c : Config) : (State.resetWith c).wait = 0 := rfl
@[simp] theorem State.resetWith_draws (c : Config) : (State.resetWith c).draws = 0 := rfl
@[simp] theorem State.resetWith_inputs (c : Config) : (State.resetWith c).inputs = [] := rfl
@[simp] theorem State.resetWith_owner (c : Config) : (State.resetWith c).owner = none := rfl
@[simp] theorem State.resetWith_readData (c : Config) : (State.resetWith c).readData = none := rfl

/-! ### Effects -/

@[simp] theorem State.apply_nothing (s : State) : s.apply .nothing = s := rfl
@[simp] theorem State.apply_result (s : State) (v : BitVec 64) : s.apply (.result v) = s.setResult v := rfl
@[simp] theorem State.apply_store (s : State) (d : Nat) (b : Slot) : s.apply (.store d b) = s.setSlot d b := rfl

/-- STATUS.BUSY as the presence of a command in flight (10_state.md R36, R43). -/
theorem State.busy_eq_false_iff (s : State) : s.busy = false ↔ s.latch = none := by
  simp [State.busy]

/-! ### Slots of the machine after an update -/

/-- Slot d of the storage after a write to slot e. -/
theorem State.slotAt_setSlot (s : State) (d e : Nat) (b : Slot) :
    (s.setSlot e b).slotAt d = if e = d ∧ d < s.slots.length then b else s.slotAt d := by
  simp only [State.slotAt, State.setSlot_slots, List.getD_eq_getElem?_getD, List.getElem?_set]
  by_cases h : e = d <;> by_cases h' : d < s.slots.length <;> simp [h, h']

/-- Slots of equal storage are equal. -/
theorem State.slotAt_congr (s t : State) (d : Nat) (h : t.slots = s.slots) : t.slotAt d = s.slotAt d := by
  simp [State.slotAt, h]

/-- A slot of the storage is a member of it. -/
theorem State.slotAt_mem (s : State) (d : Nat) (h : d < s.slots.length) : s.slotAt d ∈ s.slots := by
  simp [State.slotAt, List.getD_eq_getElem?_getD, h]

end Sys2Proof.Machine
end

