-- ==== Sys2Proof/Laws/Bus.lean ====
section
/-! SUPPORT. The places of the fields of STATUS, and what a step does when the engine completes nothing: the host's
cycle (10_state.md R35, 20_memory.md R60 to R62, 70_reset_and_hazards.md R261, R262). -/

namespace Sys2Proof.Machine

/-! ### The layout of STATUS -/

section
variable (busy sticky overrun : Bool) (lastErr : BitVec 4) (errChar : BitVec 8)

/-- Bit i of STATUS, for every i (10_state.md R35). -/
theorem packStatus_getLsbD (i : Nat) :
    (packStatus busy sticky overrun lastErr errChar).getLsbD i =
      if i = 0 then busy
      else if i = 1 then sticky
      else if i = 2 then overrun
      else if i < 8 then false
      else if i < 12 then lastErr.getLsbD (i - 8)
      else if i < 16 then false
      else errChar.getLsbD (i - 16) := by
  simp only [packStatus, BitVec.getLsbD_append]
  by_cases h : i < 24
  · interval_cases i <;> simp
  · have herr : errChar.getLsbD (i - 16) = false := BitVec.getLsbD_of_ge _ _ (by omega)
    rw [if_neg (show ¬ i < 1 by omega), if_neg (show ¬ i - 1 < 1 by omega),
      if_neg (show ¬ i - 1 - 1 < 1 by omega), if_neg (show ¬ i - 1 - 1 - 1 < 5 by omega),
      if_neg (show ¬ i - 1 - 1 - 1 - 5 < 4 by omega), if_neg (show ¬ i - 1 - 1 - 1 - 5 - 4 < 4 by omega),
      if_neg (show ¬ i - 1 - 1 - 1 - 5 - 4 - 4 < 8 by omega), if_neg (show ¬ i = 0 by omega),
      if_neg (show ¬ i = 1 by omega), if_neg (show ¬ i = 2 by omega), if_neg (show ¬ i < 8 by omega),
      if_neg (show ¬ i < 12 by omega), if_neg (show ¬ i < 16 by omega), herr]
    simp

end

/-! ### Steps without a completion -/

/-- With no command in flight, or its latency still running, the engine executes nothing. -/
theorem State.fetch_eq_none {s : State} (h : s.latch = none ∨ 0 < s.wait) : s.fetch = none := by
  unfold State.fetch
  split
  · rename_i l hl
    rcases h with h | h
    · rw [hl] at h
      cases h
    · rw [if_neg (by omega)]
  · rfl

/-- A step of an undisturbed block is the host's cycle when the engine executes nothing. -/
theorem step_eq_hostCycle {s : State} (hr : s.resetAsserted = false) (hf : s.fetch = none) :
    step s = hostCycle s := by
  simp [step, hr, hf]

/-- A step with no input left, and the engine waiting: one cycle of the latency passes. -/
theorem step_idle {s : State} (hi : s.inputs = []) (h : s.latch = none ∨ 0 < s.wait) :
    step s = .next s.tick := by
  rw [step_eq_hostCycle (by simp [State.resetAsserted, hi]) (State.fetch_eq_none h)]
  simp [hostCycle, hi]

/-- A step in which the host makes an access. -/
theorem step_access {s : State} {a : Access} {rest : List HostCycle}
    (hi : s.inputs = { rst := false, access := some a } :: rest) (h : s.latch = none ∨ 0 < s.wait) :
    step s = serveAccess (s.tick.withInputs rest) a := by
  rw [step_eq_hostCycle (by simp [State.resetAsserted, hi]) (State.fetch_eq_none h)]
  simp [hostCycle, hi]

/-- A step in which the host makes an access inside the interface performs it. -/
theorem step_busCycle {s : State} {host offset : Nat} {kind : AccessKind} {rest : List HostCycle}
    (h : FacesCycle s host (busCycle s host offset kind) rest) (hlt : offset < 0x100) (h8 : offset % 8 = 0) :
    step s = .next (((s.tick.withInputs rest).grant host).perform offset kind) := by
  obtain ⟨hi, hown, hl⟩ := h
  rw [step_access hi hl, serveAccess]
  have hw : (s.tick.withInputs rest).inWindow (s.cfg.base + offset) := by
    simp only [State.inWindow, State.withInputs_cfg, State.tick_cfg]
    omega
  have ho : ¬ (s.tick.withInputs rest).ownedByOther host := by
    simp only [State.ownedByOther, State.withInputs_owner, State.tick_owner]
    rcases hown with h | h <;> simp [h]
  rw [if_neg (not_not.mpr hw), if_neg ho]
  simp [h8]

/-! ### Registers -/

/-- The register map for reads, as a case distinction on the offset (20_memory.md R60). -/
theorem State.readRegister_eq (s : State) (offset : Nat) :
    s.readRegister offset =
      if offset = 0x08 then s.arg
      else if offset = 0x10 then s.idx.setWidth 64
      else if offset = 0x18 then s.resultSeen
      else if offset = 0x20 then s.statusSeen
      else if offset = 0x28 then s.paramWord
      else 0 := by
  unfold State.readRegister
  split <;> simp_all

theorem State.writeRegister_other (s : State) (offset : Nat) (v : BitVec 64) (h0 : offset ≠ 0)
    (h8 : offset ≠ 0x08) (h10 : offset ≠ 0x10) : s.writeRegister offset v = s := by
  unfold State.writeRegister
  split <;> simp_all

/-- Taking bits 31:0 of a bus value (10_state.md R33, R42). -/
theorem setWidth_eq_extractLsb' (v : BitVec 64) : v.setWidth 32 = v.extractLsb' 0 32 := by
  apply BitVec.eq_of_getLsbD_eq
  intro i hi
  simp [hi]

/-- A command word written as a 64-bit value comes back as bits 31:0 (10_state.md R42). -/
theorem setWidth_setWidth_command (w : BitVec 32) : (w.setWidth 64).setWidth 32 = w := by
  apply BitVec.eq_of_getLsbD_eq
  intro i hi
  simp [hi]

end Sys2Proof.Machine
end

