-- ==== Sys2Proof/Laws/CharTables.lean ====
section
/-! SUPPORT. The character codecs against the alphabets of the spec, table entry by table entry
(40_char_codecs.md R100, R101). -/

namespace Sys2Proof.Machine

/-- A character's hex value is its place in the alphabet; a character outside has none. -/
theorem hexValue_spec (c : Byte) :
    (∃ v, hexValue c = some v ∧ v < 16 ∧ c.toNat = hexAlphabet.getD v 0) ∨
    (hexValue c = none ∧ c.toNat ∉ hexAlphabet) := by
  have h : ∀ c : Byte, (match hexValue c with
      | some v => decide (v < 16 ∧ c.toNat = hexAlphabet.getD v 0)
      | none => decide (c.toNat ∉ hexAlphabet)) = true := by decide +kernel
  have hc := h c
  split at hc
  · exact .inl ⟨_, ‹_›, of_decide_eq_true hc⟩
  · exact .inr ⟨‹_›, of_decide_eq_true hc⟩

/-- A character's base64 value is its place in the alphabet; a character outside has none. -/
theorem b64Value_spec (c : Byte) :
    (∃ v, b64Value c = some v ∧ v < 64 ∧ c.toNat = b64Alphabet.getD v 0) ∨
    (b64Value c = none ∧ c.toNat ∉ b64Alphabet) := by
  have h : ∀ c : Byte, (match b64Value c with
      | some v => decide (v < 64 ∧ c.toNat = b64Alphabet.getD v 0)
      | none => decide (c.toNat ∉ b64Alphabet)) = true := by decide +kernel
  have hc := h c
  split at hc
  · exact .inl ⟨_, ‹_›, of_decide_eq_true hc⟩
  · exact .inr ⟨‹_›, of_decide_eq_true hc⟩

theorem hexAlphabet_nodup : hexAlphabet.Nodup := by decide

theorem b64Alphabet_nodup : b64Alphabet.Nodup := by decide +kernel

theorem hexValue_of_place {c : Byte} {v : Nat} (hv : v < 16) (h : c.toNat = hexAlphabet.getD v 0) :
    hexValue c = some v := by
  have hlen : hexAlphabet.length = 16 := rfl
  rw [List.getD_eq_getElem _ _ (by omega)] at h
  rcases hexValue_spec c with ⟨u, hu, hlt, hc⟩ | ⟨-, hc⟩
  · rw [hc, List.getD_eq_getElem _ _ (by omega)] at h
    rw [hu, (hexAlphabet_nodup.getElem_inj_iff).mp h]
  · exact absurd (h ▸ List.getElem_mem _) hc

theorem b64Value_of_place {c : Byte} {v : Nat} (hv : v < 64) (h : c.toNat = b64Alphabet.getD v 0) :
    b64Value c = some v := by
  have hlen : b64Alphabet.length = 64 := rfl
  rw [List.getD_eq_getElem _ _ (by omega)] at h
  rcases b64Value_spec c with ⟨u, hu, hlt, hc⟩ | ⟨-, hc⟩
  · rw [hc, List.getD_eq_getElem _ _ (by omega)] at h
    rw [hu, (b64Alphabet_nodup.getElem_inj_iff).mp h]
  · exact absurd (h ▸ List.getElem_mem _) hc

theorem hexValue_of_not_mem {c : Byte} (h : c.toNat ∉ hexAlphabet) : hexValue c = none := by
  have hlen : hexAlphabet.length = 16 := rfl
  rcases hexValue_spec c with ⟨u, -, hlt, hc⟩ | ⟨hc, -⟩
  · rw [List.getD_eq_getElem _ _ (by omega)] at hc
    exact absurd (hc ▸ List.getElem_mem _) h
  · exact hc

theorem hexValue_of_mem {c : Byte} (h : c.toNat ∈ hexAlphabet) :
    ∃ v, hexValue c = some v ∧ v < 16 ∧ c.toNat = hexAlphabet.getD v 0 :=
  (hexValue_spec c).resolve_right fun hc => hc.2 h

theorem b64Value_of_not_mem {c : Byte} (h : c.toNat ∉ b64Alphabet) : b64Value c = none := by
  have hlen : b64Alphabet.length = 64 := rfl
  rcases b64Value_spec c with ⟨u, -, hlt, hc⟩ | ⟨hc, -⟩
  · rw [List.getD_eq_getElem _ _ (by omega)] at hc
    exact absurd (hc ▸ List.getElem_mem _) h
  · exact hc

theorem b64Value_of_mem {c : Byte} (h : c.toNat ∈ b64Alphabet) :
    ∃ v, b64Value c = some v ∧ v < 64 ∧ c.toNat = b64Alphabet.getD v 0 :=
  (b64Value_spec c).resolve_right fun hc => hc.2 h

/-- The character written for a hex value is the one at its place in the alphabet. -/
theorem hexChar_toNat {n : Nat} (h : n < 16) : (hexChar n).toNat = hexAlphabet.getD n 0 := by
  have : ∀ n < 16, (hexChar n).toNat = hexAlphabet.getD n 0 := by decide
  exact this n h

/-- The character written for a base64 value is the one at its place in the alphabet. -/
theorem b64Char_toNat {n : Nat} (h : n < 64) : (b64Char n).toNat = b64Alphabet.getD n 0 := by
  have : ∀ n < 64, (b64Char n).toNat = b64Alphabet.getD n 0 := by decide +kernel
  exact this n h

/-- The line ends and `=` are no characters of the base64 alphabet (40_char_codecs.md R104). -/
theorem b64Alphabet_excludes : 0x0A ∉ b64Alphabet ∧ 0x0D ∉ b64Alphabet ∧ 0x3D ∉ b64Alphabet := by decide

end Sys2Proof.Machine
end

