-- ==== Sys2Proof/Laws/Storage.lean ====
section
/-! SUPPORT. What each named operation over slots does, said once, and that each keeps the canonical form
(10_state.md R22 to R28, 20_memory.md R52 to R56, 43_xor.md R200, R201). -/

namespace Sys2Proof.Machine

/-! ### Configurations -/

theorem Config.Valid.wordWidth_pos {c : Config} (h : c.Valid) : 0 < c.wordWidth := by
  rcases h.1 with h | h | h | h <;> omega

theorem Config.Valid.wordWidth_le {c : Config} (h : c.Valid) : c.wordWidth ≤ 64 := by
  rcases h.1 with h | h | h | h <;> omega

theorem Config.Valid.cap_lt {c : Config} (h : c.Valid) : c.cap + 1 = c.wordWidth * c.nw ∧ c.cap < 2 ^ 31 := by
  have h1 : 0 < c.wordWidth * c.nw := Nat.mul_pos (Config.Valid.wordWidth_pos h) h.2.2.2.1
  have h2 := h.2.2.2.2
  unfold Config.cap
  omega

/-! ### The counts of a slot in canonical form (10_state.md R24, R26) -/

/-- No word of a slot has a bit at W or above (log 4). -/
theorem Slot.WF.words_lt {c : Config} {b : Slot} (h : b.WF c) : ∀ x ∈ b.words, x.toNat < 2 ^ c.wordWidth := by
  simpa using h.2.2.2.1

theorem words_all_lt {W : Nat} {words : List Word} (h : ∀ x ∈ words, x.toNat < 2 ^ W) :
    (words.all fun x => decide (x.toNat < 2 ^ W)) = true := by
  simpa using h

theorem Slot.WF.numBits_lt {c : Config} {b : Slot} (h : b.WF c) :
    b.numBits c.wordWidth < c.wordWidth * b.numWords := by
  obtain ⟨h1, -, h3, -⟩ := h
  obtain ⟨k, hk⟩ : ∃ k, b.numWords = k + 1 := ⟨b.numWords - 1, by omega⟩
  simp only [Slot.numBits, hk, Nat.add_sub_cancel, Nat.mul_succ]
  omega

/-- numWords = n div W + 1 and used = n mod W (10_state.md R24). -/
theorem Slot.WF.counts {c : Config} {b : Slot} (h : b.WF c) :
    b.numWords = b.numBits c.wordWidth / c.wordWidth + 1 ∧ b.used = b.numBits c.wordWidth % c.wordWidth := by
  obtain ⟨h1, -, h3, -⟩ := h
  have hW : 0 < c.wordWidth := by omega
  constructor
  · rw [Slot.numBits, Nat.mul_add_div hW, Nat.div_eq_of_lt h3]
    omega
  · rw [Slot.numBits, Nat.mul_add_mod, Nat.mod_eq_of_lt h3]

/-- n ≤ CAP (10_state.md R26). -/
theorem Slot.WF.numBits_le_cap {c : Config} {b : Slot} (h : b.WF c) : b.numBits c.wordWidth ≤ c.cap := by
  have h1 := h.numBits_lt
  have h2 : c.wordWidth * b.numWords ≤ c.wordWidth * c.nw := Nat.mul_le_mul_left _ h.2.1
  unfold Config.cap
  omega

/-- Every storage bit at n or above reads 0 (10_state.md R28). -/
theorem Slot.WF.bit_of_ge {c : Config} {b : Slot} (h : b.WF c) {p : Nat} (hp : b.numBits c.wordWidth ≤ p) :
    b.bit c.wordWidth p = false := by
  by_cases hlt : p < c.wordWidth * b.numWords
  · exact h.2.2.2.2 p hlt hp
  · have hW : 0 < c.wordWidth := by have := h.2.2.1; omega
    have hge : b.words.length ≤ p / c.wordWidth := by
      rw [Nat.le_div_iff_mul_le hW, Nat.mul_comm]
      simpa [Slot.numWords] using hlt
    have hnone : b.words[p / c.wordWidth]? = none := by simpa using hge
    simp [Slot.bit, List.getD_eq_getElem?_getD, hnone]

/-- Slots in canonical form with the same bits and the same pad are equal data. -/
theorem Slot.WF.ext {c : Config} {a b : Slot} (ha : a.WF c) (hb : b.WF c)
    (hn : a.numBits c.wordWidth = b.numBits c.wordWidth)
    (hbit : ∀ p < a.numBits c.wordWidth, a.bit c.wordWidth p = b.bit c.wordWidth p) (hpad : a.pad = b.pad) :
    a = b := by
  have hca := ha.counts
  have hcb := hb.counts
  have hlen : a.words.length = b.words.length := by
    have : a.numWords = b.numWords := by rw [hca.1, hcb.1, hn]
    exact this
  have hwords : a.words = b.words := by
    refine words_ext c.wordWidth _ _ (by have := ha.2.2.1; omega) hlen ha.words_lt hb.words_lt fun p _ => ?_
    by_cases hp : p < a.numBits c.wordWidth
    · exact hbit p hp
    · have h1 := ha.bit_of_ge (p := p) (by omega)
      have h2 := hb.bit_of_ge (p := p) (by omega)
      rw [Slot.bit_eq_wordsBit] at h1 h2
      rw [h1, h2]
  have hused : a.used = b.used := by rw [hca.2, hcb.2, hn]
  cases a
  cases b
  exact Slot.mk.injEq .. ▸ ⟨hwords, hused, hpad⟩

/-! ### The empty buffer -/

@[simp] theorem Slot.empty_numBits (W : Nat) : Slot.empty.numBits W = 0 := by
  simp [Slot.empty, Slot.numBits, Slot.numWords]

@[simp] theorem Slot.empty_pad : Slot.empty.pad = 0 := rfl

@[simp] theorem Slot.empty_bit (W p : Nat) : Slot.empty.bit W p = false := by
  simp only [Slot.bit, Slot.empty, List.getD_eq_getElem?_getD]
  rcases p / W with _ | k <;> simp

theorem Slot.empty_wf {c : Config} (h : c.Valid) : Slot.empty.WF c := by
  have hW := Config.Valid.wordWidth_pos h
  exact ⟨by simp [Slot.empty, Slot.numWords], h.2.2.2.1, hW, by simp [Slot.empty], fun p _ _ => Slot.empty_bit _ p⟩

/-! ### Append (20_memory.md R54) -/

theorem Slot.append_full {c : Config} {b : Slot} {w v : Nat} (h : c.cap < b.numBits c.wordWidth + w) :
    b.append c w v = .error .full := by
  simp [Slot.append, h]

theorem Slot.append_fits {c : Config} {b : Slot} {w v : Nat} (h : b.numBits c.wordWidth + w ≤ c.cap) :
    ∃ b', b.append c w v = .ok b' := by
  simp [Slot.append, Nat.not_lt.mpr h]

/-- Append either reports FULL, beyond CAP, or answers a slot, within CAP. -/
theorem Slot.append_cases (c : Config) (b : Slot) (w v : Nat) :
    (b.append c w v = .error .full ∧ c.cap < b.numBits c.wordWidth + w) ∨
    (∃ b', b.append c w v = .ok b' ∧ b.numBits c.wordWidth + w ≤ c.cap) := by
  by_cases h : c.cap < b.numBits c.wordWidth + w
  · exact .inl ⟨Slot.append_full h, h⟩
  · obtain ⟨b', hb'⟩ := Slot.append_fits (v := v) (Nat.not_lt.mp h)
    exact .inr ⟨b', hb', Nat.not_lt.mp h⟩

/-- All that a successful Append does: n grows by w, the old bits stay, value bit j is at n + j, pad stays, and
the canonical form is kept. -/
theorem Slot.append_spec {c : Config} {b b' : Slot} {w v : Nat} (hc : c.Valid) (hb : b.WF c)
    (h : b.append c w v = .ok b') :
    b'.WF c ∧ b'.numBits c.wordWidth = b.numBits c.wordWidth + w ∧ b'.pad = b.pad ∧
    (∀ p < b.numBits c.wordWidth, b'.bit c.wordWidth p = b.bit c.wordWidth p) ∧
    (∀ j < w, b'.bit c.wordWidth (b.numBits c.wordWidth + j) = v.testBit j) := by
  have hW := Config.Valid.wordWidth_pos hc
  have hW' := Config.Valid.wordWidth_le hc
  have hcap := (Config.Valid.cap_lt hc).1
  have hcnt := hb.counts
  simp only [Slot.append] at h
  split at h
  · cases h
  rename_i hle
  cases h
  generalize hn : b.numBits c.wordWidth = n at *
  have hlen : b.words.length = n / c.wordWidth + 1 := hcnt.1
  have hmono : n / c.wordWidth ≤ (n + w) / c.wordWidth := Nat.div_le_div_right (by omega)
  have hglen : (growTo b.words ((n + w) / c.wordWidth + 1)).length = (n + w) / c.wordWidth + 1 := by
    rw [length_growTo]
    omega
  have hroom : n + w < c.wordWidth * ((n + w) / c.wordWidth + 1) := Nat.lt_mul_div_succ _ hW
  have hbits : ∀ p, wordsBit c.wordWidth
      (writeBits c.wordWidth (growTo b.words ((n + w) / c.wordWidth + 1)) n w v) p =
      if n ≤ p ∧ p < n + w then v.testBit (p - n) else b.bit c.wordWidth p := by
    intro p
    rw [wordsBit_writeBits _ _ _ _ _ _ hW hW' (by rw [hglen]; omega), wordsBit_growTo]
    rfl
  have hnum : c.wordWidth * ((n + w) / c.wordWidth) + (n + w) % c.wordWidth = n + w := Nat.div_add_mod _ _
  refine ⟨⟨?_, ?_, Nat.mod_lt _ hW, ?_, ?_⟩, ?_, rfl, ?_, ?_⟩
  · simp only [Slot.numWords, length_writeBits, hglen]
    omega
  · simp only [Slot.numWords, length_writeBits, hglen]
    have : (n + w) / c.wordWidth < c.nw := by
      rw [Nat.div_lt_iff_lt_mul hW, Nat.mul_comm]
      omega
    omega
  · exact words_all_lt (writeBits_lt _ _ _ _ _ hW hW' (growTo_lt _ _ _ hb.words_lt))
  · intro p _ hp
    have hp' : n + w ≤ p := by
      simpa only [Slot.numBits, Slot.numWords, length_writeBits, hglen, Nat.add_sub_cancel, hnum] using
        hp
    rw [Slot.bit_eq_wordsBit]
    simp only
    rw [hbits, if_neg (by omega)]
    exact hb.bit_of_ge (by omega)
  · simp only [Slot.numBits, Slot.numWords, length_writeBits, hglen, Nat.add_sub_cancel]
    exact hnum
  · intro p hp
    rw [Slot.bit_eq_wordsBit]
    simp only
    rw [hbits, if_neg (by omega)]
  · intro j hj
    rw [Slot.bit_eq_wordsBit]
    simp only
    rw [hbits, if_pos (by omega), Nat.add_sub_cancel_left]

/-! ### BitWrite and ByteWrite (20_memory.md R53, R56) -/

@[simp] theorem Slot.bitWrite_pad (W : Nat) (b : Slot) (i w v : Nat) : (b.bitWrite W i w v).pad = b.pad := rfl

@[simp] theorem Slot.bitWrite_used (W : Nat) (b : Slot) (i w v : Nat) : (b.bitWrite W i w v).used = b.used := rfl

@[simp] theorem Slot.bitWrite_numWords (W : Nat) (b : Slot) (i w v : Nat) :
    (b.bitWrite W i w v).numWords = b.numWords := by
  simp [Slot.numWords, Slot.bitWrite]

@[simp] theorem Slot.bitWrite_numBits (V W : Nat) (b : Slot) (i w v : Nat) :
    (b.bitWrite W i w v).numBits V = b.numBits V := by
  simp [Slot.numBits]

/-- All that BitWrite does to the bits, and that it keeps the canonical form. -/
theorem Slot.bitWrite_spec {c : Config} {b : Slot} {i w v : Nat} (hc : c.Valid) (hb : b.WF c)
    (h : i + w ≤ b.numBits c.wordWidth) :
    (b.bitWrite c.wordWidth i w v).WF c ∧
    ∀ p, (b.bitWrite c.wordWidth i w v).bit c.wordWidth p =
      if i ≤ p ∧ p < i + w then v.testBit (p - i) else b.bit c.wordWidth p := by
  have hW := Config.Valid.wordWidth_pos hc
  have hW' := Config.Valid.wordWidth_le hc
  have hlt := hb.numBits_lt
  have hbits : ∀ p, (b.bitWrite c.wordWidth i w v).bit c.wordWidth p =
      if i ≤ p ∧ p < i + w then v.testBit (p - i) else b.bit c.wordWidth p := fun p =>
    wordsBit_writeBits _ _ _ _ _ _ hW hW' (by unfold Slot.numWords at hlt; omega)
  refine ⟨⟨by simpa using hb.1, by simpa using hb.2.1, hb.2.2.1,
    words_all_lt (writeBits_lt _ _ _ _ _ hW hW' hb.words_lt), fun p _ hp => ?_⟩, hbits⟩
  rw [Slot.bitWrite_numBits] at hp
  rw [hbits, if_neg (by omega)]
  exact hb.bit_of_ge hp

/-- Byte k of a slot lies within its bits (20_memory.md R56). -/
theorem Slot.bytePos_add {W : Nat} {b : Slot} {k : Nat} (h : k < b.numBytes W) :
    b.bytePos W k + 8 * (k + 1) = b.numBits W := by
  unfold Slot.numBytes at h
  unfold Slot.bytePos
  omega

@[simp] theorem Slot.byteWrite_pad (W : Nat) (b : Slot) (k v : Nat) : (b.byteWrite W k v).pad = b.pad := rfl

@[simp] theorem Slot.byteWrite_numBits (V W : Nat) (b : Slot) (k v : Nat) :
    (b.byteWrite W k v).numBits V = b.numBits V := by
  simp [Slot.byteWrite]

theorem Slot.byteWrite_spec {c : Config} {b : Slot} {k v : Nat} (hc : c.Valid) (hb : b.WF c)
    (h : k < b.numBytes c.wordWidth) :
    (b.byteWrite c.wordWidth k v).WF c ∧
    ∀ p, (b.byteWrite c.wordWidth k v).bit c.wordWidth p =
      if b.bytePos c.wordWidth k ≤ p ∧ p < b.bytePos c.wordWidth k + 8 then
        v.testBit (p - b.bytePos c.wordWidth k)
      else b.bit c.wordWidth p :=
  Slot.bitWrite_spec hc hb (by have := Slot.bytePos_add h; omega)

/-! ### XOR (43_xor.md R200) -/

@[simp] theorem Slot.exclusiveOr_pad (a b : Slot) : (a.exclusiveOr b).pad = a.pad := rfl

@[simp] theorem Slot.exclusiveOr_numBits (W : Nat) (a b : Slot) :
    (a.exclusiveOr b).numBits W = a.numBits W := by
  simp [Slot.numBits, Slot.numWords, Slot.exclusiveOr]

/-- The XOR of two slots of the same length, bit by bit, and that it is in canonical form. -/
theorem Slot.exclusiveOr_spec {c : Config} {a b : Slot} (ha : a.WF c) (hb : b.WF c)
    (hn : a.numBits c.wordWidth = b.numBits c.wordWidth) :
    (a.exclusiveOr b).WF c ∧
    ∀ p, (a.exclusiveOr b).bit c.wordWidth p = (a.bit c.wordWidth p ^^ b.bit c.wordWidth p) := by
  have hlen : a.words.length = b.words.length := by
    have : a.numWords = b.numWords := by rw [ha.counts.1, hb.counts.1, hn]
    exact this
  have hbits : ∀ p, (a.exclusiveOr b).bit c.wordWidth p = (a.bit c.wordWidth p ^^ b.bit c.wordWidth p) := by
    intro p
    simp only [Slot.bit, Slot.exclusiveOr, List.getD_eq_getElem?_getD, List.getElem?_mapIdx]
    by_cases hp : p / c.wordWidth < a.words.length
    · simp [List.getElem?_eq_getElem hp]
    · have h1 : a.words[p / c.wordWidth]? = none := by simpa using hp
      have h2 : b.words[p / c.wordWidth]? = none := by
        rw [hlen] at hp
        simpa using hp
      simp [h1, h2]
  refine ⟨⟨by simpa [Slot.numWords, Slot.exclusiveOr] using ha.1,
    by simpa [Slot.numWords, Slot.exclusiveOr] using ha.2.1, ha.2.2.1, ?_, ?_⟩, hbits⟩
  · refine words_all_lt fun x hx => ?_
    obtain ⟨k, hk, rfl⟩ := List.mem_iff_getElem.mp hx
    have hk' : k < a.words.length := by simpa [Slot.exclusiveOr] using hk
    have hkb : k < b.words.length := by omega
    simp only [Slot.exclusiveOr, List.getElem_mapIdx, List.getD_eq_getElem?_getD, List.getElem?_eq_getElem hkb,
      Option.getD_some, BitVec.toNat_xor]
    exact Nat.xor_lt_two_pow (ha.words_lt _ (List.getElem_mem _)) (hb.words_lt _ (List.getElem_mem _))
  · intro p _ hp
    rw [Slot.exclusiveOr_numBits] at hp
    rw [hbits, ha.bit_of_ge hp, hb.bit_of_ge (by omega)]
    rfl

/-! ### Repeating-key XOR (43_xor.md R201) -/

@[simp] theorem Slot.keyedBytes_pad (W : Nat) (t k : Slot) (m : Nat) : (Slot.keyedBytes W t k m).pad = t.pad := by
  induction m with
  | zero => rfl
  | succ m ih => simp [Slot.keyedBytes, ih]

@[simp] theorem Slot.keyedBytes_numBits (V W : Nat) (t k : Slot) (m : Nat) :
    (Slot.keyedBytes W t k m).numBits V = t.numBits V := by
  induction m with
  | zero => rfl
  | succ m ih => simp [Slot.keyedBytes, ih]

/-- The first m bytes of the target are XORed with their key bytes; every lower bit is as before. -/
theorem Slot.keyedBytes_spec {c : Config} {t k : Slot} (hc : c.Valid) (ht : t.WF c) (m : Nat)
    (hm : m ≤ t.numBytes c.wordWidth) :
    (Slot.keyedBytes c.wordWidth t k m).WF c ∧
    (∀ i < m, ∀ j < 8, (Slot.keyedBytes c.wordWidth t k m).bit c.wordWidth (t.bytePos c.wordWidth i + j) =
      (t.bit c.wordWidth (t.bytePos c.wordWidth i + j) ^^
        k.bit c.wordWidth (k.bytePos c.wordWidth (i % k.numBytes c.wordWidth) + j))) ∧
    (∀ p, p + 8 * m < t.numBits c.wordWidth →
      (Slot.keyedBytes c.wordWidth t k m).bit c.wordWidth p = t.bit c.wordWidth p) := by
  induction m with
  | zero => exact ⟨ht, by simp, by simp [Slot.keyedBytes]⟩
  | succ m ih =>
    obtain ⟨hwf, hdone, hrest⟩ := ih (by omega)
    have hpos : (Slot.keyedBytes c.wordWidth t k m).bytePos c.wordWidth m = t.bytePos c.wordWidth m := by
      simp [Slot.bytePos]
    obtain ⟨hwf', hbits⟩ := Slot.byteWrite_spec (k := m)
      (v := t.byteRead c.wordWidth m ^^^ k.byteRead c.wordWidth (m % k.numBytes c.wordWidth)) hc hwf
      (by unfold Slot.numBytes at hm ⊢; simp; omega)
    rw [hpos] at hbits
    have hm' := Slot.bytePos_add (b := t) (W := c.wordWidth) (k := m) (by omega)
    refine ⟨hwf', fun i hi j hj => ?_, fun p hp => ?_⟩
    · have hi' := Slot.bytePos_add (b := t) (W := c.wordWidth) (k := i) (by omega)
      rw [Slot.keyedBytes, hbits]
      by_cases him : i = m
      · subst him
        rw [if_pos (by omega), Nat.testBit_xor, Nat.add_sub_cancel_left]
        simp only [Slot.byteRead, Slot.bitRead_testBit, hj, decide_true, Bool.true_and]
      · rw [if_neg (by omega)]
        exact hdone i (by omega) j hj
    · rw [Slot.keyedBytes, hbits, if_neg (by omega)]
      exact hrest p (by omega)

/-- All that the repeating-key XOR does: whole bytes are XORed with the key, the trailing bits stay, and the
canonical form is kept. -/
theorem Slot.repeatingKeyXor_spec {c : Config} {t k : Slot} (hc : c.Valid) (ht : t.WF c) :
    (t.repeatingKeyXor c.wordWidth k).WF c ∧
    (∀ i < t.numBytes c.wordWidth, ∀ j < 8,
      (t.repeatingKeyXor c.wordWidth k).bit c.wordWidth (t.bytePos c.wordWidth i + j) =
      (t.bit c.wordWidth (t.bytePos c.wordWidth i + j) ^^
        k.bit c.wordWidth (k.bytePos c.wordWidth (i % k.numBytes c.wordWidth) + j))) ∧
    (∀ p < t.numBits c.wordWidth % 8,
      (t.repeatingKeyXor c.wordWidth k).bit c.wordWidth p = t.bit c.wordWidth p) := by
  obtain ⟨h1, h2, h3⟩ := Slot.keyedBytes_spec (k := k) hc ht _ le_rfl
  refine ⟨h1, h2, fun p hp => h3 p ?_⟩
  unfold Slot.numBytes
  omega

@[simp] theorem Slot.repeatingKeyXor_pad (W : Nat) (t k : Slot) : (t.repeatingKeyXor W k).pad = t.pad := by
  simp [Slot.repeatingKeyXor]

@[simp] theorem Slot.repeatingKeyXor_numBits (V W : Nat) (t k : Slot) :
    (t.repeatingKeyXor W k).numBits V = t.numBits V := by
  simp [Slot.repeatingKeyXor]

/-! ### The storage as a whole -/

/-- Writing a slot in canonical form keeps the storage in canonical form. -/
theorem Memory.wf_set {c : Config} {m : Memory} (h : Memory.wf c m) (d : Nat) {b : Slot} (hb : b.WF c) :
    Memory.wf c (m.set d b) := by
  refine ⟨by simpa using h.1, fun x hx => ?_⟩
  rcases List.mem_or_eq_of_mem_set hx with hx | rfl
  · exact h.2 x hx
  · exact hb

/-- The storage after reset is in canonical form. -/
theorem Memory.wf_reset {c : Config} (h : c.Valid) : Memory.wf c (State.resetWith c).slots := by
  refine ⟨by simp, fun b hb => ?_⟩
  rw [State.resetWith] at hb
  rw [(List.mem_replicate.mp hb).2]
  exact Slot.empty_wf h

/-- Slot d of a storage in canonical form is in canonical form, whether d names a slot or not. -/
theorem State.slotAt_wf {s : State} (hc : s.cfg.Valid) (h : Memory.wf s.cfg s.slots) (d : Nat) :
    (s.slotAt d).WF s.cfg := by
  simp only [State.slotAt, List.getD_eq_getElem?_getD]
  by_cases hd : d < s.slots.length
  · simpa [hd] using h.2 _ (List.getElem_mem hd)
  · have : s.slots[d]? = none := by simpa using hd
    simpa [this] using Slot.empty_wf hc

end Sys2Proof.Machine
end

