-- ==== Sys2Proof/Laws/Commands.lean ====
section
/-! SUPPORT. What each shared operation of the commands can answer, said once, and the one inversion lemma of
`exec`: every command is `complete` on an error of its own list, a result, or one slot in canonical form. -/

namespace Sys2Proof.Machine

/-! ### Operands -/

@[simp] theorem State.operandArg_of_latch {s : State} {l : Latch} (h : s.latch = some l) : s.operandArg = l.arg := by
  simp [State.operandArg, h]

@[simp] theorem State.operandIdx_of_latch {s : State} {l : Latch} (h : s.latch = some l) :
    s.operandIdx = l.idx.toNat := by
  simp [State.operandIdx, h]

theorem State.operandArg_of_idle {s : State} (h : s.latch = none) : s.operandArg = s.arg := by
  simp [State.operandArg, h]

theorem State.operandIdx_of_idle {s : State} (h : s.latch = none) : s.operandIdx = s.idx.toNat := by
  simp [State.operandIdx, h]

theorem withSlot_of_lt {s : State} {d : Nat} (h : d < s.cfg.nbuf) (k : Slot → Except CmdError Effect) :
    withSlot s d k = k (s.slotAt d) := if_pos h

theorem withSlot_of_ge {s : State} {d : Nat} (h : s.cfg.nbuf ≤ d) (k : Slot → Except CmdError Effect) :
    withSlot s d k = .error .slot := if_neg (Nat.not_lt.mpr h)

theorem withWidth_of_le {c : Config} {width : Nat} (h : width ≤ c.wordWidth) (k : Except CmdError Effect) :
    withWidth c width k = k := if_neg (Nat.not_lt.mpr h)

theorem withWidth_of_gt {c : Config} {width : Nat} (h : c.wordWidth < width) (k : Except CmdError Effect) :
    withWidth c width k = .error .width := if_pos h

/-- A value has a bit at or above a width exactly if the shifted value is not 0 (41_buffer_access.md R124). -/
theorem shiftedOut_iff (v : BitVec 64) (width : Nat) :
    (width < 64 ∧ v >>> width ≠ 0) ↔ 2 ^ width ≤ v.toNat := by
  have hshift : v >>> width ≠ 0 ↔ 2 ^ width ≤ v.toNat := by
    rw [Ne, ← BitVec.toNat_inj]
    simp only [BitVec.toNat_ushiftRight, Nat.shiftRight_eq_div_pow]
    rw [show (0 : BitVec 64).toNat = 0 from rfl, Nat.div_eq_zero_iff]
    have := Nat.two_pow_pos width
    omega
  rw [hshift]
  refine ⟨fun h => h.2, fun h => ⟨?_, h⟩⟩
  by_contra hw
  have h1 : 2 ^ 64 ≤ 2 ^ width := Nat.pow_le_pow_right (by omega) (by omega)
  have h2 := v.isLt
  omega

/-! ### Completion -/

/-- A command ends in one of two ways, both a next state. -/
theorem complete_cases (s : State) (r : Except CmdError Effect) :
    (∃ e, r = .ok e ∧ complete s r = .next (s.apply e).succeed) ∨
    (∃ e, r = .error e ∧ complete s r = .next (s.raise e)) := by
  cases r with
  | ok e => exact .inl ⟨e, rfl, rfl⟩
  | error e => exact .inr ⟨e, rfl, rfl⟩

theorem CmdError.code_ne_zero (e : CmdError) : e.code ≠ 0 := by
  cases e <;> simp [CmdError.code]

theorem CmdError.code_le (e : CmdError) : e.code.toNat ≤ 10 := by
  cases e <;> simp [CmdError.code]

theorem CmdError.info_of_code_ne (e : CmdError) (h : e.code ≠ 5) : e.info = 0 := by
  cases e <;> first | rfl | exact absurd rfl h

theorem SameShell.refl (s : State) : SameShell s s := ⟨rfl, rfl, rfl, rfl, rfl, rfl, rfl, rfl⟩

/-- An error leaves everything but STATUS as it was (60_exceptions.md R221). -/
theorem FailsWith.of_raise (s : State) (e : CmdError) : FailsWith s (s.raise e) e.code e.info :=
  ⟨⟨rfl, rfl, rfl, rfl, rfl, rfl, rfl, rfl⟩, rfl, rfl, rfl, rfl, rfl, rfl, rfl⟩

/-- A success leaves the shell, and STICKY, as they were. -/
theorem EndsOk.of_apply (s : State) (f : Effect) : EndsOk s (s.apply f).succeed := by
  cases f <;> exact ⟨⟨rfl, rfl, rfl, rfl, rfl, rfl, rfl, rfl⟩, rfl, rfl, rfl, rfl, rfl⟩

theorem Fails.of_error {i : Instr} {s : State} {e : CmdError} (h : exec i s = complete s (.error e)) :
    Fails i s e.code e.info := ⟨_, h, FailsWith.of_raise s e⟩

theorem Returns.of_result {i : Instr} {s : State} {v : Nat} (h : exec i s = complete s (resultOf v)) :
    Returns i s v := ⟨_, h, EndsOk.of_apply s _, rfl, rfl⟩

/-- Storing slot d leaves every other slot and RESULT as they were. -/
theorem WritesOnly.of_store (s : State) (d : Nat) (b : Slot) :
    WritesOnly s (s.apply (.store d b)).succeed d := by
  refine ⟨EndsOk.of_apply s _, rfl, by simp, fun e he => ?_⟩
  simp [Ne.symm he]

/-- The slot stored is the slot then found. -/
theorem State.slotAt_store {s : State} {d : Nat} (h : d < s.slots.length) (b : Slot) :
    (s.apply (.store d b)).succeed.slotAt d = b := by
  rw [State.slotAt_congr (s.setSlot d b) (s.apply (.store d b)).succeed d rfl, State.slotAt_setSlot, if_pos ⟨rfl, h⟩]

/-- Slots other than the one stored. -/
theorem State.slotAt_store_ne {s : State} {d e : Nat} (h : d ≠ e) (b : Slot) :
    (s.apply (.store d b)).succeed.slotAt e = s.slotAt e := by
  rw [State.slotAt_congr (s.setSlot d b) (s.apply (.store d b)).succeed e rfl, State.slotAt_setSlot, if_neg (fun hh => h hh.1)]

theorem State.Inv.slot_lt {s : State} (h : s.Inv) {d : Nat} (hd : d < s.cfg.nbuf) : d < s.slots.length := by
  rw [h.2.1.1]
  exact hd

theorem State.Inv.slotAt_wf {s : State} (h : s.Inv) (d : Nat) : (s.slotAt d).WF s.cfg :=
  State.slotAt_wf h.1 h.2.1 d

theorem State.Inv.padBounded {s : State} (h : s.Inv) (d : Nat) : (s.slotAt d).PadBounded s.cfg := by
  simp only [State.slotAt, List.getD_eq_getElem?_getD]
  by_cases hd : d < s.slots.length
  · simpa [hd] using h.2.2.1 _ (List.getElem_mem hd)
  · have : s.slots[d]? = none := by simpa using hd
    simp [this, Slot.PadBounded]

/-! ### Appends -/

theorem storeAppend_full {c : Config} {d : Nat} {b : Slot} {w v : Nat} (h : c.cap < b.numBits c.wordWidth + w) :
    storeAppend c d b w v = .error .full := by
  simp [storeAppend, Slot.append_full h]

/-- `storeAppend` answers FULL or the grown slot. -/
theorem storeAppend_cases (c : Config) (d : Nat) (b : Slot) (w v : Nat) :
    storeAppend c d b w v = .error .full ∨
    ∃ b', b.append c w v = .ok b' ∧ storeAppend c d b w v = .ok (.store d b') := by
  rcases Slot.append_cases c b w v with ⟨h, -⟩ | ⟨b', h, -⟩
  · exact .inl (by simp [storeAppend, h])
  · exact .inr ⟨b', h, by simp [storeAppend, h]⟩

/-- A slot grown by Append, with this pad, stored as slot d: what the machine's slots then are. -/
theorem Appended.of_append {s : State} {d w v : Nat} {b' : Slot} (hs : s.Inv) (hd : d < s.cfg.nbuf)
    (h : (s.slotAt d).append s.cfg w v = .ok b') (pad : BitVec 32) :
    Appended s (s.apply (.store d { b' with pad := pad })).succeed d w v ∧
    (s.apply (.store d { b' with pad := pad })).succeed.padOf d = pad.toNat := by
  obtain ⟨-, hn, -, hold, hnew⟩ := Slot.append_spec hs.1 (hs.slotAt_wf d) h
  have hat := State.slotAt_store (hs.slot_lt hd) { b' with pad := pad }
  have hcfg : (s.apply (.store d { b' with pad := pad })).succeed.cfg = s.cfg := rfl
  refine ⟨⟨WritesOnly.of_store s d _, ?_, fun p hp => ?_, fun j hj => ?_⟩, ?_⟩
  · rw [State.numBitsOf, hat, hcfg]
    exact hn
  · rw [State.bitAt, hat, hcfg]
    exact hold p hp
  · rw [State.bitAt, hat, hcfg]
    exact hnew j hj
  · rw [State.padOf, hat]

/-- A command that is one Append completes when the bits fit (20_memory.md R54). -/
theorem Appended.of_storeAppend {i : Instr} {s : State} {d w v : Nat} (hs : s.Inv) (hd : d < s.cfg.nbuf)
    (h : exec i s = complete s (storeAppend s.cfg d (s.slotAt d) w v)) (hfit : s.numBitsOf d + w ≤ s.cfg.cap) :
    ∃ t, exec i s = .next t ∧ Appended s t d w v ∧ t.padOf d = s.padOf d := by
  obtain ⟨b', hb'⟩ := Slot.append_fits (v := v) hfit
  have hpad := (Slot.append_spec hs.1 (hs.slotAt_wf d) hb').2.2.1
  have := Appended.of_append hs hd hb' b'.pad
  refine ⟨_, by rw [h, storeAppend, hb']; rfl, this.1, ?_⟩
  exact this.2.trans (congrArg BitVec.toNat hpad)

/-- Appending keeps the padding bound. -/
theorem Slot.PadBounded.append {c : Config} {b b' : Slot} {w v : Nat} (hc : c.Valid) (hb : b.WF c)
    (hp : b.PadBounded c) (h : b.append c w v = .ok b') : b'.PadBounded c := by
  obtain ⟨-, hn, hpad, -⟩ := Slot.append_spec hc hb h
  unfold Slot.PadBounded at *
  rw [hn, hpad]
  omega

/-- A padding character's group with its 8 more padding bits keeps the padding bound and never overflows the
counter (92_eei_decisions.md D33). -/
theorem Slot.pad_add_eight {c : Config} {b b' : Slot} {v : Nat} (hc : c.Valid) (hb : b.WF c)
    (hp : b.PadBounded c) (h : b.append c 6 v = .ok b') :
    (b'.pad + 8).toNat = b.pad.toNat + 8 ∧ 3 * (b.pad.toNat + 8) ≤ 4 * b'.numBits c.wordWidth := by
  obtain ⟨hwf, hn, hpad, -⟩ := Slot.append_spec hc hb h
  have hcap := hwf.numBits_le_cap
  have h31 := (Config.Valid.cap_lt hc).2
  unfold Slot.PadBounded at hp
  rw [hn] at hcap ⊢
  rw [hpad, BitVec.toNat_add, show (8 : BitVec 32).toNat = 8 from rfl]
  omega

/-! ### The one inversion lemma of `exec` -/

/-- What a command hands to `complete`: an error of its own list (60_exceptions.md R223), nothing, a result if it
is one of those that write RESULT (10_state.md R34), or its target slot, in canonical form. -/
structure Legal (i : Instr) (s : State) (r : Except CmdError Effect) : Prop where
  error : ∀ e, r = .error e → e.code ∈ i.errorCodes
  result : ∀ v, r = .ok (.result v) → i.writesResult = true
  store : ∀ d b, r = .ok (.store d b) → i.target = some d ∧ (s.Inv → b.WF s.cfg ∧ b.PadBounded s.cfg)

theorem Legal.of_error {i : Instr} {s : State} {e : CmdError} (h : e.code ∈ i.errorCodes) :
    Legal i s (.error e) :=
  ⟨fun _ he => (Except.error.inj he) ▸ h, nofun, nofun⟩

theorem Legal.of_result {i : Instr} {s : State} {v : Nat} (h : i.writesResult = true) :
    Legal i s (resultOf v) :=
  ⟨nofun, fun _ _ => h, nofun⟩

theorem Legal.of_nothing {i : Instr} {s : State} : Legal i s (.ok .nothing) :=
  ⟨nofun, nofun, nofun⟩

theorem Legal.of_store {i : Instr} {s : State} {d : Nat} {b : Slot} (ht : i.target = some d)
    (h : s.Inv → b.WF s.cfg ∧ b.PadBounded s.cfg) : Legal i s (.ok (.store d b)) :=
  ⟨nofun, nofun, fun _ _ hb => by
    cases hb
    exact ⟨ht, h⟩⟩

theorem Legal.withSlot {i : Instr} {s : State} {d : Nat} {k : Slot → Except CmdError Effect}
    (h2 : 2 ∈ i.errorCodes) (hk : Legal i s (k (s.slotAt d))) : Legal i s (withSlot s d k) := by
  unfold Machine.withSlot
  split
  · exact hk
  · exact Legal.of_error h2

theorem Legal.withWidth {i : Instr} {s : State} {width : Nat} {k : Except CmdError Effect}
    (h3 : 3 ∈ i.errorCodes) (hk : Legal i s k) : Legal i s (withWidth s.cfg width k) := by
  unfold Machine.withWidth
  split
  · exact Legal.of_error h3
  · exact hk

theorem Legal.storeAppend {i : Instr} {s : State} {d w v : Nat} (h10 : 10 ∈ i.errorCodes)
    (ht : i.target = some d) : Legal i s (storeAppend s.cfg d (s.slotAt d) w v) := by
  rcases storeAppend_cases s.cfg d (s.slotAt d) w v with h | ⟨b', hb', h⟩
  · rw [h]
    exact Legal.of_error h10
  · rw [h]
    exact Legal.of_store ht fun hs => ⟨(Slot.append_spec hs.1 (hs.slotAt_wf d) hb').1,
      Slot.PadBounded.append hs.1 (hs.slotAt_wf d) (hs.padBounded d) hb'⟩

theorem Legal.decodeChar {i : Instr} {s : State} {d g : Nat} {c : Byte} {value : Option Nat}
    (h2 : 2 ∈ i.errorCodes) (h5 : value = none → 5 ∈ i.errorCodes) (h10 : 10 ∈ i.errorCodes)
    (ht : i.target = some d) : Legal i s (decodeChar s d g c value) := by
  refine Legal.withSlot h2 ?_
  cases value with
  | some v => exact Legal.storeAppend h10 ht
  | none => exact Legal.of_error (h5 rfl)

theorem Legal.appendPadding {i : Instr} {s : State} {d : Nat} (h10 : 10 ∈ i.errorCodes)
    (ht : i.target = some d) : Legal i s (appendPadding s.cfg d (s.slotAt d)) := by
  rcases Slot.append_cases s.cfg (s.slotAt d) 6 0 with ⟨h, -⟩ | ⟨b', h, -⟩
  · simp only [Machine.appendPadding, h]
    exact Legal.of_error h10
  · simp only [Machine.appendPadding, h]
    refine Legal.of_store ht fun hs => ⟨(Slot.append_spec hs.1 (hs.slotAt_wf d) h).1, ?_⟩
    obtain ⟨hadd, hle⟩ := Slot.pad_add_eight hs.1 (hs.slotAt_wf d) (hs.padBounded d) h
    show 3 * (b'.pad + 8).toNat ≤ 4 * b'.numBits s.cfg.wordWidth
    rw [hadd]
    exact hle

theorem Legal.renderLength {i : Instr} {s : State} {m g : Nat} (h9 : m % g = 0 ∨ 9 ∈ i.errorCodes)
    (hr : i.writesResult = true) : Legal i s (renderLength m g) := by
  unfold Machine.renderLength
  split
  · exact Legal.of_error (h9.resolve_left ‹_›)
  · exact Legal.of_result hr

theorem Legal.renderChar {i : Instr} {s : State} {m g k : Nat} {c : Byte} (h9 : 9 ∈ i.errorCodes)
    (h6 : 6 ∈ i.errorCodes) (hr : i.writesResult = true) : Legal i s (renderChar m g k c) := by
  unfold Machine.renderChar
  split
  · exact Legal.of_error h9
  · split
    · exact Legal.of_error h6
    · exact Legal.of_result hr

theorem Legal.charToValue {i : Instr} {s : State} {value : Option Nat} {c : Byte} (h5 : 5 ∈ i.errorCodes)
    (hr : i.writesResult = true) : Legal i s (charToValue value c) := by
  cases value with
  | some v => exact Legal.of_result hr
  | none => exact Legal.of_error h5

theorem Legal.valueToChar {i : Instr} {s : State} {limit n : Nat} {c : Byte} (h4 : 4 ∈ i.errorCodes)
    (hr : i.writesResult = true) : Legal i s (valueToChar limit n c) := by
  unfold Machine.valueToChar
  split
  · exact Legal.of_error h4
  · exact Legal.of_result hr

theorem Legal.ite {i : Instr} {s : State} {p : Prop} [Decidable p] {a b : Except CmdError Effect}
    (ha : p → Legal i s a) (hb : ¬ p → Legal i s b) : Legal i s (if p then a else b) := by
  split
  · exact ha ‹_›
  · exact hb ‹_›

theorem listed {i : Instr} {e : BitVec 4} (h : i.errorCodes.contains e = true) : e ∈ i.errorCodes := by
  simpa using h

/-- Every command is `complete` on a legal answer. -/
theorem exec_legal (i : Instr) (s : State) : ∃ r, exec i s = complete s r ∧ Legal i s r := by
  cases i with
  | clear d =>
    exact ⟨_, rfl, .withSlot (listed rfl) (.of_store rfl fun hs =>
      ⟨Slot.empty_wf hs.1, by simp [Slot.PadBounded]⟩)⟩
  | addbit d bit => exact ⟨_, rfl, .withSlot (listed rfl) (.storeAppend (listed rfl) rfl)⟩
  | addbits d width =>
    exact ⟨_, rfl, .withSlot (listed rfl) (.withWidth (listed rfl)
      (.ite (fun _ => .of_error (listed rfl)) fun _ => .storeAppend (listed rfl) rfl))⟩
  | getbits d width =>
    exact ⟨_, rfl, .withSlot (listed rfl) (.withWidth (listed rfl)
      (.ite (fun _ => .of_error (listed rfl)) fun _ => .of_result rfl))⟩
  | getbyte d =>
    exact ⟨_, rfl, .withSlot (listed rfl) (.ite (fun _ => .of_error (listed rfl)) fun _ => .of_result rfl)⟩
  | setbyte d byte =>
    refine ⟨_, rfl, .withSlot (listed rfl) (.ite (fun _ => .of_error (listed rfl)) fun h =>
      .of_store rfl fun hs => ⟨(Slot.byteWrite_spec hs.1 (hs.slotAt_wf d) (Nat.not_le.mp h)).1, ?_⟩)⟩
    simpa [Slot.PadBounded] using hs.padBounded d
  | numbits d => exact ⟨_, rfl, .withSlot (listed rfl) (.of_result rfl)⟩
  | numbytes d => exact ⟨_, rfl, .withSlot (listed rfl) (.of_result rfl)⟩
  | padbits d => exact ⟨_, rfl, .withSlot (listed rfl) (.of_result rfl)⟩
  | decBin d c => exact ⟨_, rfl, .decodeChar (listed rfl) (fun _ => listed rfl) (listed rfl) rfl⟩
  | decHex d c => exact ⟨_, rfl, .decodeChar (listed rfl) (fun _ => listed rfl) (listed rfl) rfl⟩
  | decB64 d c =>
    exact ⟨_, rfl, .ite (fun _ => .withSlot (listed rfl) .of_nothing) fun _ =>
      .ite (fun _ => .withSlot (listed rfl) (.appendPadding (listed rfl) rfl)) fun _ =>
        .decodeChar (listed rfl) (fun _ => listed rfl) (listed rfl) rfl⟩
  | decAsc d c => exact ⟨_, rfl, .decodeChar (listed rfl) (fun h => by cases h) (listed rfl) rfl⟩
  | enclenBin d => exact ⟨_, rfl, .withSlot (listed rfl) (.of_result rfl)⟩
  | encBin d =>
    exact ⟨_, rfl, .withSlot (listed rfl) (.ite (fun _ => .of_error (listed rfl)) fun _ => .of_result rfl)⟩
  | enclenHex d => exact ⟨_, rfl, .withSlot (listed rfl) (.renderLength (.inr (listed rfl)) rfl)⟩
  | encHex d => exact ⟨_, rfl, .withSlot (listed rfl) (.renderChar (listed rfl) (listed rfl) rfl)⟩
  | enclenB64 d => exact ⟨_, rfl, .withSlot (listed rfl) (.renderLength (.inr (listed rfl)) rfl)⟩
  | encB64 d => exact ⟨_, rfl, .withSlot (listed rfl) (.renderChar (listed rfl) (listed rfl) rfl)⟩
  | enclenAsc d => exact ⟨_, rfl, .withSlot (listed rfl) (.renderLength (.inr (listed rfl)) rfl)⟩
  | encAsc d => exact ⟨_, rfl, .withSlot (listed rfl) (.renderChar (listed rfl) (listed rfl) rfl)⟩
  | xor d a b =>
    refine ⟨_, rfl, .withSlot (listed rfl) (.withSlot (listed rfl) (.withSlot (listed rfl)
      (.ite (fun _ => .of_error (listed rfl)) fun h => .of_store rfl fun hs =>
        ⟨(Slot.exclusiveOr_spec (hs.slotAt_wf a) (hs.slotAt_wf b) (not_not.mp h)).1, ?_⟩)))⟩
    simpa [Slot.PadBounded] using hs.padBounded a
  | rkxor d a =>
    refine ⟨_, rfl, .withSlot (listed rfl) (.withSlot (listed rfl)
      (.ite (fun _ => .of_error (listed rfl)) fun h => .of_store rfl fun hs =>
        ⟨(Slot.repeatingKeyXor_spec hs.1 (hs.slotAt_wf d)).1, ?_⟩))⟩
    simpa [Slot.PadBounded] using hs.padBounded d
  | c2vHex c => exact ⟨_, rfl, .charToValue (listed rfl) rfl⟩
  | v2cHex n => exact ⟨_, rfl, .valueToChar (listed rfl) rfl⟩
  | c2vB64 c => exact ⟨_, rfl, .charToValue (listed rfl) rfl⟩
  | v2cB64 n => exact ⟨_, rfl, .valueToChar (listed rfl) rfl⟩

/-! ### What a command reads -/

theorem withSlot_congr {s t : State} (hc : t.cfg = s.cfg) (hs : t.slots = s.slots) (d : Nat)
    (k : Slot → Except CmdError Effect) : withSlot t d k = withSlot s d k := by
  rw [withSlot, withSlot, hc, State.slotAt_congr s t d hs]

theorem decodeChar_congr {s t : State} (hc : t.cfg = s.cfg) (hs : t.slots = s.slots) (d g : Nat) (c : Byte)
    (value : Option Nat) : decodeChar t d g c value = decodeChar s d g c value := by
  rw [decodeChar, decodeChar, withSlot_congr hc hs, hc]

/-- A command reads the slots, the configuration and its operands, and nothing else (30_encoding.md R73): two
states that agree on these are completed with the same answer. -/
theorem exec_congr (i : Instr) {s t : State} (hc : t.cfg = s.cfg) (hs : t.slots = s.slots)
    (ha : t.operandArg = s.operandArg) (hi : t.operandIdx = s.operandIdx) :
    ∃ r, exec i s = complete s r ∧ exec i t = complete t r := by
  cases i <;>
    refine ⟨_, rfl, ?_⟩ <;>
    refine congrArg (complete t) ?_ <;>
    simp only [withSlot_congr hc hs, decodeChar_congr hc hs, hc, ha, hi]

end Sys2Proof.Machine
end

