-- ==== Sys2Proof/Laws/Encoding.lean ====
section
/-! SUPPORT. The fields of a command word and the word are the same data (30_encoding.md R70). -/

namespace Sys2Proof

/-- The word's fields, put together again, are the word. -/
@[simp] theorem Fields.toWord_ofWord (w : CommandWord) : (Fields.ofWord w).toWord = w := by
  apply BitVec.eq_of_getLsbD_eq
  intro i hi
  simp only [Fields.toWord, Fields.ofWord, BitVec.getLsbD_append, BitVec.getLsbD_extractLsb']
  by_cases h0 : i < 8
  · simp [h0]
  by_cases h1 : i < 12
  · simp [h0, show i - 8 < 4 by omega, show 8 + (i - 8) = i by omega]
  by_cases h2 : i < 16
  · simp [h0, show ¬ i - 8 < 4 by omega, show i - 8 - 4 < 4 by omega, show 12 + (i - 8 - 4) = i by omega]
  by_cases h3 : i < 20
  · simp [h0, show ¬ i - 8 < 4 by omega, show ¬ i - 8 - 4 < 4 by omega, show i - 8 - 4 - 4 < 4 by omega,
      show 16 + (i - 8 - 4 - 4) = i by omega]
  by_cases h4 : i < 28
  · simp [h0, show ¬ i - 8 < 4 by omega, show ¬ i - 8 - 4 < 4 by omega, show ¬ i - 8 - 4 - 4 < 4 by omega,
      show i - 8 - 4 - 4 - 4 < 8 by omega, show 20 + (i - 8 - 4 - 4 - 4) = i by omega]
  · simp [h0, show ¬ i - 8 < 4 by omega, show ¬ i - 8 - 4 < 4 by omega, show ¬ i - 8 - 4 - 4 < 4 by omega,
      show ¬ i - 8 - 4 - 4 - 4 < 8 by omega, show i - 8 - 4 - 4 - 4 - 8 < 4 by omega,
      show 28 + (i - 8 - 4 - 4 - 4 - 8) = i by omega]

/-- The fields of a word put together from fields are those fields. -/
@[simp] theorem Fields.ofWord_toWord (f : Fields) : Fields.ofWord f.toWord = f := by
  obtain ⟨op, d, a, b, imm8, rsv⟩ := f
  simp only [Fields.toWord, Fields.ofWord, Fields.mk.injEq]
  refine ⟨?_, ?_, ?_, ?_, ?_, ?_⟩
  all_goals
    apply BitVec.eq_of_getLsbD_eq
    intro i hi
    simp only [BitVec.getLsbD_append, BitVec.getLsbD_extractLsb']
  · simp [hi]
  · simp [hi, show ¬ 8 + i < 8 by omega]
  · simp [hi, show ¬ 12 + i < 8 by omega, show ¬ 12 + i - 8 < 4 by omega, show 12 + i - 8 - 4 = i by omega]
  · simp [hi, show ¬ 16 + i < 8 by omega, show ¬ 16 + i - 8 < 4 by omega, show ¬ 16 + i - 8 - 4 < 4 by omega,
      show 16 + i - 8 - 4 - 4 = i by omega]
  · simp [hi, show ¬ 20 + i < 8 by omega, show ¬ 20 + i - 8 < 4 by omega, show ¬ 20 + i - 8 - 4 < 4 by omega,
      show ¬ 20 + i - 8 - 4 - 4 < 4 by omega, show 20 + i - 8 - 4 - 4 - 4 = i by omega]
  · simp [hi, show ¬ 28 + i < 8 by omega, show ¬ 28 + i - 8 < 4 by omega, show ¬ 28 + i - 8 - 4 < 4 by omega,
      show ¬ 28 + i - 8 - 4 - 4 < 4 by omega, show ¬ 28 + i - 8 - 4 - 4 - 4 < 8 by omega,
      show 28 + i - 8 - 4 - 4 - 4 - 8 = i by omega]

/-- What the strict check of a row answers (30_encoding.md R76). -/
theorem checkRow_eq_ok_iff (f : Fields) (ok : Bool) (i j : Instr) :
    checkRow f ok i = .ok j ↔ f.rsv = 0 ∧ ok = true ∧ i = j := by
  unfold checkRow
  by_cases h : f.rsv = 0#4
  · cases ok <;> simp [h]
  · simp [h]

/-- Two words are equal exactly if their fields are. -/
theorem Fields.ofWord_inj (w v : CommandWord) : Fields.ofWord w = Fields.ofWord v ↔ w = v :=
  ⟨fun h => by rw [← Fields.toWord_ofWord w, h, Fields.toWord_ofWord], fun h => by rw [h]⟩

/-- The fields of a masked word are the masked fields. -/
theorem Fields.ofWord_and (w m : CommandWord) :
    Fields.ofWord (w &&& m) =
      { op := (Fields.ofWord w).op &&& (Fields.ofWord m).op
        d := (Fields.ofWord w).d &&& (Fields.ofWord m).d
        a := (Fields.ofWord w).a &&& (Fields.ofWord m).a
        b := (Fields.ofWord w).b &&& (Fields.ofWord m).b
        imm8 := (Fields.ofWord w).imm8 &&& (Fields.ofWord m).imm8
        rsv := (Fields.ofWord w).rsv &&& (Fields.ofWord m).rsv } := by
  simp only [Fields.ofWord, Fields.mk.injEq]
  refine ⟨?_, ?_, ?_, ?_, ?_, ?_⟩
  all_goals
    apply BitVec.eq_of_getLsbD_eq
    intro i hi
    simp [hi]

/-- A word spells a row exactly if its masked fields are the row's (30_encoding.md R75). -/
theorem OpcodeRow.spells_iff (r : OpcodeRow) (w : CommandWord) :
    r.Spells w ↔
      (Fields.ofWord w).op &&& (Fields.ofWord r.mask).op = (Fields.ofWord r.pattern).op ∧
      (Fields.ofWord w).d &&& (Fields.ofWord r.mask).d = (Fields.ofWord r.pattern).d ∧
      (Fields.ofWord w).a &&& (Fields.ofWord r.mask).a = (Fields.ofWord r.pattern).a ∧
      (Fields.ofWord w).b &&& (Fields.ofWord r.mask).b = (Fields.ofWord r.pattern).b ∧
      (Fields.ofWord w).imm8 &&& (Fields.ofWord r.mask).imm8 = (Fields.ofWord r.pattern).imm8 ∧
      (Fields.ofWord w).rsv &&& (Fields.ofWord r.mask).rsv = (Fields.ofWord r.pattern).rsv := by
  rw [OpcodeRow.Spells, ← Fields.ofWord_inj, Fields.ofWord_and]
  exact Fields.mk.injEq .. ▸ Iff.rfl

end Sys2Proof
end

