-- ==== Sys2Proof/Laws/Macro.lean ====
section
/-! SUPPORT. The host macros: what one transaction of a macro can do, and what a string encode ends with
(30_encoding.md R82, 42_format_codecs.md R180). -/

namespace Sys2Proof.Machine

/-! ### Operands -/

@[simp] theorem State.withOperands_plain (s : State) (i : Instr) : s.withOperands (Transaction.plain i) = s := rfl

@[simp] theorem State.withOperands_indexed (s : State) (i : Instr) (k : Nat) :
    s.withOperands (Transaction.indexed i k) = { s with idx := BitVec.ofNat 32 k } := rfl

theorem transact_plain (i : Instr) (s : State) : transact (Transaction.plain i) s = exec i s := rfl

theorem transact_indexed (i : Instr) (k : Nat) (s : State) :
    transact (Transaction.indexed i k) s = exec i { s with idx := BitVec.ofNat 32 k } := rfl

/-! ### One transaction of a macro -/

/-- A transaction always completes (60_exceptions.md R224). -/
theorem transact_next (t : Transaction) (s : State) : ∃ s', transact t s = .next s' := by
  obtain ⟨r, h, -⟩ := exec_legal t.cmd (s.withOperands t)
  cases r with
  | ok f => exact ⟨_, h⟩
  | error e => exact ⟨_, h⟩

theorem transactThen_of_ok {α : Type} {t : Transaction} {s s' : State} (h : transact t s = .next s')
    (hz : s'.lastErr = 0) (failed k : State → Host.Outcome α Fault Refusal) :
    transactThen t s failed k = k s' := by
  simp only [transactThen, h, if_pos hz]

theorem transactThen_of_error {α : Type} {t : Transaction} {s s' : State} (h : transact t s = .next s')
    (hz : s'.lastErr ≠ 0) (failed k : State → Host.Outcome α Fault Refusal) :
    transactThen t s failed k = failed s' := by
  simp only [transactThen, h, if_neg hz]

/-- All that one transaction of a macro can do: the host goes on from the state it leaves, or ends with it. -/
theorem transactThen_cases {α : Type} (t : Transaction) (s : State)
    (failed k : State → Host.Outcome α Fault Refusal) :
    ∃ s', transact t s = .next s' ∧
      ((s'.lastErr = 0 ∧ transactThen t s failed k = k s') ∨
       (s'.lastErr ≠ 0 ∧ transactThen t s failed k = failed s')) := by
  obtain ⟨s', h⟩ := transact_next t s
  by_cases hz : s'.lastErr = 0
  · exact ⟨s', h, .inl ⟨hz, transactThen_of_ok h hz failed k⟩⟩
  · exact ⟨s', h, .inr ⟨hz, transactThen_of_error h hz failed k⟩⟩

/-! ### String encodes -/

@[simp] theorem prependCharacter_text (c : Byte) (cs : List Byte) (s : State) :
    prependCharacter c (.next (.text cs s)) = .next (.text (c :: cs) s) := rfl

@[simp] theorem prependCharacter_failed (c : Byte) (code : BitVec 4) (s : State) :
    prependCharacter c (.next (.failed code s)) = .next (.failed code s) := rfl

/-- All that reading m characters can end with: m characters, or the LAST_ERR of the command that failed, in the
state that command left. -/
theorem readText_cases (char : Instr) (m k : Nat) (s : State) :
    (∃ cs u, readText char m k s = .next (.text cs u) ∧ cs.length = m) ∨
    (∃ u, readText char m k s = encodeFails u ∧ u.lastErr ≠ 0) := by
  induction m generalizing k s with
  | zero => exact .inl ⟨[], s, rfl, rfl⟩
  | succ m ih =>
    rcases transactThen_cases (Transaction.indexed char k) s encodeFails
        (fun s' => prependCharacter (s'.result.setWidth 8) (readText char m (k + 1) s')) with
      ⟨s', -, ⟨-, h⟩ | ⟨hz, h⟩⟩
    · rcases ih (k + 1) s' with ⟨cs, u, hr, hl⟩ | ⟨u, hr, hz⟩
      · exact .inl ⟨s'.result.setWidth 8 :: cs, u, by rw [readText, h, hr, prependCharacter_text], by simp [hl]⟩
      · exact .inr ⟨u, by rw [readText, h, hr]; rfl, hz⟩
    · exact .inr ⟨s', h, hz⟩

end Sys2Proof.Machine
end

