-- ==== Sys2Proof/Laws/PerInstr.lean ====
section
/-! SUPPORT. One lemma per command: its command word spells its own row of the opcode map (30_encoding.md R75). -/

namespace Sys2Proof

/-- A well-formed command's word spells the row of the opcode map that has the command's mnemonic (30_encoding.md
R75, R76). -/
def Laws.EncodesItsRow.Statement (i : Instr) : Prop :=
  i.WellFormed = true → ∃ r ∈ opcodeRows, r.mnemonic = i.mnemonic ∧ r.Spells (encode i)

/-- A row spells a command's word when the command's fields, masked, are the row's. -/
theorem Laws.EncodesItsRow.of_fields {i : Instr} {r : OpcodeRow} (hr : r ∈ opcodeRows) (hm : r.mnemonic = i.mnemonic)
    (h : (encodeFields i).op &&& (Fields.ofWord r.mask).op = (Fields.ofWord r.pattern).op ∧
      (encodeFields i).d &&& (Fields.ofWord r.mask).d = (Fields.ofWord r.pattern).d ∧
      (encodeFields i).a &&& (Fields.ofWord r.mask).a = (Fields.ofWord r.pattern).a ∧
      (encodeFields i).b &&& (Fields.ofWord r.mask).b = (Fields.ofWord r.pattern).b ∧
      (encodeFields i).imm8 &&& (Fields.ofWord r.mask).imm8 = (Fields.ofWord r.pattern).imm8 ∧
      (encodeFields i).rsv &&& (Fields.ofWord r.mask).rsv = (Fields.ofWord r.pattern).rsv) :
    ∃ r ∈ opcodeRows, r.mnemonic = i.mnemonic ∧ r.Spells (encode i) :=
  ⟨r, hr, hm, (OpcodeRow.spells_iff r _).mpr (by rw [encode, Fields.ofWord_toWord]; exact h)⟩

theorem Laws.EncodesItsRow.clear (d : Nat) : Laws.EncodesItsRow.Statement (.clear d) :=
  fun _ => Laws.EncodesItsRow.of_fields
    (r := { mnemonic := "CLEAR", pattern := 0x00000001#32, mask := 0xFFFFF0FF#32 })
    (by decide) rfl (by simp [encodeFields, Fields.forDImm, Instr.opcode, Fields.ofWord])

theorem Laws.EncodesItsRow.addbit (d : Nat) (bit : Bool) : Laws.EncodesItsRow.Statement (.addbit d bit) :=
  fun _ => Laws.EncodesItsRow.of_fields
    (r := { mnemonic := "ADDBIT", pattern := 0x00000002#32, mask := 0xFFEFF0FF#32 })
    (by decide) rfl (by cases bit <;> simp [encodeFields, Fields.forDImm, Instr.opcode, Fields.ofWord])

theorem Laws.EncodesItsRow.addbits (d : Nat) (width : Nat) : Laws.EncodesItsRow.Statement (.addbits d width) :=
  fun _ => Laws.EncodesItsRow.of_fields
    (r := { mnemonic := "ADDBITS", pattern := 0x00000003#32, mask := 0xF00FF0FF#32 })
    (by decide) rfl (by simp [encodeFields, Fields.forDImm, Instr.opcode, Fields.ofWord])

theorem Laws.EncodesItsRow.getbits (d : Nat) (width : Nat) : Laws.EncodesItsRow.Statement (.getbits d width) :=
  fun _ => Laws.EncodesItsRow.of_fields
    (r := { mnemonic := "GETBITS", pattern := 0x00000004#32, mask := 0xF00FF0FF#32 })
    (by decide) rfl (by simp [encodeFields, Fields.forDImm, Instr.opcode, Fields.ofWord])

theorem Laws.EncodesItsRow.getbyte (d : Nat) : Laws.EncodesItsRow.Statement (.getbyte d) :=
  fun _ => Laws.EncodesItsRow.of_fields
    (r := { mnemonic := "GETBYTE", pattern := 0x00000005#32, mask := 0xFFFFF0FF#32 })
    (by decide) rfl (by simp [encodeFields, Fields.forDImm, Instr.opcode, Fields.ofWord])

theorem Laws.EncodesItsRow.setbyte (d : Nat) (byte : Byte) : Laws.EncodesItsRow.Statement (.setbyte d byte) :=
  fun _ => Laws.EncodesItsRow.of_fields
    (r := { mnemonic := "SETBYTE", pattern := 0x00000006#32, mask := 0xF00FF0FF#32 })
    (by decide) rfl (by simp [encodeFields, Fields.forDImm, Instr.opcode, Fields.ofWord])

theorem Laws.EncodesItsRow.numbits (d : Nat) : Laws.EncodesItsRow.Statement (.numbits d) :=
  fun _ => Laws.EncodesItsRow.of_fields
    (r := { mnemonic := "NUMBITS", pattern := 0x00000007#32, mask := 0xFFFFF0FF#32 })
    (by decide) rfl (by simp [encodeFields, Fields.forDImm, Instr.opcode, Fields.ofWord])

theorem Laws.EncodesItsRow.numbytes (d : Nat) : Laws.EncodesItsRow.Statement (.numbytes d) :=
  fun _ => Laws.EncodesItsRow.of_fields
    (r := { mnemonic := "NUMBYTES", pattern := 0x00000008#32, mask := 0xFFFFF0FF#32 })
    (by decide) rfl (by simp [encodeFields, Fields.forDImm, Instr.opcode, Fields.ofWord])

theorem Laws.EncodesItsRow.padbits (d : Nat) : Laws.EncodesItsRow.Statement (.padbits d) :=
  fun _ => Laws.EncodesItsRow.of_fields
    (r := { mnemonic := "PADBITS", pattern := 0x00000009#32, mask := 0xFFFFF0FF#32 })
    (by decide) rfl (by simp [encodeFields, Fields.forDImm, Instr.opcode, Fields.ofWord])

theorem Laws.EncodesItsRow.decBin (d : Nat) (c : Byte) : Laws.EncodesItsRow.Statement (.decBin d c) :=
  fun _ => Laws.EncodesItsRow.of_fields
    (r := { mnemonic := "DEC_BIN", pattern := 0x00000010#32, mask := 0xF00FF0FF#32 })
    (by decide) rfl (by simp [encodeFields, Fields.forDImm, Instr.opcode, Fields.ofWord])

theorem Laws.EncodesItsRow.decHex (d : Nat) (c : Byte) : Laws.EncodesItsRow.Statement (.decHex d c) :=
  fun _ => Laws.EncodesItsRow.of_fields
    (r := { mnemonic := "DEC_HEX", pattern := 0x00000011#32, mask := 0xF00FF0FF#32 })
    (by decide) rfl (by simp [encodeFields, Fields.forDImm, Instr.opcode, Fields.ofWord])

theorem Laws.EncodesItsRow.decB64 (d : Nat) (c : Byte) : Laws.EncodesItsRow.Statement (.decB64 d c) :=
  fun _ => Laws.EncodesItsRow.of_fields
    (r := { mnemonic := "DEC_B64", pattern := 0x00000012#32, mask := 0xF00FF0FF#32 })
    (by decide) rfl (by simp [encodeFields, Fields.forDImm, Instr.opcode, Fields.ofWord])

theorem Laws.EncodesItsRow.decAsc (d : Nat) (c : Byte) : Laws.EncodesItsRow.Statement (.decAsc d c) :=
  fun _ => Laws.EncodesItsRow.of_fields
    (r := { mnemonic := "DEC_ASC", pattern := 0x00000013#32, mask := 0xF00FF0FF#32 })
    (by decide) rfl (by simp [encodeFields, Fields.forDImm, Instr.opcode, Fields.ofWord])

theorem Laws.EncodesItsRow.enclenBin (d : Nat) : Laws.EncodesItsRow.Statement (.enclenBin d) :=
  fun _ => Laws.EncodesItsRow.of_fields
    (r := { mnemonic := "ENCLEN_BIN", pattern := 0x00000018#32, mask := 0xFFFFF0FF#32 })
    (by decide) rfl (by simp [encodeFields, Fields.forDImm, Instr.opcode, Fields.ofWord])

theorem Laws.EncodesItsRow.encBin (d : Nat) : Laws.EncodesItsRow.Statement (.encBin d) :=
  fun _ => Laws.EncodesItsRow.of_fields
    (r := { mnemonic := "ENC_BIN", pattern := 0x00000019#32, mask := 0xFFFFF0FF#32 })
    (by decide) rfl (by simp [encodeFields, Fields.forDImm, Instr.opcode, Fields.ofWord])

theorem Laws.EncodesItsRow.enclenHex (d : Nat) : Laws.EncodesItsRow.Statement (.enclenHex d) :=
  fun _ => Laws.EncodesItsRow.of_fields
    (r := { mnemonic := "ENCLEN_HEX", pattern := 0x0000001A#32, mask := 0xFFFFF0FF#32 })
    (by decide) rfl (by simp [encodeFields, Fields.forDImm, Instr.opcode, Fields.ofWord])

theorem Laws.EncodesItsRow.encHex (d : Nat) : Laws.EncodesItsRow.Statement (.encHex d) :=
  fun _ => Laws.EncodesItsRow.of_fields
    (r := { mnemonic := "ENC_HEX", pattern := 0x0000001B#32, mask := 0xFFFFF0FF#32 })
    (by decide) rfl (by simp [encodeFields, Fields.forDImm, Instr.opcode, Fields.ofWord])

theorem Laws.EncodesItsRow.enclenB64 (d : Nat) : Laws.EncodesItsRow.Statement (.enclenB64 d) :=
  fun _ => Laws.EncodesItsRow.of_fields
    (r := { mnemonic := "ENCLEN_B64", pattern := 0x0000001C#32, mask := 0xFFFFF0FF#32 })
    (by decide) rfl (by simp [encodeFields, Fields.forDImm, Instr.opcode, Fields.ofWord])

theorem Laws.EncodesItsRow.encB64 (d : Nat) : Laws.EncodesItsRow.Statement (.encB64 d) :=
  fun _ => Laws.EncodesItsRow.of_fields
    (r := { mnemonic := "ENC_B64", pattern := 0x0000001D#32, mask := 0xFFFFF0FF#32 })
    (by decide) rfl (by simp [encodeFields, Fields.forDImm, Instr.opcode, Fields.ofWord])

theorem Laws.EncodesItsRow.enclenAsc (d : Nat) : Laws.EncodesItsRow.Statement (.enclenAsc d) :=
  fun _ => Laws.EncodesItsRow.of_fields
    (r := { mnemonic := "ENCLEN_ASC", pattern := 0x0000001E#32, mask := 0xFFFFF0FF#32 })
    (by decide) rfl (by simp [encodeFields, Fields.forDImm, Instr.opcode, Fields.ofWord])

theorem Laws.EncodesItsRow.encAsc (d : Nat) : Laws.EncodesItsRow.Statement (.encAsc d) :=
  fun _ => Laws.EncodesItsRow.of_fields
    (r := { mnemonic := "ENC_ASC", pattern := 0x0000001F#32, mask := 0xFFFFF0FF#32 })
    (by decide) rfl (by simp [encodeFields, Fields.forDImm, Instr.opcode, Fields.ofWord])

theorem Laws.EncodesItsRow.xor (d a b : Nat) : Laws.EncodesItsRow.Statement (.xor d a b) :=
  fun _ => Laws.EncodesItsRow.of_fields
    (r := { mnemonic := "XOR", pattern := 0x00000020#32, mask := 0xFFF000FF#32 })
    (by decide) rfl (by simp [encodeFields, Instr.opcode, Fields.ofWord])

theorem Laws.EncodesItsRow.rkxor (d a : Nat) : Laws.EncodesItsRow.Statement (.rkxor d a) :=
  fun _ => Laws.EncodesItsRow.of_fields
    (r := { mnemonic := "RKXOR", pattern := 0x00000021#32, mask := 0xFFFF00FF#32 })
    (by decide) rfl (by simp [encodeFields, Instr.opcode, Fields.ofWord])

theorem Laws.EncodesItsRow.c2vHex (c : Byte) : Laws.EncodesItsRow.Statement (.c2vHex c) :=
  fun _ => Laws.EncodesItsRow.of_fields
    (r := { mnemonic := "C2V_HEX", pattern := 0x00000030#32, mask := 0xF00FFFFF#32 })
    (by decide) rfl (by simp [encodeFields, Fields.forDImm, Instr.opcode, Fields.ofWord])

theorem Laws.EncodesItsRow.v2cHex (n : Nat) : Laws.EncodesItsRow.Statement (.v2cHex n) :=
  fun _ => Laws.EncodesItsRow.of_fields
    (r := { mnemonic := "V2C_HEX", pattern := 0x00000031#32, mask := 0xF00FFFFF#32 })
    (by decide) rfl (by simp [encodeFields, Fields.forDImm, Instr.opcode, Fields.ofWord])

theorem Laws.EncodesItsRow.c2vB64 (c : Byte) : Laws.EncodesItsRow.Statement (.c2vB64 c) :=
  fun _ => Laws.EncodesItsRow.of_fields
    (r := { mnemonic := "C2V_B64", pattern := 0x00000032#32, mask := 0xF00FFFFF#32 })
    (by decide) rfl (by simp [encodeFields, Fields.forDImm, Instr.opcode, Fields.ofWord])

theorem Laws.EncodesItsRow.v2cB64 (n : Nat) : Laws.EncodesItsRow.Statement (.v2cB64 n) :=
  fun _ => Laws.EncodesItsRow.of_fields
    (r := { mnemonic := "V2C_B64", pattern := 0x00000033#32, mask := 0xF00FFFFF#32 })
    (by decide) rfl (by simp [encodeFields, Fields.forDImm, Instr.opcode, Fields.ofWord])

end Sys2Proof
end

