-- ==== Sys2Proof/Laws/Run.lean ====
section
/-! SUPPORT. Runs of several steps: splitting a run, waiting out a latency, and the step that completes a command
(30_encoding.md R79, 70_reset_and_hazards.md R262). -/

namespace Sys2Proof.Machine

theorem runSteps_succ {s s' : State} (h : step s = .next s') (k : Nat) : runSteps (k + 1) s = runSteps k s' := by
  simp [runSteps, h]

theorem runSteps_one (s : State) : runSteps 1 s = step s := by
  simp only [runSteps]
  cases step s <;> rfl

/-- A run that reaches `u` goes on from `u`. -/
theorem runSteps_add {j : Nat} {s u : State} (h : runSteps j s = .next u) (k : Nat) :
    runSteps (j + k) s = runSteps k u := by
  induction j generalizing s with
  | zero =>
    cases h
    rw [Nat.zero_add]
  | succ j ih =>
    rw [show j + 1 + k = (j + k) + 1 by omega]
    cases hs : step s with
    | next s' =>
      rw [runSteps_succ hs] at h
      rw [runSteps_succ hs, ih h]
    | fault r => simp [runSteps, hs] at h
    | refused r => simp [runSteps, hs] at h

/-- `s` after k idle cycles of the latency. -/
def State.waited (s : State) (k : Nat) : State := { s with wait := s.wait - k }

/-- With no input, the latency runs down and nothing else changes. -/
theorem runSteps_idle {s : State} (hi : s.inputs = []) (k : Nat) (hk : k ≤ s.wait) :
    runSteps k s = .next (s.waited k) := by
  induction k generalizing s with
  | zero => rfl
  | succ k ih =>
    rw [runSteps_succ (step_idle hi (.inr (by omega))), ih (s := s.tick) hi (by simp; omega)]
    simp only [State.waited, State.tick_wait]
    congr 2
    omega

/-- The step that executes the latched command (30_encoding.md R79). -/
theorem step_fetch {s : State} {l : Latch} (hr : s.resetAsserted = false) (hl : s.latch = some l) (hw : s.wait = 0) :
    step s = match decode l.word with
      | .ok i => exec i s
      | .error _ => rejectCommand s := by
  rw [step, hr, if_neg (by simp)]
  simp only [State.fetch, hl, hw, if_true]
  cases decode l.word <;> rfl

/-- A command always ends, and clears BUSY (30_encoding.md R79). -/
theorem complete_next (s : State) (r : Except CmdError Effect) :
    ∃ t, complete s r = .next t ∧ t.latch = none ∧ t.wait = 0 ∧ t.inputs = s.inputs := by
  rcases complete_cases s r with ⟨f, rfl, h⟩ | ⟨e, rfl, h⟩
  · exact ⟨_, h, rfl, rfl, (EndsOk.of_apply s f).1.2.2.2.2.2.1⟩
  · exact ⟨_, h, rfl, rfl, rfl⟩

/-- The same answer completes two blocks that differ in the command in flight, STATUS's error fields and the
model's own fields to the same architectural state. -/
theorem complete_congr {s t : State} (hc : s.cfg = t.cfg) (hs : s.slots = t.slots) (ha : s.arg = t.arg)
    (hi : s.idx = t.idx) (hr : s.result = t.result) (hst : s.sticky = t.sticky) (ho : s.overrun = t.overrun)
    (r : Except CmdError Effect) :
    ∃ u v, complete s r = .next u ∧ complete t r = .next v ∧ SameArchitecture u v ∧ u.latch = none ∧
      u.inputs = s.inputs := by
  cases r with
  | error e =>
    exact ⟨_, _, rfl, rfl, ⟨hc, hs, ha, hi, hr, rfl, ho, rfl, rfl, rfl⟩, rfl, rfl⟩
  | ok f =>
    refine ⟨_, _, rfl, rfl, ?_⟩
    cases f <;> simp [SameArchitecture, hc, hs, ha, hi, hr, hst, ho]

/-- A host's write in a cycle in which no command is in flight. -/
theorem runSteps_write {s : State} {host offset : Nat} {v : BitVec 64} {rest : List HostCycle}
    (hi : s.inputs = writeCycle host s.cfg.base offset v :: rest) (hl : s.latch = none)
    (ho : s.owner = none ∨ s.owner = some host) (hlt : offset < 0x100) (h8 : offset % 8 = 0) (k : Nat) :
    runSteps (k + 1) s = runSteps k (((s.tick.withInputs rest).grant host).writeRegister offset v) :=
  runSteps_succ (step_busCycle (kind := .write v) ⟨hi, ho, .inl hl⟩ hlt h8) k

@[simp] theorem State.waited_wait (s : State) (k : Nat) : (s.waited k).wait = s.wait - k := rfl
@[simp] theorem State.waited_latch (s : State) (k : Nat) : (s.waited k).latch = s.latch := rfl
@[simp] theorem State.waited_cfg (s : State) (k : Nat) : (s.waited k).cfg = s.cfg := rfl
@[simp] theorem State.waited_slots (s : State) (k : Nat) : (s.waited k).slots = s.slots := rfl
@[simp] theorem State.waited_arg (s : State) (k : Nat) : (s.waited k).arg = s.arg := rfl
@[simp] theorem State.waited_idx (s : State) (k : Nat) : (s.waited k).idx = s.idx := rfl
@[simp] theorem State.waited_result (s : State) (k : Nat) : (s.waited k).result = s.result := rfl
@[simp] theorem State.waited_sticky (s : State) (k : Nat) : (s.waited k).sticky = s.sticky := rfl
@[simp] theorem State.waited_overrun (s : State) (k : Nat) : (s.waited k).overrun = s.overrun := rfl
@[simp] theorem State.waited_inputs (s : State) (k : Nat) : (s.waited k).inputs = s.inputs := rfl

end Sys2Proof.Machine
end

