-- ==== Sys2Proof/Machine/Asm.lean ====
section
/-! DEFINITION. The assembler syntax of a command transaction (30_encoding.md R81): the text of a transaction.
Numbers are decimal and a character operand is written as a number, both of which R81 allows. -/

namespace Sys2Proof.Machine

/-- A slot operand, b<D>. -/
def asmSlot (d : Nat) : String := "b" ++ toString d

/-- An immediate operand, #<n>. -/
def asmImm (n : Nat) : String := "#" ++ toString n

/-- An index operand, @<k>: the value the transaction leaves in IDX. -/
def asmIndex (s : State) (t : Transaction) : String := "@" ++ toString (t.idx.getD s.idx).toNat

/-- The line of a transaction issued at state `s`, which supplies ARG and IDX where the transaction writes
neither (30_encoding.md R81). -/
def Transaction.asm (s : State) (t : Transaction) : String :=
  match t.cmd with
  | .clear d => "CLEAR " ++ asmSlot d
  | .addbit d bit => "ADDBIT " ++ asmSlot d ++ ", " ++ asmImm bit.toNat
  | .addbits d width =>
      "ADDBITS " ++ asmSlot d ++ ", " ++ asmImm width ++ ", " ++ toString (t.arg.getD s.arg).toNat
  | .getbits d width => "GETBITS " ++ asmSlot d ++ ", " ++ asmImm width ++ ", " ++ asmIndex s t
  | .getbyte d => "GETBYTE " ++ asmSlot d ++ ", " ++ asmIndex s t
  | .setbyte d byte => "SETBYTE " ++ asmSlot d ++ ", " ++ asmIndex s t ++ ", " ++ asmImm byte.toNat
  | .numbits d => "NUMBITS " ++ asmSlot d
  | .numbytes d => "NUMBYTES " ++ asmSlot d
  | .padbits d => "PADBITS " ++ asmSlot d
  | .decBin d c => "DEC_BIN " ++ asmSlot d ++ ", " ++ asmImm c.toNat
  | .decHex d c => "DEC_HEX " ++ asmSlot d ++ ", " ++ asmImm c.toNat
  | .decB64 d c => "DEC_B64 " ++ asmSlot d ++ ", " ++ asmImm c.toNat
  | .decAsc d c => "DEC_ASC " ++ asmSlot d ++ ", " ++ asmImm c.toNat
  | .enclenBin d => "ENCLEN_BIN " ++ asmSlot d
  | .encBin d => "ENC_BIN " ++ asmSlot d ++ ", " ++ asmIndex s t
  | .enclenHex d => "ENCLEN_HEX " ++ asmSlot d
  | .encHex d => "ENC_HEX " ++ asmSlot d ++ ", " ++ asmIndex s t
  | .enclenB64 d => "ENCLEN_B64 " ++ asmSlot d
  | .encB64 d => "ENC_B64 " ++ asmSlot d ++ ", " ++ asmIndex s t
  | .enclenAsc d => "ENCLEN_ASC " ++ asmSlot d
  | .encAsc d => "ENC_ASC " ++ asmSlot d ++ ", " ++ asmIndex s t
  | .xor d a b => "XOR " ++ asmSlot d ++ ", " ++ asmSlot a ++ ", " ++ asmSlot b
  | .rkxor d a => "RKXOR " ++ asmSlot d ++ ", " ++ asmSlot a
  | .c2vHex c => "C2V_HEX " ++ asmImm c.toNat
  | .v2cHex n => "V2C_HEX " ++ asmImm n
  | .c2vB64 c => "C2V_B64 " ++ asmImm c.toNat
  | .v2cB64 n => "V2C_B64 " ++ asmImm n

end Sys2Proof.Machine
end

