-- ==== Sys2Proof/Tests/Slice0.lean ====
section
/-! SUPPORT. Tests of single commands against the spec's own examples, and for every statement with hypotheses a
concrete state and operands that meet them. -/

namespace Sys2Proof.Tests

open Sys2Proof.Machine

-- One theorem at a time: each test is a kernel evaluation, and many at once take more threads than memory allows.
set_option Elab.async false

/-! ## Helpers -/

/-- A slot of n bits with value v and padding count pad, in canonical form. -/
def slotOf (W n v pad : Nat) : Slot :=
  { words := (List.range (n / W + 1)).map fun k => BitVec.ofNat 64 (v / 2 ^ (W * k) % 2 ^ W)
    used := n % W
    pad := BitVec.ofNat 32 pad }

/-- A block with words of W bits, three slots of n words and these slots, ARG and IDX. -/
def block (W n : Nat) (slots : List Slot) (arg : BitVec 64) (idx : BitVec 32) : State :=
  { State.resetWith { wordWidth := W, nbuf := 3, nw := n, base := 0x1000 } with slots := slots, arg := arg, idx := idx }

/-- Three slots of 64-bit words with these bit counts, values and padding counts, and IDX. -/
def wide (n v pad n' v' pad' : Nat) (idx : BitVec 32) : State :=
  block 64 4 [slotOf 64 n v pad, slotOf 64 n' v' pad', slotOf 64 0 0 0] 0 idx

/-- Three slots of 8-bit words (capacity 31 bits): slot 0 with n bits of value v, slot 1 full, slot 2 empty. -/
def narrow (n v pad : Nat) (arg : BitVec 64) (idx : BitVec 32) : State :=
  block 8 4 [slotOf 8 n v pad, slotOf 8 31 0x12345678 0, slotOf 8 0 0 0] arg idx

/-- RESULT and LAST_ERR after a command. -/
def answer (i : Instr) (s : State) : Option (Nat × Nat) :=
  match exec i s with
  | .next t => some (t.result.toNat, t.lastErr.toNat)
  | _ => none

/-- LAST_ERR and ERR_CHAR after a command. -/
def failure (i : Instr) (s : State) : Option (Nat × Nat) :=
  match exec i s with
  | .next t => some (t.lastErr.toNat, t.errChar.toNat)
  | _ => none

/-- Slot d after some commands. -/
def slotAfter (is : List Instr) (d : Nat) (s : State) : Option Slot :=
  match is with
  | [] => some (s.slotAt d)
  | i :: rest =>
    match exec i s with
    | .next t => slotAfter rest d t
    | _ => none

/-! ## Commands the format cannot spell (30_encoding.md R70 to R72) -/

theorem test_illformed_slot_D : (Instr.clear 16).WellFormed = false := by decide
theorem test_illformed_slot_D_with_width : (Instr.addbits 16 0).WellFormed = false := by decide
theorem test_illformed_slot_D_of_xor : (Instr.xor 16 0 0).WellFormed = false := by decide
theorem test_illformed_slot_A : (Instr.xor 0 16 0).WellFormed = false := by decide
theorem test_illformed_slot_A_of_rkxor : (Instr.rkxor 0 16).WellFormed = false := by decide
theorem test_illformed_slot_B : (Instr.xor 0 0 16).WellFormed = false := by decide
theorem test_illformed_width : (Instr.getbits 0 256).WellFormed = false := by decide
theorem test_illformed_value : (Instr.v2cHex 256).WellFormed = false := by decide
theorem test_wellformed_limits : (Instr.xor 15 15 15).WellFormed = true ∧ (Instr.addbits 15 255).WellFormed = true :=
  by decide

/-! ## Words written out from the encodings of 30_encoding.md R75 -/

theorem test_decode_clear :
    decode 0b0000_00000000_0000_0000_0001_00000001#32 = .ok (.clear 1) := by decide
theorem test_decode_addbit :
    decode 0b0000_00000001_0000_0000_1001_00000010#32 = .ok (.addbit 9 true) := by decide
theorem test_decode_addbits :
    decode 0b0000_10100101_0000_0000_0010_00000011#32 = .ok (.addbits 2 0xA5) := by decide
theorem test_decode_getbits :
    decode 0b0000_00001100_0000_0000_0101_00000100#32 = .ok (.getbits 5 12) := by decide
theorem test_decode_getbyte :
    decode 0b0000_00000000_0000_0000_1111_00000101#32 = .ok (.getbyte 15) := by decide
theorem test_decode_setbyte :
    decode 0b0000_01000001_0000_0000_0011_00000110#32 = .ok (.setbyte 3 0x41) := by decide
theorem test_decode_numbits :
    decode 0b0000_00000000_0000_0000_0100_00000111#32 = .ok (.numbits 4) := by decide
theorem test_decode_numbytes :
    decode 0b0000_00000000_0000_0000_0110_00001000#32 = .ok (.numbytes 6) := by decide
theorem test_decode_padbits :
    decode 0b0000_00000000_0000_0000_0111_00001001#32 = .ok (.padbits 7) := by decide
theorem test_decode_decBin :
    decode 0b0000_00110001_0000_0000_0001_00010000#32 = .ok (.decBin 1 0x31) := by decide
theorem test_decode_decHex :
    decode 0b0000_01100011_0000_0000_0010_00010001#32 = .ok (.decHex 2 0x63) := by decide
theorem test_decode_decB64 :
    decode 0b0000_01011001_0000_0000_0001_00010010#32 = .ok (.decB64 1 0x59) := by decide
theorem test_decode_decAsc :
    decode 0b0000_11111110_0000_0000_1000_00010011#32 = .ok (.decAsc 8 0xFE) := by decide
theorem test_decode_enclenBin :
    decode 0b0000_00000000_0000_0000_0001_00011000#32 = .ok (.enclenBin 1) := by decide
theorem test_decode_encBin :
    decode 0b0000_00000000_0000_0000_0010_00011001#32 = .ok (.encBin 2) := by decide
theorem test_decode_enclenHex :
    decode 0b0000_00000000_0000_0000_0011_00011010#32 = .ok (.enclenHex 3) := by decide
theorem test_decode_encHex :
    decode 0b0000_00000000_0000_0000_0100_00011011#32 = .ok (.encHex 4) := by decide
theorem test_decode_enclenB64 :
    decode 0b0000_00000000_0000_0000_0101_00011100#32 = .ok (.enclenB64 5) := by decide
theorem test_decode_encB64 :
    decode 0b0000_00000000_0000_0000_0110_00011101#32 = .ok (.encB64 6) := by decide
theorem test_decode_enclenAsc :
    decode 0b0000_00000000_0000_0000_0111_00011110#32 = .ok (.enclenAsc 7) := by decide
theorem test_decode_encAsc :
    decode 0b0000_00000000_0000_0000_1000_00011111#32 = .ok (.encAsc 8) := by decide
theorem test_decode_xor :
    decode 0b0000_00000000_0101_1001_0010_00100000#32 = .ok (.xor 2 9 5) := by decide
theorem test_decode_rkxor :
    decode 0b0000_00000000_0000_1100_0001_00100001#32 = .ok (.rkxor 1 12) := by decide
theorem test_decode_c2vHex :
    decode 0b0000_01100011_0000_0000_0000_00110000#32 = .ok (.c2vHex 0x63) := by decide
theorem test_decode_v2cHex :
    decode 0b0000_00001010_0000_0000_0000_00110001#32 = .ok (.v2cHex 10) := by decide
theorem test_decode_c2vB64 :
    decode 0b0000_00101111_0000_0000_0000_00110010#32 = .ok (.c2vB64 0x2F) := by decide
theorem test_decode_v2cB64 :
    decode 0b0000_00011010_0000_0000_0000_00110011#32 = .ok (.v2cB64 26) := by decide

theorem test_reject_opcode_zero :
    decode 0b0000_00000000_0000_0000_0000_00000000#32 = .error .unassignedOpcode := by decide
theorem test_reject_opcode_gap :
    decode 0b0000_00000000_0000_0000_0000_00001010#32 = .error .unassignedOpcode := by decide
theorem test_reject_reserved_bit :
    decode 0b1000_00000000_0000_0000_0000_00000001#32 = .error .reservedBits := by decide
theorem test_reject_unused_A :
    decode 0b0000_00000000_0000_0001_0000_00000001#32 = .error .unusedField := by decide
theorem test_reject_unused_B :
    decode 0b0000_00000000_0001_0000_0000_00100001#32 = .error .unusedField := by decide
theorem test_reject_unused_D :
    decode 0b0000_00000000_0000_0000_0001_00110000#32 = .error .unusedField := by decide
theorem test_reject_unused_imm8 :
    decode 0b0000_00000001_0000_0000_0000_00000111#32 = .error .unusedField := by decide
theorem test_reject_addbit_imm8 :
    decode 0b0000_00000010_0000_0000_0000_00000010#32 = .error .unusedField := by decide

theorem test_table_word : decodeTableWord 32 0x00100002 = some (.addbit 0 true) := by decide

/-- A word placed by `withFetchWord` is the first command after reset. -/
theorem test_fetch : step (State.reset.withFetchWord 32 0x06300030) =
    exec (.c2vHex 0x63) (State.reset.latchWord 0x06300030#32) := by rfl

theorem test_fetch_illegal : (match step (State.reset.withFetchWord 32 0) with
    | .next t => t.lastErr.toNat
    | _ => 0) = 1 := by decide +kernel

/-- The words of 95_test_vectors.md in the assembler syntax of 30_encoding.md R81. -/
theorem test_asm : Transaction.asm State.reset (Transaction.indexed (.getbits 0 12) 4) = "GETBITS b0, #12, @4" := by
  decide +kernel

/-! ## Single commands: the examples of 40_char_codecs.md to 43_xor.md -/

/-- R120. -/
theorem test_clear : slotAfter [.clear 1] 1 (wide 0 0 0 24 0x610000 16 0) = some (slotOf 64 0 0 0) := by
  decide +kernel
/-- R71. -/
theorem test_clear_no_slot : failure (.clear 3) (wide 0 0 0 0 0 0 0) = some (2, 0) := by
  decide +kernel
/-- R121. -/
theorem test_addbit :
    slotAfter [.addbit 0 true, .addbit 0 false] 0 (wide 0 0 0 0 0 0 0) = some (slotOf 64 2 0b01 0) := by
  decide +kernel
/-- R121: a new zero word is appended. -/
theorem test_addbit_fills_the_word :
    slotAfter [.addbit 0 true] 0 (narrow 7 0 0 0 0) = some { words := [0x80, 0], used := 0, pad := 0 } := by
  decide +kernel
/-- R123, the first half of its example. -/
theorem test_addbits :
    slotAfter [.addbits 0 4] 0 (block 64 4 [slotOf 64 4 0xC 0, slotOf 64 0 0 0, slotOf 64 0 0 0] 1 0) =
    some (slotOf 64 8 0x1C 0) := by
  decide +kernel
/-- R124. -/
theorem test_addbits_value : failure (.addbits 0 4) (narrow 0 0 0 0x10 0) = some (4, 0) := by
  decide +kernel
/-- R125. -/
theorem test_getbits : answer (.getbits 0 3) (wide 8 0x1C 0 0 0 0 2) = some (7, 0) := by
  decide +kernel
/-- R222: WIDTH before RANGE. -/
theorem test_getbits_width : failure (.getbits 0 70) (wide 8 0x1C 0 0 0 0 99) = some (3, 0) := by
  decide +kernel
/-- R126. -/
theorem test_getbyte : answer (.getbyte 0) (wide 16 0x6162 0 0 0 0 0) = some (0x61, 0) := by
  decide +kernel
/-- R126. -/
theorem test_getbyte_fraction : answer (.getbyte 0) (wide 12 0xABC 0 0 0 0 0) = some (0xAB, 0) := by
  decide +kernel
/-- R127. -/
theorem test_setbyte : slotAfter [.setbyte 0 0x41] 0 (wide 16 0x6162 0 0 0 0 1) = some (slotOf 64 16 0x6141 0) := by
  decide +kernel
/-- R127. -/
theorem test_setbyte_range : failure (.setbyte 0 0x41) (wide 16 0x6162 0 0 0 0 2) = some (6, 0) := by
  decide +kernel
/-- R128. -/
theorem test_numbits : answer (.numbits 0) (wide 24 0x610000 16 0 0 0 0) = some (24, 0) := by
  decide +kernel
/-- R129. -/
theorem test_numbytes : answer (.numbytes 0) (wide 12 0xABC 0 0 0 0 0) = some (1, 0) := by
  decide +kernel
/-- R130. -/
theorem test_padbits : answer (.padbits 0) (wide 24 0x610000 16 0 0 0 0) = some (16, 0) := by
  decide +kernel
/-- R161. -/
theorem test_decBin : slotAfter [.decBin 0 0x31] 0 (wide 0 0 0 0 0 0 0) = some (slotOf 64 1 1 0) := by
  decide +kernel
/-- R161. -/
theorem test_decBin_space : failure (.decBin 0 0x20) (wide 0 0 0 0 0 0 0) = some (5, 0x20) := by
  decide +kernel
/-- R162. -/
theorem test_decHex :
    slotAfter [.decHex 0 0x63, .decHex 0 0x31] 0 (wide 0 0 0 0 0 0 0) = some (slotOf 64 8 0x1C 0) := by
  decide +kernel
/-- R162. -/
theorem test_decHex_uppercase : failure (.decHex 0 0x41) (wide 0 0 0 0 0 0 0) = some (5, 0x41) := by
  decide +kernel
/-- R163. -/
theorem test_decB64_padding : slotAfter [.decB64 0 0x3D] 0 (wide 0 0 0 0 0 0 0) = some (slotOf 64 6 0 8) := by
  decide +kernel
/-- R163. -/
theorem test_decB64_line_feed : slotAfter [.decB64 0 0x0A] 0 (wide 6 0x15 0 0 0 0 0) = some (slotOf 64 6 0x15 0) := by
  decide +kernel
/-- R164. -/
theorem test_decAsc : slotAfter [.decAsc 0 0x61] 0 (wide 0 0 0 0 0 0 0) = some (slotOf 64 8 0x61 0) := by
  decide +kernel
/-- R54. -/
theorem test_decAsc_full : failure (.decAsc 0 0x61) (narrow 24 0 0 0 0) = some (10, 0) := by
  decide +kernel
/-- R172. -/
theorem test_enclenBin : answer (.enclenBin 0) (wide 24 0x610000 16 0 0 0 0) = some (24, 0) := by
  decide +kernel
/-- R173. -/
theorem test_encBin : answer (.encBin 0) (wide 8 0x1C 0 0 0 0 3) = some (0x31, 0) := by
  decide +kernel
/-- R174. -/
theorem test_enclenHex : answer (.enclenHex 0) (wide 24 0x610000 16 0 0 0 0) = some (2, 0) := by
  decide +kernel
/-- R175. -/
theorem test_encHex : answer (.encHex 0) (wide 24 0x610000 16 0 0 0 0) = some (0x36, 0) := by
  decide +kernel
/-- R222: GROUP before RANGE. -/
theorem test_encHex_group : failure (.encHex 0) (wide 3 5 0 0 0 0 99) = some (9, 0) := by
  decide +kernel
/-- R176. -/
theorem test_enclenB64 : answer (.enclenB64 0) (wide 24 0x610000 16 0 0 0 0) = some (4, 0) := by
  decide +kernel
/-- R176. -/
theorem test_enclenB64_group : failure (.enclenB64 0) (wide 8 0x61 0 0 0 0 0) = some (9, 0) := by
  decide +kernel
/-- R177. -/
theorem test_encB64 : answer (.encB64 0) (wide 24 0x610000 16 0 0 0 1) = some (0x51, 0) := by
  decide +kernel
/-- R177. -/
theorem test_encB64_padding : answer (.encB64 0) (wide 24 0x610000 16 0 0 0 2) = some (0x3D, 0) := by
  decide +kernel
/-- R178. -/
theorem test_enclenAsc : answer (.enclenAsc 0) (wide 24 0x616200 8 0 0 0 0) = some (2, 0) := by
  decide +kernel
/-- R179. -/
theorem test_encAsc : answer (.encAsc 0) (wide 24 0x616200 8 0 0 0 1) = some (0x62, 0) := by
  decide +kernel
/-- R179. -/
theorem test_encAsc_range : failure (.encAsc 0) (wide 24 0x616200 8 0 0 0 2) = some (6, 0) := by
  decide +kernel
/-- R200. -/
theorem test_xor : slotAfter [.xor 2 0 1] 2 (wide 8 0x1C 0 8 0x68 0 0) = some (slotOf 64 8 0x74 0) := by
  decide +kernel
/-- R200. -/
theorem test_xor_size : failure (.xor 2 0 1) (wide 8 0x1C 0 7 0x68 0 0) = some (7, 0) := by
  decide +kernel
/-- R201. -/
theorem test_rkxor :
    slotAfter [.rkxor 0 1] 0 (wide 32 0x4275726E 0 24 0x494345 0 0) = some (slotOf 64 32 0x0b363727 0) := by
  decide +kernel
/-- R201. -/
theorem test_rkxor_empty_key : failure (.rkxor 0 1) (wide 32 0x4275726E 0 7 0x49 0 0) = some (8, 0) := by
  decide +kernel
/-- R102. -/
theorem test_c2vHex : answer (.c2vHex 0x63) (wide 0 0 0 0 0 0 0) = some (12, 0) := by
  decide +kernel
/-- R102. -/
theorem test_c2vHex_uppercase : failure (.c2vHex 0x41) (wide 0 0 0 0 0 0 0) = some (5, 0x41) := by
  decide +kernel
/-- R103. -/
theorem test_v2cHex : answer (.v2cHex 10) (wide 0 0 0 0 0 0 0) = some (0x61, 0) := by
  decide +kernel
/-- R103. -/
theorem test_v2cHex_value : failure (.v2cHex 16) (wide 0 0 0 0 0 0 0) = some (4, 0) := by
  decide +kernel
/-- R104. -/
theorem test_c2vB64 : answer (.c2vB64 0x2F) (wide 0 0 0 0 0 0 0) = some (63, 0) := by
  decide +kernel
/-- R104. -/
theorem test_c2vB64_padding : failure (.c2vB64 0x3D) (wide 0 0 0 0 0 0 0) = some (5, 0x3D) := by
  decide +kernel
/-- R105. -/
theorem test_v2cB64 : answer (.v2cB64 26) (wide 0 0 0 0 0 0 0) = some (0x61, 0) := by
  decide +kernel
/-- R105. -/
theorem test_v2cB64_value : failure (.v2cB64 64) (wide 0 0 0 0 0 0 0) = some (4, 0) := by
  decide +kernel

/-! ## String encodes (42_format_codecs.md R180) -/

/-- The text of a string encode and 0, or no text and the code it fails with; and STICKY afterwards. -/
def encoding (o : Host.Outcome Encoded Fault Refusal) : Option (List Nat × Nat × Bool) :=
  match o with
  | .next (.text cs u) => some (cs.map BitVec.toNat, 0, u.sticky)
  | .next (.failed code u) => some ([], code.toNat, u.sticky)
  | _ => none

/-- 95_test_vectors.md P2: TO_ASC of the slot of `YQ==` is `a`. -/
theorem test_toText :
    encoding (toText .enclenAsc .encAsc 0 (wide 24 0x610000 16 0 0 0 0)) = some ([0x61], 0, false) := by
  decide +kernel

/-- R171, R180: TO_B64 of one ASCII character fails with GROUP, which STATUS keeps. -/
theorem test_toText_group : encoding (toText .enclenB64 .encB64 0 (wide 8 0x61 0 0 0 0 0)) = some ([], 9, true) := by
  decide +kernel


/-! ## Witnesses: states and operands that meet the hypotheses of the statements

`witness_<Statement>` meets the hypotheses of `Obligations.<Statement>`; a number after the name counts the
statement's clauses. -/

/-- A block with this command in flight, its latency passed. -/
def flying (s : State) (w : CommandWord) : State := s.latchWord w

/-- A block with this command in flight and two more cycles of latency. -/
def waiting (s : State) (w : CommandWord) : State := { s.latchWord w with wait := 2 }

/-- A block whose next cycles are these. -/
def facing (s : State) (cs : List HostCycle) : State := s.withInputs cs

/-- An idle block. -/
def idle : State := narrow 8 0x61 0 0 0

/-- A busy block. -/
def busy : State := waiting idle 1

/-- A block in whose next cycle host 7 makes this access. -/
def meets (s : State) (offset : Nat) (kind : AccessKind) : State := facing s [busCycle s 7 offset kind]

/-- A cycle with RST asserted and a write to CMD. -/
def resetCycle : HostCycle := { busCycle (narrow 0 0 0 0 0) 7 0 (.write 1) with rst := true }

/-- A transaction that writes ARG and IDX. -/
def moves : Transaction := { arg := some 5, idx := some 3, cmd := .addbits 2 4 }

/-- An access by host 7. -/
def access (addr width : Nat) : Access := { host := 7, addr := addr, width := width, kind := .read }

theorem witness_ResetLeavesEveryBufferEmpty :
    Config.Valid { wordWidth := 8, nbuf := 3, nw := 4, base := 0x1000 } ∧ Config.Valid Config.reference ∧
    2 < (narrow 0 0 0 0 0).cfg.nbuf := by
  decide +kernel
theorem witness_ResetSatisfiesTheInvariant : Config.Valid { wordWidth := 16, nbuf := 16, nw := 2 ^ 27, base := 0 } ∧
    Config.Valid { wordWidth := 64, nbuf := 1, nw := 1, base := 0 } := by
  simp [Config.Valid]
theorem witness_EveryStepKeepsTheInvariant : (flying (narrow 24 0x616263 0 0 0) 0x00000001#32).Inv ∧
    ∃ t, step (flying (narrow 24 0x616263 0 0 0) 0x00000001#32) = .next t :=
  ⟨by decide +kernel, _, rfl⟩
theorem witness_OnlyResetClearsStickyAndOverrun_1 :
    ∃ s t : State, step s = .next t ∧ s.resetAsserted = false ∧ s.sticky = true ∧ s.overrun = true :=
  ⟨{ flying (narrow 0 0 0 0 0) 1 with sticky := true, overrun := true }, _, rfl, rfl, rfl, rfl⟩
theorem witness_OnlyResetClearsStickyAndOverrun_2 : ∃ t, step (facing (narrow 0 0 0 0 0) [resetCycle]) = .next t ∧
    (facing (narrow 0 0 0 0 0) [resetCycle]).resetAsserted = true :=
  ⟨_, rfl, rfl⟩
theorem witness_DecodeInvertsEncode :
    (Instr.xor 15 15 15).WellFormed = true ∧ (Instr.getbits 15 255).WellFormed = true ∧
    (Instr.addbit 15 true).WellFormed = true ∧ (Instr.v2cB64 255).WellFormed = true := by
  decide
theorem witness_EncodeInvertsDecode :
    decode 0x000FFF20#32 = .ok (.xor 15 15 15) ∧ decode 0x0FF00F03#32 = .ok (.addbits 15 255) := by
  decide
theorem witness_WordsSpellTheRowTheyMatch : ∃ r ∈ opcodeRows, r.Spells 0x000FFF20#32 := by
  decide +kernel
theorem witness_UnspelledWordsRaiseIllegal :
    ∃ l : Latch, (flying (narrow 0 0 0 0 0) 0x80000001#32).resetAsserted = false ∧
    (flying (narrow 0 0 0 0 0) 0x80000001#32).latch = some l ∧ (flying (narrow 0 0 0 0 0) 0x80000001#32).wait = 0 ∧
    ∀ r ∈ opcodeRows, ¬ r.Spells l.word :=
  ⟨_, rfl, rfl, rfl, by decide +kernel⟩
theorem witness_StepRunsTheLatchedCommand :
    ∃ l : Latch, (flying (narrow 0 0 0 0 0) 0x00000301#32).resetAsserted = false ∧
    (flying (narrow 0 0 0 0 0) 0x00000301#32).latch = some l ∧ (flying (narrow 0 0 0 0 0) 0x00000301#32).wait = 0 ∧
    decode l.word = .ok (.clear 3) :=
  ⟨_, rfl, rfl, rfl, rfl⟩
theorem witness_ResetInputTakesPrecedence :
    (facing (waiting (narrow 8 1 0 0 0) 1) [resetCycle]).inputs = resetCycle :: [] ∧ resetCycle.rst = true :=
  ⟨rfl, rfl⟩
theorem witness_CommandWriteLatchesOrIsDropped_1 :
    ∃ s : State, FacesCycle s 7 (busCycle s 7 0x00 (.write 0xFFFFFFFF00000107#64)) [] ∧ s.busy = false :=
  ⟨meets idle 0x00 (.write 0xFFFFFFFF00000107#64), ⟨⟨rfl, .inl rfl, .inl rfl⟩, rfl⟩⟩
theorem witness_CommandWriteLatchesOrIsDropped_2 :
    ∃ s : State, FacesCycle s 7 (busCycle s 7 0x00 (.write 0#64)) [] ∧ s.busy = true :=
  ⟨meets busy 0x00 (.write 0#64), ⟨⟨rfl, .inl rfl, .inr (by decide)⟩, rfl⟩⟩
theorem witness_OperandWritesLeaveTheLatch_1 : ∃ s : State, FacesCycle s 7 (busCycle s 7 0x08 (.write 5#64)) [] :=
  ⟨meets busy 0x08 (.write 5#64), ⟨rfl, .inl rfl, .inr (by decide)⟩⟩
theorem witness_OperandWritesLeaveTheLatch_2 : ∃ s : State, FacesCycle s 7 (busCycle s 7 0x10 (.write 5#64)) [] :=
  ⟨meets idle 0x10 (.write 5#64), ⟨rfl, .inl rfl, .inl rfl⟩⟩
theorem witness_OtherWritesAreIgnored_1 : ∃ s : State, FacesCycle s 7 (busCycle s 7 0x18 (.write 5#64)) [] :=
  ⟨meets idle 0x18 (.write 5#64), ⟨rfl, .inl rfl, .inl rfl⟩⟩
theorem witness_OtherWritesAreIgnored_2 : ∃ s : State, FacesCycle s 7 (busCycle s 7 0xF8 (.write 5#64)) [] :=
  ⟨meets busy 0xF8 (.write 5#64), ⟨rfl, .inl rfl, .inr (by decide)⟩⟩
theorem witness_ReadsReturnTheRegisters_1 :
    ∃ s : State, FacesCycle s 7 (busCycle s 7 0x00 .read) [] ∧ s.busy = false :=
  ⟨meets idle 0x00 .read, ⟨⟨rfl, .inl rfl, .inl rfl⟩, rfl⟩⟩
theorem witness_ReadsReturnTheRegisters_2 :
    ∃ s : State, FacesCycle s 7 (busCycle s 7 0xF8 .read) [] ∧ s.busy = false :=
  ⟨meets idle 0xF8 .read, ⟨⟨rfl, .inl rfl, .inl rfl⟩, rfl⟩⟩
theorem witness_ReadsWhileBusy_1 : ∃ s : State, FacesCycle s 7 (busCycle s 7 0x08 .read) [] ∧ s.busy = true :=
  ⟨meets busy 0x08 .read, ⟨⟨rfl, .inl rfl, .inr (by decide)⟩, rfl⟩⟩
theorem witness_ReadsWhileBusy_2 : ∃ s : State, FacesCycle s 7 (busCycle s 7 0x10 .read) [] ∧ s.busy = true :=
  ⟨meets busy 0x10 .read, ⟨⟨rfl, .inl rfl, .inr (by decide)⟩, rfl⟩⟩
theorem witness_ReadsWhileBusy_3 : ∃ s : State, FacesCycle s 7 (busCycle s 7 0x20 .read) [] ∧ s.busy = true :=
  ⟨meets busy 0x20 .read, ⟨⟨rfl, .inl rfl, .inr (by decide)⟩, rfl⟩⟩
theorem witness_ReadsWhileBusy_4 : ∃ s : State, FacesCycle s 7 (busCycle s 7 0x28 .read) [] ∧ s.busy = true :=
  ⟨meets busy 0x28 .read, ⟨⟨rfl, .inl rfl, .inr (by decide)⟩, rfl⟩⟩
theorem witness_AccessesOutsideTheInterfaceStop_1 :
    ∃ s : State, s.inputs = { rst := false, access := some (access 0x1100 64) } :: [] ∧
    (s.latch = none ∨ 0 < s.wait) ∧ ¬ s.inWindow 0x1100 :=
  ⟨facing idle [{ rst := false, access := some (access 0x1100 64) }], rfl, .inl rfl, by decide⟩
theorem witness_AccessesOutsideTheInterfaceStop_2 :
    ∃ s : State, s.inputs = { rst := false, access := some (access 0x1000 64) } :: [] ∧
    (s.latch = none ∨ 0 < s.wait) ∧ s.inWindow 0x1000 ∧ s.ownedByOther 7 :=
  ⟨facing { idle with owner := some 3 } [{ rst := false, access := some (access 0x1000 64) }], rfl, .inl rfl, by decide⟩
theorem witness_AccessesOutsideTheInterfaceStop_3 :
    ∃ s : State, s.inputs = { rst := false, access := some (access 0x10FF 32) } :: [] ∧
    (s.latch = none ∨ 0 < s.wait) ∧ s.inWindow 0x10FF ∧ ¬ s.ownedByOther 7 ∧ 32 ≠ 64 :=
  ⟨facing idle [{ rst := false, access := some (access 0x10FF 32) }], rfl, .inl rfl, by decide⟩
theorem witness_AccessesOutsideTheInterfaceStop_4 :
    ∃ s : State, s.inputs = { rst := false, access := some (access 0x10FF 64) } :: [] ∧
    (s.latch = none ∨ 0 < s.wait) ∧ s.inWindow 0x10FF ∧ ¬ s.ownedByOther 7 ∧ (0x10FF - s.cfg.base) % 8 ≠ 0 :=
  ⟨facing idle [{ rst := false, access := some (access 0x10FF 64) }], rfl, .inl rfl, by decide⟩
theorem witness_EveryAcceptedCommandCompletes :
    ∃ l : Latch, busy.latch = some l ∧ busy.inputs = [] ∧ 0 < busy.wait :=
  ⟨_, rfl, rfl, by decide⟩
theorem witness_TransactionIsOneAtomicStep :
    ∃ (s : State) (t : Transaction), s.latch = none ∧ s.wait = 0 ∧ (s.owner = none ∨ s.owner = some 7) ∧
    t.cmd.WellFormed = true ∧ s.inputs = t.cycles 7 s.cfg.base :=
  ⟨facing idle (Transaction.cycles moves 7 0x1000), moves, rfl, rfl, .inl rfl, rfl, rfl⟩
theorem witness_FailingCommandsHaveNoEffect :
    ∃ t, exec (.setbyte 0 1) (narrow 7 0 0 0 0) = .next t ∧ t.lastErr ≠ 0 :=
  ⟨_, rfl, by decide⟩
theorem witness_ErrorsOfEachCommand : ∃ t, exec (.decHex 0 0x41) idle = .next t ∧ t.lastErr = 5 :=
  ⟨_, rfl, by decide⟩
theorem witness_SlotFieldsAreCheckedFirst :
    3 ∈ (Instr.xor 0 1 3).slotFields ∧ 3 ∈ (Instr.rkxor 0 3).slotFields ∧ idle.cfg.nbuf ≤ 3 ∧
    15 ∈ (Instr.getbits 15 255).slotFields ∧ idle.cfg.nbuf ≤ 15 := by
  decide
theorem witness_OnlyTheTargetSlotChanges :
    ∃ t, exec (.xor 2 0 0) idle = .next t ∧ t.lastErr = 0 ∧ (Instr.xor 2 0 0).target ≠ some 1 :=
  ⟨_, rfl, by decide, by decide⟩
theorem witness_OnlyListedCommandsWriteResult_1 :
    ∃ t, exec (.clear 0) idle = .next t ∧ (Instr.clear 0).writesResult = false :=
  ⟨_, rfl, rfl⟩
theorem witness_OnlyListedCommandsWriteResult_2 :
    ∃ t, exec (.getbyte 0) (narrow 7 0 0 0 0) = .next t ∧ t.lastErr ≠ 0 :=
  ⟨_, rfl, by decide⟩
theorem witness_OnlyClearPaddingAndXorWritePad :
    ∃ t, (narrow 25 0 0 0 0).Inv ∧ exec (.decB64 0 0x3D) (narrow 25 0 0 0 0) = .next t ∧
    t.padOf 0 ≠ (narrow 25 0 0 0 0).padOf 0 :=
  ⟨_, by decide +kernel, rfl, by decide +kernel⟩
theorem witness_ResultsDoNotDependOnTheWordWidth :
    ∃ s s' t t' : State, s.Inv ∧ s'.Inv ∧ s.cfg.wordWidth ≠ s'.cfg.wordWidth ∧ SameContents s s' ∧
    exec (.addbits 0 7) s = .next t ∧ exec (.addbits 0 7) s' = .next t' ∧ t.lastErr = 0 ∧ t'.lastErr = 0 :=
  ⟨block 8 4 [slotOf 8 13 0x1ABC 0, slotOf 8 6 0 8, slotOf 8 0 0 0] 0x55 0,
    block 16 3 [slotOf 16 13 0x1ABC 0, slotOf 16 6 0 8, slotOf 16 0 0 0] 0x55 0, _, _, by decide +kernel,
    by decide +kernel, by decide, by unfold SameContents; decide +kernel, rfl, rfl, by decide, by decide⟩
theorem witness_ClearEmptiesTheSlot : ∃ s : State,
    s.Inv ∧ 2 < s.cfg.nbuf :=
  ⟨narrow 24 0x610000 16 0 0, by decide +kernel⟩
theorem witness_AddbitAppendsOneBit_1 : ∃ s : State,
    s.Inv ∧ 0 < s.cfg.nbuf ∧ s.numBitsOf 0 < s.cfg.cap :=
  ⟨narrow 30 0x12345678 0 0 0, by decide +kernel⟩
theorem witness_AddbitAppendsOneBit_2 : ∃ s : State,
    s.Inv ∧ 1 < s.cfg.nbuf ∧ s.numBitsOf 1 = s.cfg.cap :=
  ⟨idle, by decide +kernel⟩
theorem witness_AddbitsAppendsTheValue_1 : ∃ s : State,
    s.Inv ∧ 0 < s.cfg.nbuf ∧ 8 ≤ s.cfg.wordWidth ∧ s.operandArg.toNat < 2 ^ 8 ∧ s.numBitsOf 0 + 8 ≤ s.cfg.cap :=
  ⟨narrow 23 0 0 0xFF 0, by decide +kernel⟩
theorem witness_AddbitsAppendsTheValue_2 : ∃ s : State,
    s.Inv ∧ 0 < s.cfg.nbuf ∧ s.cfg.wordWidth < 9 :=
  ⟨idle, by decide +kernel⟩
theorem witness_AddbitsAppendsTheValue_3 : ∃ s : State,
    s.Inv ∧ 0 < s.cfg.nbuf ∧ 8 ≤ s.cfg.wordWidth ∧ 2 ^ 8 ≤ s.operandArg.toNat :=
  ⟨narrow 31 0 0 0x100 0, by decide +kernel⟩
theorem witness_AddbitsAppendsTheValue_4 : ∃ s : State,
    s.Inv ∧ 0 < s.cfg.nbuf ∧ 8 ≤ s.cfg.wordWidth ∧ s.operandArg.toNat < 2 ^ 8 ∧ s.cfg.cap < s.numBitsOf 0 + 8 :=
  ⟨narrow 24 0 0 0xFF 0, by decide +kernel⟩
theorem witness_GetbitsReadsTheField_1 : ∃ s : State,
    s.Inv ∧ 0 < s.cfg.nbuf ∧ 8 ≤ s.cfg.wordWidth ∧ s.operandIdx < s.numBitsOf 0 ∧
    s.operandIdx + 8 ≤ s.numBitsOf 0 :=
  ⟨narrow 24 0x616263 0 0 16, by decide +kernel⟩
theorem witness_GetbitsReadsTheField_2 : ∃ s : State,
    s.Inv ∧ 0 < s.cfg.nbuf ∧ s.cfg.wordWidth < 9 :=
  ⟨idle, by decide +kernel⟩
theorem witness_GetbitsReadsTheField_3 : ∃ s : State,
    s.Inv ∧ 0 < s.cfg.nbuf ∧ 8 ≤ s.cfg.wordWidth ∧
    (s.numBitsOf 0 ≤ s.operandIdx ∨ s.numBitsOf 0 < s.operandIdx + 8) :=
  ⟨narrow 24 0x616263 0 0 17, by decide +kernel⟩
theorem witness_GetbyteReadsTheByte_1 : ∃ s : State,
    s.Inv ∧ 0 < s.cfg.nbuf ∧ s.operandIdx < s.numBitsOf 0 / 8 :=
  ⟨narrow 17 0x1A2B3 0 0 1, by decide +kernel⟩
theorem witness_GetbyteReadsTheByte_2 : ∃ s : State,
    s.Inv ∧ 0 < s.cfg.nbuf ∧ s.numBitsOf 0 / 8 ≤ s.operandIdx :=
  ⟨narrow 17 0x1A2B3 0 0 2, by decide +kernel⟩
theorem witness_SetbyteWritesTheByte_1 : ∃ s : State,
    s.Inv ∧ 0 < s.cfg.nbuf ∧ s.operandIdx < s.numBitsOf 0 / 8 :=
  ⟨narrow 17 0x1A2B3 0 0 1, by decide +kernel⟩
theorem witness_SetbyteWritesTheByte_2 : ∃ s : State,
    s.Inv ∧ 0 < s.cfg.nbuf ∧ s.numBitsOf 0 / 8 ≤ s.operandIdx :=
  ⟨narrow 17 0x1A2B3 0 0 2, by decide +kernel⟩
theorem witness_CountsAreReturned : ∃ s : State,
    s.Inv ∧ 0 < s.cfg.nbuf :=
  ⟨narrow 24 0x610000 16 0 0, by decide +kernel⟩
theorem witness_DecBinAppendsOneBit_1 : ∃ s : State,
    s.Inv ∧ 0 < s.cfg.nbuf ∧ s.numBitsOf 0 + 1 ≤ s.cfg.cap :=
  ⟨narrow 30 0 0 0 0, by decide +kernel⟩
theorem witness_DecBinAppendsOneBit_2 : ∃ s : State,
    s.Inv ∧ 0 < s.cfg.nbuf ∧ (0x32 : Byte) ≠ 0x30 ∧ (0x32 : Byte) ≠ 0x31 :=
  ⟨idle, by decide +kernel⟩
theorem witness_DecBinAppendsOneBit_3 : ∃ s : State,
    s.Inv ∧ 1 < s.cfg.nbuf ∧ s.cfg.cap < s.numBitsOf 1 + 1 :=
  ⟨idle, by decide +kernel⟩
theorem witness_DecHexAppendsTheNibble_1 : ∃ s : State,
    s.Inv ∧ 0 < s.cfg.nbuf ∧ (0x66 : Byte).toNat = hexAlphabet.getD 15 0 ∧ s.numBitsOf 0 + 4 ≤ s.cfg.cap :=
  ⟨narrow 27 0 0 0 0, by decide +kernel⟩
theorem witness_DecHexAppendsTheNibble_2 : ∃ s : State,
    s.Inv ∧ 0 < s.cfg.nbuf ∧ (0x67 : Byte).toNat ∉ hexAlphabet ∧ (0x46 : Byte).toNat ∉ hexAlphabet :=
  ⟨idle, by decide +kernel⟩
theorem witness_DecHexAppendsTheNibble_3 : ∃ s : State,
    s.Inv ∧ 0 < s.cfg.nbuf ∧ (0x39 : Byte).toNat ∈ hexAlphabet ∧ s.cfg.cap < s.numBitsOf 0 + 4 :=
  ⟨narrow 28 0 0 0 0, by decide +kernel⟩
theorem witness_DecB64AppendsTheGroup_1 : ∃ s : State,
    s.Inv ∧ 1 < s.cfg.nbuf ∧ ((0x0D : Byte) = 0x0A ∨ (0x0D : Byte) = 0x0D) :=
  ⟨idle, by decide +kernel⟩
theorem witness_DecB64AppendsTheGroup_2 : ∃ s : State,
    s.Inv ∧ 0 < s.cfg.nbuf ∧ s.numBitsOf 0 + 6 ≤ s.cfg.cap :=
  ⟨narrow 25 0 0 0 0, by decide +kernel⟩
theorem witness_DecB64AppendsTheGroup_3 : ∃ s : State,
    s.Inv ∧ 0 < s.cfg.nbuf ∧ (0x2F : Byte).toNat = b64Alphabet.getD 63 0 ∧ s.numBitsOf 0 + 6 ≤ s.cfg.cap :=
  ⟨narrow 25 0 0 0 0, by decide +kernel⟩
theorem witness_DecB64AppendsTheGroup_4 : ∃ s : State,
    s.Inv ∧ 0 < s.cfg.nbuf ∧ (0x2D : Byte) ≠ 0x0A ∧ (0x2D : Byte) ≠ 0x0D ∧ (0x2D : Byte) ≠ 0x3D ∧
    (0x2D : Byte).toNat ∉ b64Alphabet :=
  ⟨idle, by decide +kernel⟩
theorem witness_DecB64AppendsTheGroup_5 : ∃ s : State,
    s.Inv ∧ 0 < s.cfg.nbuf ∧ (0x41 : Byte).toNat ∈ b64Alphabet ∧ s.cfg.cap < s.numBitsOf 0 + 6 :=
  ⟨narrow 26 0 0 0 0, by decide +kernel⟩
theorem witness_DecAscAppendsTheByte_1 : ∃ s : State,
    s.Inv ∧ 0 < s.cfg.nbuf ∧ s.numBitsOf 0 + 8 ≤ s.cfg.cap :=
  ⟨narrow 23 0 0 0 0, by decide +kernel⟩
theorem witness_DecAscAppendsTheByte_2 : ∃ s : State,
    s.Inv ∧ 0 < s.cfg.nbuf ∧ s.cfg.cap < s.numBitsOf 0 + 8 :=
  ⟨narrow 24 0 0 0 0, by decide +kernel⟩
theorem witness_RenderingLengthsAreReturned_1 : ∃ s : State,
    s.Inv ∧ 0 < s.cfg.nbuf ∧ 8 = s.numBitsOf 0 - min (s.padOf 0) (s.numBitsOf 0) ∧ 8 % 4 = 0 ∧ 8 % 8 = 0 ∧
    s.numBitsOf 0 % 6 = 0 :=
  ⟨narrow 24 0x610000 16 0 0, by decide +kernel⟩
theorem witness_RenderingLengthsAreReturned_2 : ∃ s : State,
    s.Inv ∧ 0 < s.cfg.nbuf ∧ 13 = s.numBitsOf 0 - min (s.padOf 0) (s.numBitsOf 0) ∧ 13 % 4 ≠ 0 ∧ 13 % 8 ≠ 0 ∧
    s.numBitsOf 0 % 6 ≠ 0 :=
  ⟨narrow 13 0 0 0 0, by decide +kernel⟩
theorem witness_EncBinReturnsTheCharacter_1 : ∃ s : State,
    s.Inv ∧ 0 < s.cfg.nbuf ∧ s.operandIdx < s.numBitsOf 0 :=
  ⟨narrow 13 0x1ABC 0 0 12, by decide +kernel⟩
theorem witness_EncBinReturnsTheCharacter_2 : ∃ s : State,
    s.Inv ∧ 0 < s.cfg.nbuf ∧ s.numBitsOf 0 ≤ s.operandIdx :=
  ⟨narrow 13 0x1ABC 0 0 13, by decide +kernel⟩
theorem witness_EncHexReturnsTheCharacter_1 : ∃ s : State,
    s.Inv ∧ 0 < s.cfg.nbuf ∧ 8 = s.numBitsOf 0 - min (s.padOf 0) (s.numBitsOf 0) ∧ 8 % 4 = 0 ∧
    s.operandIdx < 8 / 4 :=
  ⟨narrow 24 0x610000 16 0 1, by decide +kernel⟩
theorem witness_EncHexReturnsTheCharacter_2 : ∃ s : State,
    s.Inv ∧ 0 < s.cfg.nbuf ∧ 13 = s.numBitsOf 0 - min (s.padOf 0) (s.numBitsOf 0) ∧ 13 % 4 ≠ 0 :=
  ⟨narrow 13 0x61 0 0 0, by decide +kernel⟩
theorem witness_EncHexReturnsTheCharacter_3 : ∃ s : State,
    s.Inv ∧ 0 < s.cfg.nbuf ∧ 8 = s.numBitsOf 0 - min (s.padOf 0) (s.numBitsOf 0) ∧ 8 % 4 = 0 ∧
    8 / 4 ≤ s.operandIdx :=
  ⟨narrow 24 0x610000 16 0 2, by decide +kernel⟩
theorem witness_EncB64ReturnsTheCharacter_1 : ∃ s : State,
    s.Inv ∧ 0 < s.cfg.nbuf ∧ s.numBitsOf 0 % 6 = 0 ∧ s.operandIdx < s.numBitsOf 0 / 6 :=
  ⟨narrow 24 0x610000 16 0 3, by decide +kernel⟩
theorem witness_EncB64ReturnsTheCharacter_2 : ∃ s : State,
    s.Inv ∧ 0 < s.cfg.nbuf ∧ s.numBitsOf 0 % 6 ≠ 0 :=
  ⟨idle, by decide +kernel⟩
theorem witness_EncB64ReturnsTheCharacter_3 : ∃ s : State,
    s.Inv ∧ 0 < s.cfg.nbuf ∧ s.numBitsOf 0 % 6 = 0 ∧ s.numBitsOf 0 / 6 ≤ s.operandIdx :=
  ⟨narrow 24 0x610000 16 0 4, by decide +kernel⟩
theorem witness_EncAscReturnsTheCharacter_1 : ∃ s : State,
    s.Inv ∧ 0 < s.cfg.nbuf ∧ 16 = s.numBitsOf 0 - min (s.padOf 0) (s.numBitsOf 0) ∧ 16 % 8 = 0 ∧
    s.operandIdx < 16 / 8 :=
  ⟨narrow 24 0x616200 8 0 1, by decide +kernel⟩
theorem witness_EncAscReturnsTheCharacter_2 : ∃ s : State,
    s.Inv ∧ 0 < s.cfg.nbuf ∧ 12 = s.numBitsOf 0 - min (s.padOf 0) (s.numBitsOf 0) ∧ 12 % 8 ≠ 0 :=
  ⟨narrow 12 0xABC 0 0 0, by decide +kernel⟩
theorem witness_EncAscReturnsTheCharacter_3 : ∃ s : State,
    s.Inv ∧ 0 < s.cfg.nbuf ∧ 16 = s.numBitsOf 0 - min (s.padOf 0) (s.numBitsOf 0) ∧ 16 % 8 = 0 ∧
    16 / 8 ≤ s.operandIdx :=
  ⟨narrow 24 0x616200 8 0 2, by decide +kernel⟩
theorem witness_XorCombinesTheSlots_1 : ∃ s : State,
    s.Inv ∧ 2 < s.cfg.nbuf ∧ 0 < s.cfg.nbuf ∧ 1 < s.cfg.nbuf ∧ s.numBitsOf 0 = s.numBitsOf 1 :=
  ⟨narrow 31 0x55555555 0 0 0, by decide +kernel⟩
theorem witness_XorCombinesTheSlots_2 : ∃ s : State,
    s.Inv ∧ 2 < s.cfg.nbuf ∧ 0 < s.cfg.nbuf ∧ 1 < s.cfg.nbuf ∧ s.numBitsOf 0 ≠ s.numBitsOf 1 :=
  ⟨narrow 30 0x15555555 0 0 0, by decide +kernel⟩
theorem witness_RkxorAppliesTheKey_1 : ∃ s : State,
    s.Inv ∧ 1 < s.cfg.nbuf ∧ 0 < s.cfg.nbuf ∧ 8 ≤ s.numBitsOf 0 :=
  ⟨narrow 8 0x55 0 0 0, by decide +kernel⟩
theorem witness_RkxorAppliesTheKey_2 : ∃ s : State,
    s.Inv ∧ 1 < s.cfg.nbuf ∧ 0 < s.cfg.nbuf ∧ s.numBitsOf 0 < 8 :=
  ⟨narrow 7 0x55 0 0 0, by decide +kernel⟩
theorem witness_XorCommandsAreSelfInverse_1 :
    ∃ s t u : State, s.Inv ∧ 2 < s.cfg.nbuf ∧ 0 < s.cfg.nbuf ∧ 1 < s.cfg.nbuf ∧
    2 ≠ 1 ∧ s.numBitsOf 0 = s.numBitsOf 1 ∧ exec (.xor 2 0 1) s = .next t ∧ exec (.xor 2 2 1) t = .next u := by
  exact ⟨narrow 31 0x55555555 0 0 0, _, _, by decide +kernel, by decide, by decide, by decide, by decide,
    by decide +kernel, rfl, rfl⟩
theorem witness_XorCommandsAreSelfInverse_2 :
    ∃ s t u : State, s.Inv ∧ 1 < s.cfg.nbuf ∧ 0 < s.cfg.nbuf ∧ 1 ≠ 0 ∧
    8 ≤ s.numBitsOf 0 ∧ exec (.rkxor 1 0) s = .next t ∧ exec (.rkxor 1 0) t = .next u := by
  exact ⟨narrow 8 0x55 0 0 0, _, _, by decide +kernel, by decide, by decide, by decide, by decide +kernel, rfl, rfl⟩
theorem witness_HexCharCodec :
    (0x66 : Byte).toNat = hexAlphabet.getD 15 0 ∧ (0x47 : Byte).toNat ∉ hexAlphabet ∧ 15 ≤ 15 ∧ 15 < 16 := by
  decide
theorem witness_Base64CharCodec :
    (0x2F : Byte).toNat = b64Alphabet.getD 63 0 ∧ (0x3D : Byte).toNat ∉ b64Alphabet ∧ 63 ≤ 63 ∧ 63 < 64 := by
  decide
theorem witness_CharTablesRoundTrip : hexValue 0x66 = some 15 ∧ b64Value 0x2F = some 63 := by
  decide
theorem witness_BinaryStringsRoundTrip : ∃ s : State,
    s.Inv ∧ 0 < s.cfg.nbuf ∧ (∀ c ∈ List.replicate 31 (0x31 : Byte), c = 0x30 ∨ c = 0x31) ∧
    (List.replicate 31 (0x31 : Byte)).length ≤ s.cfg.cap :=
  ⟨idle, by decide +kernel⟩
theorem witness_HexStringsRoundTrip : ∃ s : State,
    s.Inv ∧ 0 < s.cfg.nbuf ∧ (∀ c ∈ List.replicate 7 (0x66 : Byte), c.toNat ∈ hexAlphabet) ∧
    4 * (List.replicate 7 (0x66 : Byte)).length ≤ s.cfg.cap :=
  ⟨idle, by decide +kernel⟩
theorem witness_AsciiStringsRoundTrip : ∃ s : State,
    s.Inv ∧ 0 < s.cfg.nbuf ∧ 8 * [(0x00 : Byte), 0x0A, 0xFF].length ≤ s.cfg.cap :=
  ⟨idle, by decide +kernel⟩
theorem witness_Base64StringsRoundTrip : ∃ s : State,
    s.Inv ∧ 0 < s.cfg.nbuf ∧ (∀ c ∈ [(0x59 : Byte), 0x51, 0x2F], c.toNat ∈ b64Alphabet) ∧ 2 ≤ 2 ∧
    6 * ([(0x59 : Byte), 0x51, 0x2F].length + 2) ≤ s.cfg.cap :=
  ⟨idle, by decide +kernel⟩
theorem witness_EncodeMacrosReadEveryCharacter_1 :
    ∃ s t : State, s.Inv ∧ s.latch = none ∧ exec (.enclenHex 0) s = .next t ∧ t.lastErr ≠ 0 :=
  ⟨narrow 13 0x61 0 0 0, _, by decide +kernel, rfl, rfl, by decide +kernel⟩
theorem witness_EncodeMacrosReadEveryCharacter_2 :
    ∃ s t : State, s.Inv ∧ s.latch = none ∧ exec (.enclenB64 0) s = .next t ∧ t.lastErr = 0 :=
  ⟨narrow 24 0x610000 16 0 0, _, by decide +kernel, rfl, rfl, by decide +kernel⟩
theorem witness_EncodeMacrosFailWithGroup : ∃ s : State,
    s.Inv ∧ 0 < s.cfg.nbuf ∧ 13 = s.numBitsOf 0 - min (s.padOf 0) (s.numBitsOf 0) ∧ 13 % 4 ≠ 0 ∧ 13 % 8 ≠ 0 ∧
    s.numBitsOf 0 % 6 ≠ 0 :=
  ⟨narrow 13 0x61 0 0 0, by decide +kernel⟩
theorem witness_RenderingsDecodeToTheSameBuffer : ∃ s : State,
    s.Inv ∧ s.latch = none ∧ 0 < s.cfg.nbuf ∧ 1 < s.cfg.nbuf ∧ s.padOf 0 = 0 ∧ s.numBitsOf 0 % 24 = 0 :=
  ⟨narrow 24 0x616263 0 0 0, by decide +kernel⟩

end Sys2Proof.Tests
end

section
/-! Settles the statement of 10_state.md R46: the block after reset. -/

namespace Sys2Proof.Machine

/-! ### The empty buffer -/

@[simp] theorem Slot.empty_words : Slot.empty.words = [0] := rfl
@[simp] theorem Slot.empty_used : Slot.empty.used = 0 := rfl
@[simp] theorem Slot.empty_numWords : Slot.empty.numWords = 1 := rfl

@[simp] theorem Slot.empty_numBytes (W : Nat) : Slot.empty.numBytes W = 0 := by
  simp [Slot.numBytes]

/-- Every slot number below NBUF names the empty buffer after reset (10_state.md R46). -/
theorem State.resetWith_slots_getElem? {c : Config} {d : Nat} (hd : d < c.nbuf) :
    (State.resetWith c).slots[d]? = some Slot.empty := by
  rw [State.resetWith_slots, List.getElem?_replicate_of_lt hd]

/-! ### STATUS and PARAM -/

/-- STATUS reads 0 after reset: not busy, no error recorded (10_state.md R35, R46). -/
@[simp] theorem State.resetWith_statusWord (c : Config) : (State.resetWith c).statusWord = 0 := by
  have hbusy : (State.resetWith c).busy = false := (State.busy_eq_false_iff _).mpr (State.resetWith_latch c)
  rw [State.statusWord, hbusy, State.resetWith_sticky, State.resetWith_overrun, State.resetWith_lastErr,
    State.resetWith_errChar]
  decide

/-- The number a concatenation stands for: the high part above the w bits of the low one. -/
theorem toNat_append_eq_add {v w : Nat} (x : BitVec v) (y : BitVec w) :
    (x ++ y).toNat = x.toNat * 2 ^ w + y.toNat := by
  rw [BitVec.toNat_append, ← Nat.shiftLeft_add_eq_or_of_lt y.isLt, Nat.shiftLeft_eq]

/-- PARAM as the sum of its fields, each in its own place (10_state.md R41). -/
theorem State.paramWord_toNat (s : State) :
    s.paramWord.toNat =
      s.cfg.wordWidth % 2 ^ 8 + s.cfg.nbuf % 2 ^ 8 * 2 ^ 8 + s.cfg.nw % 2 ^ 32 * 2 ^ 16 + 1 * 2 ^ 48 := by
  simp only [State.paramWord, toNat_append_eq_add, BitVec.toNat_ofNat]
  omega

/-- Every allowed parameter fits its field of PARAM (00_scope.md R5 to R7, 10_state.md R41). -/
theorem Config.Valid.fits_paramWord {c : Config} (h : c.Valid) :
    c.wordWidth < 2 ^ 8 ∧ c.nbuf < 2 ^ 8 ∧ c.nw < 2 ^ 32 := by
  have hW : c.wordWidth ≤ 64 := Config.Valid.wordWidth_le h
  have hNw : c.nw ≤ c.wordWidth * c.nw := Nat.le_mul_of_pos_left _ (Config.Valid.wordWidth_pos h)
  obtain ⟨-, -, hNbuf, -, hBits⟩ := h
  omega

/-- PARAM shows the parameters of an allowed configuration unreduced (10_state.md R41). -/
theorem State.paramWord_toNat_of_valid {s : State} (h : s.cfg.Valid) :
    s.paramWord.toNat = s.cfg.wordWidth + s.cfg.nbuf * 2 ^ 8 + s.cfg.nw * 2 ^ 16 + 1 * 2 ^ 48 := by
  obtain ⟨hW, hNbuf, hNw⟩ := Config.Valid.fits_paramWord h
  rw [State.paramWord_toNat, Nat.mod_eq_of_lt hW, Nat.mod_eq_of_lt hNbuf, Nat.mod_eq_of_lt hNw]

/-! ### Reset -/

/-- Settles O1: every slot is `Slot.empty`, every register holds 0, and the parameters of an allowed configuration
fit their fields of PARAM. -/
theorem resetLeavesEveryBufferEmpty : Obligations.ResetLeavesEveryBufferEmpty := by
  intro c hc
  have hslot : ∀ d < c.nbuf, ∃ b, (State.resetWith c).slots[d]? = some b ∧ b.words.head? = some 0 ∧
      b.numWords = 1 ∧ b.used = 0 ∧ b.pad = 0 ∧ b.numBits c.wordWidth = 0 ∧ b.numBytes c.wordWidth = 0 :=
    fun d hd => ⟨Slot.empty, State.resetWith_slots_getElem? hd, by simp⟩
  have hparam := State.paramWord_toNat_of_valid (s := State.resetWith c) hc
  exact ⟨hslot, by simp, State.resetWith_arg c, State.resetWith_idx c, State.resetWith_result c,
    State.resetWith_statusWord c, State.resetWith_latch c, hparam⟩

end Sys2Proof.Machine
end

section
/-! Settles the statement of 20_memory.md R58: two blocks with words of different widths but the same contents answer
every command alike, as long as neither meets the width limit or the capacity. -/

namespace Sys2Proof.Machine

/-! ### One buffer held in words of two widths -/

/-- The same buffer, in canonical form, in two configurations: the same bit sequence and the same padding count. -/
structure Slot.SameBuffer (c c' : Config) (b b' : Slot) : Prop where
  wf : b.WF c
  wf' : b'.WF c'
  numBits : b.numBits c.wordWidth = b'.numBits c'.wordWidth
  pad : b.pad = b'.pad
  bit_of_lt : ∀ p < b.numBits c.wordWidth, b.bit c.wordWidth p = b'.bit c'.wordWidth p

namespace Slot.SameBuffer

variable {c c' : Config} {a a' b b' : Slot}

/-- The spare bits of both are 0 (10_state.md R28), so the storage bits agree at every position. -/
theorem bit (h : SameBuffer c c' b b') (p : Nat) : b.bit c.wordWidth p = b'.bit c'.wordWidth p := by
  by_cases hp : p < b.numBits c.wordWidth
  · exact h.bit_of_lt p hp
  · have hp' : ¬ p < b'.numBits c'.wordWidth := h.numBits ▸ hp
    rw [h.wf.bit_of_ge (Nat.not_lt.mp hp), h.wf'.bit_of_ge (Nat.not_lt.mp hp')]

/-! What the commands read of a buffer does not depend on the width of its words. -/

theorem bitRead (h : SameBuffer c c' b b') (i w : Nat) :
    b.bitRead c.wordWidth i w = b'.bitRead c'.wordWidth i w :=
  bitsValue_congr _ _ w fun j _ => h.bit (i + j)

theorem numBytes (h : SameBuffer c c' b b') : b.numBytes c.wordWidth = b'.numBytes c'.wordWidth := by
  rw [Slot.numBytes, Slot.numBytes, h.numBits]

theorem bytePos (h : SameBuffer c c' b b') (k : Nat) : b.bytePos c.wordWidth k = b'.bytePos c'.wordWidth k := by
  rw [Slot.bytePos, Slot.bytePos, h.numBits]

theorem byteRead (h : SameBuffer c c' b b') (k : Nat) :
    b.byteRead c.wordWidth k = b'.byteRead c'.wordWidth k := by
  rw [Slot.byteRead, Slot.byteRead, h.bytePos, h.bitRead]

theorem unpadded (h : SameBuffer c c' b b') : b.unpadded c.wordWidth = b'.unpadded c'.wordWidth := by
  rw [Slot.unpadded, Slot.unpadded, h.numBits, h.pad]

theorem groupAt (h : SameBuffer c c' b b') (g k : Nat) :
    b.groupAt c.wordWidth g k = b'.groupAt c'.wordWidth g k := by
  rw [Slot.groupAt, Slot.groupAt, h.numBits, h.bitRead]

theorem b64CharAt (h : SameBuffer c c' b b') (k : Nat) :
    b.b64CharAt c.wordWidth k = b'.b64CharAt c'.wordWidth k := by
  rw [Slot.b64CharAt, Slot.b64CharAt, h.numBits, h.pad, h.groupAt]

/-! What the commands write leaves the same buffer in both. -/

theorem of_empty (hc : c.Valid) (hc' : c'.Valid) : SameBuffer c c' Slot.empty Slot.empty :=
  ⟨Slot.empty_wf hc, Slot.empty_wf hc', by simp, rfl, by simp⟩

/-- The padding count is no part of the bit sequence (10_state.md R25). -/
theorem withPad (h : SameBuffer c c' b b') (n : BitVec 32) :
    SameBuffer c c' { b with pad := n } { b' with pad := n } :=
  ⟨h.wf, h.wf', h.numBits, rfl, h.bit_of_lt⟩

/-- Appends that fit in both (20_memory.md R54). -/
theorem append {w v : Nat} (hc : c.Valid) (hc' : c'.Valid) (h : SameBuffer c c' b b')
    (ha : b.append c w v = .ok a) (ha' : b'.append c' w v = .ok a') : SameBuffer c c' a a' := by
  obtain ⟨hwf, hn, hpad, hold, hnew⟩ := Slot.append_spec hc h.wf ha
  obtain ⟨hwf', hn', hpad', hold', hnew'⟩ := Slot.append_spec hc' h.wf' ha'
  refine ⟨hwf, hwf', by rw [hn, hn', h.numBits], by rw [hpad, hpad', h.pad], fun p hp => ?_⟩
  by_cases hlt : p < b.numBits c.wordWidth
  · rw [hold p hlt, hold' p (h.numBits ▸ hlt), h.bit]
  · obtain ⟨j, rfl⟩ := Nat.exists_eq_add_of_le (Nat.not_lt.mp hlt)
    have hj : j < w := by omega
    rw [hnew j hj, h.numBits, hnew' j hj]

/-- A byte written within the buffer (20_memory.md R56). -/
theorem byteWrite {k : Nat} (hc : c.Valid) (hc' : c'.Valid) (h : SameBuffer c c' b b')
    (hk : k < b.numBytes c.wordWidth) (v : Nat) :
    SameBuffer c c' (b.byteWrite c.wordWidth k v) (b'.byteWrite c'.wordWidth k v) := by
  obtain ⟨hwf, hbit⟩ := Slot.byteWrite_spec (v := v) hc h.wf hk
  obtain ⟨hwf', hbit'⟩ := Slot.byteWrite_spec (v := v) hc' h.wf' (h.numBytes ▸ hk)
  refine ⟨hwf, hwf', by simpa using h.numBits, by simpa using h.pad, fun p _ => ?_⟩
  rw [hbit, hbit', h.bytePos, h.bit]

/-- The XOR of two buffers of the same size (43_xor.md R200). -/
theorem exclusiveOr (ha : SameBuffer c c' a a') (hb : SameBuffer c c' b b')
    (hn : a.numBits c.wordWidth = b.numBits c.wordWidth) :
    SameBuffer c c' (a.exclusiveOr b) (a'.exclusiveOr b') := by
  have hn' : a'.numBits c'.wordWidth = b'.numBits c'.wordWidth := by rw [← ha.numBits, ← hb.numBits, hn]
  obtain ⟨hwf, hbit⟩ := Slot.exclusiveOr_spec ha.wf hb.wf hn
  obtain ⟨hwf', hbit'⟩ := Slot.exclusiveOr_spec ha.wf' hb.wf' hn'
  refine ⟨hwf, hwf', by simpa using ha.numBits, by simpa using ha.pad, fun p _ => ?_⟩
  rw [hbit, hbit', ha.bit, hb.bit]

theorem keyedBytes (hc : c.Valid) (hc' : c'.Valid) (ha : SameBuffer c c' a a') (hb : SameBuffer c c' b b') (m : Nat)
    (hm : m ≤ a.numBytes c.wordWidth) :
    SameBuffer c c' (Slot.keyedBytes c.wordWidth a b m) (Slot.keyedBytes c'.wordWidth a' b' m) := by
  induction m with
  | zero => exact ha
  | succ m ih =>
    have hlt : m < (Slot.keyedBytes c.wordWidth a b m).numBytes c.wordWidth := by
      simpa [Slot.numBytes] using hm
    rw [Slot.keyedBytes, Slot.keyedBytes, ha.byteRead, hb.byteRead, hb.numBytes]
    exact (ih (by omega)).byteWrite hc hc' hlt _

/-- The XOR with a repeating key (43_xor.md R201). -/
theorem repeatingKeyXor (hc : c.Valid) (hc' : c'.Valid) (ha : SameBuffer c c' a a') (hb : SameBuffer c c' b b') :
    SameBuffer c c' (a.repeatingKeyXor c.wordWidth b) (a'.repeatingKeyXor c'.wordWidth b') := by
  rw [Slot.repeatingKeyXor, Slot.repeatingKeyXor, ← ha.numBytes]
  exact ha.keyedBytes hc hc' hb _ le_rfl

end Slot.SameBuffer

/-! ### Answers of a command in two configurations -/

/-- The two errors that R58 names: the width limit and the capacity. -/
def CmdError.IsLimit (e : CmdError) : Prop := e = .width ∨ e = .full

theorem CmdError.IsLimit.code_eq {e : CmdError} (h : e.IsLimit) : e.code = 3 ∨ e.code = 10 := by
  rcases h with rfl | rfl
  · exact .inl rfl
  · exact .inr rfl

/-- Two answers that differ at most because one of them meets a limit of its configuration (20_memory.md R58). -/
inductive SameAnswer (c c' : Config) : Except CmdError Effect → Except CmdError Effect → Prop where
  | leftLimit {e : CmdError} {r' : Except CmdError Effect} (h : e.IsLimit) : SameAnswer c c' (.error e) r'
  | rightLimit {e : CmdError} {r : Except CmdError Effect} (h : e.IsLimit) : SameAnswer c c' r (.error e)
  | error (e : CmdError) : SameAnswer c c' (.error e) (.error e)
  | nothing : SameAnswer c c' (.ok .nothing) (.ok .nothing)
  | result (v : BitVec 64) : SameAnswer c c' (.ok (.result v)) (.ok (.result v))
  | store {b b' : Slot} (d : Nat) (h : Slot.SameBuffer c c' b b') :
      SameAnswer c c' (.ok (.store d b)) (.ok (.store d b'))

namespace SameAnswer

variable {c c' : Config}

theorem ite {p : Prop} [Decidable p] {r₁ r₂ r₁' r₂' : Except CmdError Effect}
    (h₁ : p → SameAnswer c c' r₁ r₁') (h₂ : ¬ p → SameAnswer c c' r₂ r₂') :
    SameAnswer c c' (if p then r₁ else r₂) (if p then r₁' else r₂') := by
  split
  · exact h₁ ‹_›
  · exact h₂ ‹_›

theorem withWidth {r r' : Except CmdError Effect} (width : Nat) (h : SameAnswer c c' r r') :
    SameAnswer c c' (withWidth c width r) (withWidth c' width r') := by
  rcases Nat.lt_or_ge c.wordWidth width with hw | hw
  · rw [withWidth_of_gt hw]
    exact leftLimit (.inl rfl)
  rcases Nat.lt_or_ge c'.wordWidth width with hw' | hw'
  · rw [withWidth_of_gt hw']
    exact rightLimit (.inl rfl)
  · rwa [withWidth_of_le hw, withWidth_of_le hw']

/-- Append, and a store of what it answers: in each configuration FULL or the grown buffer. -/
theorem storeAppend {b b' : Slot} (hc : c.Valid) (hc' : c'.Valid) (h : Slot.SameBuffer c c' b b') (d w v : Nat) :
    SameAnswer c c' (storeAppend c d b w v) (storeAppend c' d b' w v) := by
  rcases storeAppend_cases c d b w v with hr | ⟨a, ha, hr⟩
  · rw [hr]
    exact leftLimit (.inr rfl)
  rcases storeAppend_cases c' d b' w v with hr' | ⟨a', ha', hr'⟩
  · rw [hr']
    exact rightLimit (.inr rfl)
  · rw [hr, hr']
    exact store d (h.append hc hc' ha ha')

theorem appendPadding {b b' : Slot} (hc : c.Valid) (hc' : c'.Valid) (h : Slot.SameBuffer c c' b b') (d : Nat) :
    SameAnswer c c' (appendPadding c d b) (appendPadding c' d b') := by
  unfold Machine.appendPadding
  rcases Slot.append_cases c b 6 0 with ⟨hr, -⟩ | ⟨a, ha, -⟩
  · simp only [hr]
    exact leftLimit (.inr rfl)
  rcases Slot.append_cases c' b' 6 0 with ⟨hr', -⟩ | ⟨a', ha', -⟩
  · simp only [hr']
    exact rightLimit (.inr rfl)
  · have hgrown := h.append hc hc' ha ha'
    simp only [ha, ha', hgrown.pad]
    exact store d (hgrown.withPad _)

theorem renderLength (m g : Nat) : SameAnswer c c' (renderLength m g) (renderLength m g) :=
  ite (fun _ => error _) fun _ => result _

theorem renderChar (m g k : Nat) (x : Byte) : SameAnswer c c' (renderChar m g k x) (renderChar m g k x) :=
  ite (fun _ => error _) fun _ => ite (fun _ => error _) fun _ => result _

theorem charToValue (value : Option Nat) (x : Byte) :
    SameAnswer c c' (charToValue value x) (charToValue value x) := by
  cases value with
  | some v => exact result _
  | none => exact error _

theorem valueToChar (limit n : Nat) (x : Byte) :
    SameAnswer c c' (valueToChar limit n x) (valueToChar limit n x) :=
  ite (fun _ => error _) fun _ => result _

end SameAnswer

/-! ### Two blocks with the same contents -/

/-- Two blocks that meet the invariant and have the same contents (20_memory.md R58). -/
structure SameBlock (s s' : State) : Prop where
  inv : s.Inv
  inv' : s'.Inv
  contents : SameContents s s'

namespace SameBlock

variable {s s' : State}

theorem valid (h : SameBlock s s') : s.cfg.Valid := h.inv.1

theorem valid' (h : SameBlock s s') : s'.cfg.Valid := h.inv'.1

theorem nbuf (h : SameBlock s s') : s.cfg.nbuf = s'.cfg.nbuf := h.contents.1

theorem slotAt (h : SameBlock s s') {d : Nat} (hd : d < s.cfg.nbuf) :
    Slot.SameBuffer s.cfg s'.cfg (s.slotAt d) (s'.slotAt d) := by
  obtain ⟨-, -, -, -, -, -, -, -, -, hslots⟩ := h.contents
  obtain ⟨hn, hpad, hbit⟩ := hslots d hd
  exact ⟨h.inv.slotAt_wf d, h.inv'.slotAt_wf d, hn, BitVec.eq_of_toNat_eq hpad, hbit⟩

theorem operandArg (h : SameBlock s s') : s.operandArg = s'.operandArg := by
  obtain ⟨-, harg, -, -, -, -, -, -, hlatch, -⟩ := h.contents
  rw [State.operandArg, State.operandArg, hlatch, harg]

theorem operandIdx (h : SameBlock s s') : s.operandIdx = s'.operandIdx := by
  obtain ⟨-, -, hidx, -, -, -, -, -, hlatch, -⟩ := h.contents
  rw [State.operandIdx, State.operandIdx, hlatch, hidx]

/-- A slot field names the same buffer in both blocks, or raises SLOT in both. -/
theorem withSlot (h : SameBlock s s') (d : Nat) {k k' : Slot → Except CmdError Effect}
    (hk : ∀ b b', Slot.SameBuffer s.cfg s'.cfg b b' → SameAnswer s.cfg s'.cfg (k b) (k' b')) :
    SameAnswer s.cfg s'.cfg (withSlot s d k) (withSlot s' d k') := by
  rcases Nat.lt_or_ge d s.cfg.nbuf with hd | hd
  · rw [withSlot_of_lt hd, withSlot_of_lt (h.nbuf ▸ hd)]
    exact hk _ _ (h.slotAt hd)
  · rw [withSlot_of_ge hd, withSlot_of_ge (h.nbuf ▸ hd)]
    exact .error _

theorem decodeChar (h : SameBlock s s') (d g : Nat) (x : Byte) (value : Option Nat) :
    SameAnswer s.cfg s'.cfg (decodeChar s d g x value) (decodeChar s' d g x value) :=
  h.withSlot d fun _ _ hb => by
    cases value with
    | some v => exact .storeAppend h.valid h.valid' hb d g v
    | none => exact .error _

end SameBlock

/-! ### The end of a command -/

namespace SameContents

variable {s s' : State}

theorem raise (h : SameContents s s') (e : CmdError) : SameContents (s.raise e) (s'.raise e) := by
  obtain ⟨hnbuf, harg, hidx, hresult, -, hoverrun, -, -, -, hslots⟩ := h
  exact ⟨hnbuf, harg, hidx, hresult, rfl, hoverrun, rfl, rfl, rfl, hslots⟩

theorem succeed (h : SameContents s s') : SameContents s.succeed s'.succeed := by
  obtain ⟨hnbuf, harg, hidx, hresult, hsticky, hoverrun, -, -, -, hslots⟩ := h
  exact ⟨hnbuf, harg, hidx, hresult, hsticky, hoverrun, rfl, rfl, rfl, hslots⟩

theorem setResult (h : SameContents s s') (v : BitVec 64) : SameContents (s.setResult v) (s'.setResult v) := by
  obtain ⟨hnbuf, harg, hidx, -, hrest⟩ := h
  exact ⟨hnbuf, harg, hidx, rfl, hrest⟩

end SameContents

namespace SameBlock

variable {s s' : State}

theorem setSlot (h : SameBlock s s') (d : Nat) {b b' : Slot} (hb : Slot.SameBuffer s.cfg s'.cfg b b') :
    SameContents (s.setSlot d b) (s'.setSlot d b') := by
  have hslots : ∀ e < s.cfg.nbuf,
      Slot.SameBuffer s.cfg s'.cfg ((s.setSlot d b).slotAt e) ((s'.setSlot d b').slotAt e) := by
    intro e he
    have hlen := h.inv.slot_lt he
    have hlen' := h.inv'.slot_lt (h.nbuf ▸ he)
    rw [State.slotAt_setSlot, State.slotAt_setSlot]
    by_cases hde : d = e
    · rwa [if_pos ⟨hde, hlen⟩, if_pos ⟨hde, hlen'⟩]
    · rw [if_neg fun hh => hde hh.1, if_neg fun hh => hde hh.1]
      exact h.slotAt he
  obtain ⟨hnbuf, harg, hidx, hresult, hsticky, hoverrun, herr, hchar, hlatch, -⟩ := h.contents
  exact ⟨hnbuf, harg, hidx, hresult, hsticky, hoverrun, herr, hchar, hlatch, fun e he =>
    ⟨(hslots e he).numBits, congrArg BitVec.toNat (hslots e he).pad, (hslots e he).bit_of_lt⟩⟩

/-- Answers that meet no limit complete blocks with the same contents to blocks with the same contents. -/
theorem complete_sameContents {t t' : State} {r r' : Except CmdError Effect} (h : SameBlock s s')
    (hr : SameAnswer s.cfg s'.cfg r r') (ht : complete s r = .next t) (ht' : complete s' r' = .next t')
    (hlimit : ¬ (t.lastErr = 3 ∨ t.lastErr = 10)) (hlimit' : ¬ (t'.lastErr = 3 ∨ t'.lastErr = 10)) :
    SameContents t t' := by
  cases hr with
  | leftLimit he =>
    cases ht
    exact absurd he.code_eq hlimit
  | rightLimit he =>
    cases ht'
    exact absurd he.code_eq hlimit'
  | error e =>
    cases ht
    cases ht'
    exact h.contents.raise e
  | nothing =>
    cases ht
    cases ht'
    exact h.contents.succeed
  | result v =>
    cases ht
    cases ht'
    exact (h.contents.setResult v).succeed
  | store d hb =>
    cases ht
    cases ht'
    exact (h.setSlot d hb).succeed

/-! ### Every command -/

/-- Every command is `complete` on answers that differ at most by a limit. -/
theorem exec_sameAnswer (h : SameBlock s s') (i : Instr) :
    ∃ r r', exec i s = complete s r ∧ exec i s' = complete s' r' ∧
      SameAnswer s.cfg s'.cfg r r' := by
  cases i with
  | clear d => exact ⟨_, _, rfl, rfl, h.withSlot d fun _ _ _ => .store d (.of_empty h.valid h.valid')⟩
  | addbit d bit =>
    exact ⟨_, _, rfl, rfl, h.withSlot d fun _ _ hb => .storeAppend h.valid h.valid' hb d 1 bit.toNat⟩
  | addbits d width =>
    refine ⟨_, _, rfl, rfl, h.withSlot d fun _ _ hb => .withWidth width ?_⟩
    rw [h.operandArg]
    exact .ite (fun _ => .error _) fun _ => .storeAppend h.valid h.valid' hb d width _
  | getbits d width =>
    refine ⟨_, _, rfl, rfl, h.withSlot d fun _ _ hb => .withWidth width ?_⟩
    rw [h.operandIdx, hb.numBits, hb.bitRead]
    exact .ite (fun _ => .error _) fun _ => .result _
  | getbyte d =>
    refine ⟨_, _, rfl, rfl, h.withSlot d fun _ _ hb => ?_⟩
    rw [h.operandIdx, hb.numBytes, hb.byteRead]
    exact .ite (fun _ => .error _) fun _ => .result _
  | setbyte d byte =>
    refine ⟨_, _, rfl, rfl, h.withSlot d fun _ _ hb => ?_⟩
    rw [h.operandIdx, ← hb.numBytes]
    exact .ite (fun _ => .error _) fun hk =>
      .store d (hb.byteWrite h.valid h.valid' (Nat.not_le.mp hk) byte.toNat)
  | numbits d =>
    refine ⟨_, _, rfl, rfl, h.withSlot d fun _ _ hb => ?_⟩
    rw [hb.numBits]
    exact .result _
  | numbytes d =>
    refine ⟨_, _, rfl, rfl, h.withSlot d fun _ _ hb => ?_⟩
    rw [hb.numBytes]
    exact .result _
  | padbits d =>
    refine ⟨_, _, rfl, rfl, h.withSlot d fun _ _ hb => ?_⟩
    rw [hb.pad]
    exact .result _
  | decBin d x => exact ⟨_, _, rfl, rfl, h.decodeChar d 1 x (binValue x)⟩
  | decHex d x => exact ⟨_, _, rfl, rfl, h.decodeChar d 4 x (hexValue x)⟩
  | decB64 d x =>
    exact ⟨_, _, rfl, rfl, .ite (fun _ => h.withSlot d fun _ _ _ => .nothing) fun _ =>
      .ite (fun _ => h.withSlot d fun _ _ hb => .appendPadding h.valid h.valid' hb d) fun _ =>
        h.decodeChar d 6 x (b64Value x)⟩
  | decAsc d x => exact ⟨_, _, rfl, rfl, h.decodeChar d 8 x (ascValue x)⟩
  | enclenBin d =>
    refine ⟨_, _, rfl, rfl, h.withSlot d fun _ _ hb => ?_⟩
    rw [hb.numBits]
    exact .result _
  | encBin d =>
    refine ⟨_, _, rfl, rfl, h.withSlot d fun _ _ hb => ?_⟩
    rw [h.operandIdx, hb.numBits, hb.bit]
    exact .ite (fun _ => .error _) fun _ => .result _
  | enclenHex d =>
    refine ⟨_, _, rfl, rfl, h.withSlot d fun _ _ hb => ?_⟩
    rw [hb.unpadded]
    exact .renderLength _ 4
  | encHex d =>
    refine ⟨_, _, rfl, rfl, h.withSlot d fun _ _ hb => ?_⟩
    rw [h.operandIdx, hb.unpadded, hb.groupAt]
    exact .renderChar _ 4 _ _
  | enclenB64 d =>
    refine ⟨_, _, rfl, rfl, h.withSlot d fun _ _ hb => ?_⟩
    rw [hb.numBits]
    exact .renderLength _ 6
  | encB64 d =>
    refine ⟨_, _, rfl, rfl, h.withSlot d fun _ _ hb => ?_⟩
    rw [h.operandIdx, hb.numBits, hb.b64CharAt]
    exact .renderChar _ 6 _ _
  | enclenAsc d =>
    refine ⟨_, _, rfl, rfl, h.withSlot d fun _ _ hb => ?_⟩
    rw [hb.unpadded]
    exact .renderLength _ 8
  | encAsc d =>
    refine ⟨_, _, rfl, rfl, h.withSlot d fun _ _ hb => ?_⟩
    rw [h.operandIdx, hb.unpadded, hb.groupAt]
    exact .renderChar _ 8 _ _
  | xor d a b =>
    refine ⟨_, _, rfl, rfl, h.withSlot d fun _ _ _ => h.withSlot a fun _ _ ha => h.withSlot b fun _ _ hb => ?_⟩
    rw [← ha.numBits, ← hb.numBits]
    exact .ite (fun _ => .error _) fun hn => .store d (ha.exclusiveOr hb (not_not.mp hn))
  | rkxor d a =>
    refine ⟨_, _, rfl, rfl, h.withSlot d fun _ _ ht => h.withSlot a fun _ _ hk => ?_⟩
    rw [← hk.numBytes]
    exact .ite (fun _ => .error _) fun _ => .store d (ht.repeatingKeyXor h.valid h.valid' hk)
  | c2vHex x => exact ⟨_, _, rfl, rfl, .charToValue (hexValue x) x⟩
  | v2cHex n => exact ⟨_, _, rfl, rfl, .valueToChar 15 n (hexChar n)⟩
  | c2vB64 x => exact ⟨_, _, rfl, rfl, .charToValue (b64Value x) x⟩
  | v2cB64 n => exact ⟨_, _, rfl, rfl, .valueToChar 63 n (b64Char n)⟩

end SameBlock

/-- Settles O28: what a command reads of a slot depends on its bit sequence and padding count alone, so each command
computes the same answer in both blocks, or one of the two meets a limit. -/
theorem resultsDoNotDependOnTheWordWidth : Obligations.ResultsDoNotDependOnTheWordWidth := by
  intro i s s' t t' hinv hinv' hcontents ht ht' hwidth hfull hwidth' hfull'
  have h : SameBlock s s' := ⟨hinv, hinv', hcontents⟩
  obtain ⟨r, r', hr, hr', hanswer⟩ := h.exec_sameAnswer i
  exact h.complete_sameContents hanswer (hr ▸ ht) (hr' ▸ ht') (not_or.mpr ⟨hwidth, hfull⟩)
    (not_or.mpr ⟨hwidth', hfull'⟩)

end Sys2Proof.Machine
end

section
/-! Settles the statements of 30_encoding.md R75 to R78: the rows of the opcode map and the decoder agree on every
word, and a latched word that no row spells raises ILLEGAL. -/

namespace Sys2Proof

/-! ### The six layouts of the opcode map -/

/-- Which fields besides OP a row of the opcode map uses (30_encoding.md R75, "used fields"). -/
inductive Layout where
  | onlyD
  | dImm
  | dBit
  | dAB
  | dA
  | onlyImm

/-- The decoder's strict check of a row with this layout (30_encoding.md R76). -/
def Layout.unusedAreZero : Layout → Fields → Bool
  | .onlyD => Fields.usesOnlyD
  | .dImm => Fields.usesDImm
  | .dBit => Fields.usesDBit
  | .dAB => Fields.usesDAB
  | .dA => Fields.usesDA
  | .onlyImm => Fields.usesOnlyImm

/-- The mask of a row with this layout, field by field: 1 in OP and in every bit that must be 0 (30_encoding.md R75). -/
def Layout.mask : Layout → Fields
  | .onlyD => ⟨.allOnes 8, 0, .allOnes 4, .allOnes 4, .allOnes 8, .allOnes 4⟩
  | .dImm => ⟨.allOnes 8, 0, .allOnes 4, .allOnes 4, 0, .allOnes 4⟩
  | .dBit => ⟨.allOnes 8, 0, .allOnes 4, .allOnes 4, 0xFE, .allOnes 4⟩
  | .dAB => ⟨.allOnes 8, 0, 0, 0, .allOnes 8, .allOnes 4⟩
  | .dA => ⟨.allOnes 8, 0, 0, .allOnes 4, .allOnes 8, .allOnes 4⟩
  | .onlyImm => ⟨.allOnes 8, .allOnes 4, .allOnes 4, .allOnes 4, 0, .allOnes 4⟩

@[simp] theorem Layout.mask_op (l : Layout) : l.mask.op = .allOnes 8 := by cases l <;> rfl
@[simp] theorem Layout.mask_rsv (l : Layout) : l.mask.rsv = .allOnes 4 := by cases l <;> rfl

/-- ADDBIT's mask on IMM8 leaves out the bit it appends (30_encoding.md R72). -/
theorem and_254_eq_zero_iff (x : BitVec 8) : x &&& 0xFE#8 = 0#8 ↔ x.extractLsb' 1 7 = 0#7 := by
  revert x
  decide

/-- The strict check of R76 is that every bit under the layout's mask, outside OP and RSV, is 0. -/
theorem Layout.unusedAreZero_iff (l : Layout) (f : Fields) :
    l.unusedAreZero f = true ↔
      f.d &&& l.mask.d = 0 ∧ f.a &&& l.mask.a = 0 ∧ f.b &&& l.mask.b = 0 ∧ f.imm8 &&& l.mask.imm8 = 0 := by
  cases l with
  | onlyD => simp [mask, unusedAreZero, Fields.usesOnlyD, and_assoc, -BitVec.reduceAllOnes]
  | dImm => simp [mask, unusedAreZero, Fields.usesDImm, -BitVec.reduceAllOnes]
  | dBit => simp [mask, unusedAreZero, Fields.usesDBit, and_254_eq_zero_iff, and_assoc, -BitVec.reduceAllOnes]
  | dAB => simp [mask, unusedAreZero, Fields.usesDAB, -BitVec.reduceAllOnes]
  | dA => simp [mask, unusedAreZero, Fields.usesDA, -BitVec.reduceAllOnes]
  | onlyImm => simp [mask, unusedAreZero, Fields.usesOnlyImm, and_assoc, -BitVec.reduceAllOnes]

/-! ### The row of a command -/

/-- The layout of a command's row (30_encoding.md R75). -/
def Instr.layout : Instr → Layout
  | .addbit _ _ => .dBit
  | .addbits _ _ | .getbits _ _ | .setbyte _ _ => .dImm
  | .decBin _ _ | .decHex _ _ | .decB64 _ _ | .decAsc _ _ => .dImm
  | .xor _ _ _ => .dAB
  | .rkxor _ _ => .dA
  | .c2vHex _ | .v2cHex _ | .c2vB64 _ | .v2cB64 _ => .onlyImm
  | _ => .onlyD

/-- The row of the opcode map that a command belongs to (30_encoding.md R75). -/
def Instr.row (i : Instr) : OpcodeRow :=
  { mnemonic := i.mnemonic
    pattern := (Fields.forDImm i.opcode 0 0).toWord
    mask := i.layout.mask.toWord }

/-- The opcode map lists the row of one command of each kind. -/
theorem opcodeRows_eq_map_row :
    opcodeRows =
      [Instr.clear 0, .addbit 0 false, .addbits 0 0, .getbits 0 0, .getbyte 0, .setbyte 0 0, .numbits 0, .numbytes 0,
        .padbits 0, .decBin 0 0, .decHex 0 0, .decB64 0 0, .decAsc 0 0, .enclenBin 0, .encBin 0, .enclenHex 0,
        .encHex 0, .enclenB64 0, .encB64 0, .enclenAsc 0, .encAsc 0, .xor 0 0 0, .rkxor 0 0, .c2vHex 0, .v2cHex 0,
        .c2vB64 0, .v2cB64 0].map Instr.row := rfl

/-- Every row of the opcode map is the row of some command. -/
theorem exists_row_eq_of_mem {r : OpcodeRow} (hr : r ∈ opcodeRows) : ∃ i : Instr, i.row = r := by
  rw [opcodeRows_eq_map_row] at hr
  obtain ⟨i, -, hi⟩ := List.mem_map.mp hr
  exact ⟨i, hi⟩

/-- The row of every command is in the opcode map. -/
theorem Instr.row_mem (i : Instr) : i.row ∈ opcodeRows := by
  rw [opcodeRows_eq_map_row]
  cases i <;> simp [Instr.row, Instr.mnemonic, Instr.opcode, Instr.layout]

/-- A word spells a command's row exactly if it has the row's OP and passes the strict check (30_encoding.md R75,
R76). -/
theorem Instr.row_spells_iff (i : Instr) (w : CommandWord) :
    i.row.Spells w ↔
      (Fields.ofWord w).op = i.opcode ∧ (Fields.ofWord w).rsv = 0 ∧
        i.layout.unusedAreZero (Fields.ofWord w) = true := by
  rw [OpcodeRow.spells_iff, Layout.unusedAreZero_iff]
  simp only [Instr.row, Fields.ofWord_toWord, Fields.forDImm, Layout.mask_op, Layout.mask_rsv, BitVec.and_allOnes]
  tauto

/-! ### Rows are told apart by their OP, and by their mnemonic -/

/-- A word that spells a row has its OP, so the row's match is that OP with the other fields 0. -/
theorem pattern_eq_of_spells {r : OpcodeRow} {w : CommandWord} (hr : r ∈ opcodeRows) (hw : r.Spells w) :
    r.pattern = (Fields.forDImm (Fields.ofWord w).op 0 0).toWord := by
  obtain ⟨i, rfl⟩ := exists_row_eq_of_mem hr
  obtain ⟨hop, -, -⟩ := (i.row_spells_iff w).mp hw
  rw [hop, Instr.row]

theorem nodup_patterns : (opcodeRows.map OpcodeRow.pattern).Nodup := by
  decide

theorem nodup_mnemonics : (opcodeRows.map OpcodeRow.mnemonic).Nodup := by
  decide

/-- No two rows overlap, because their OP values differ (30_encoding.md R78). -/
theorem row_eq_of_spells {r r' : OpcodeRow} {w : CommandWord} (hr : r ∈ opcodeRows) (hr' : r' ∈ opcodeRows)
    (hw : r.Spells w) (hw' : r'.Spells w) : r = r' :=
  List.inj_on_of_nodup_map nodup_patterns hr hr'
    ((pattern_eq_of_spells hr hw).trans (pattern_eq_of_spells hr' hw').symm)

/-- The row of the opcode map with a command's mnemonic is that command's row. -/
theorem Instr.row_eq_of_mnemonic {r : OpcodeRow} {i : Instr} (hr : r ∈ opcodeRows) (h : i.mnemonic = r.mnemonic) :
    i.row = r :=
  List.inj_on_of_nodup_map nodup_mnemonics i.row_mem hr h

/-! ### The decoder against the rows -/

/-- The decoder takes the arm of a word's OP: the strict check of that row, and a command of it. -/
theorem decodeFields_of_op {f : Fields} {i : Instr} (h : f.op = i.opcode) :
    ∃ j, decodeFields f = checkRow f (i.layout.unusedAreZero f) j := by
  unfold decodeFields
  rw [h]
  cases i <;> exact ⟨_, rfl⟩

/-- What decodes has the OP of its command's row and passed the strict check of that row (30_encoding.md R76). -/
theorem decodeFields_eq_ok {f : Fields} {i : Instr} (h : decodeFields f = .ok i) :
    f.op = i.opcode ∧ f.rsv = 0 ∧ i.layout.unusedAreZero f = true := by
  unfold decodeFields at h
  split at h
  case h_28 => cases h
  all_goals
    rename_i hop
    obtain ⟨hrsv, hunused, rfl⟩ := (checkRow_eq_ok_iff ..).mp h
    exact ⟨BitVec.eq_of_toNat_eq hop, hrsv, hunused⟩

/-- A word that decodes spells the row of the command it decodes to. -/
theorem row_spells_of_decode {w : CommandWord} {i : Instr} (h : decode w = .ok i) : i.row.Spells w :=
  (i.row_spells_iff w).mpr (decodeFields_eq_ok h)

/-- A word that spells a row decodes, to a command of that row. -/
theorem exists_decode_of_spells {r : OpcodeRow} {w : CommandWord} (hr : r ∈ opcodeRows) (hw : r.Spells w) :
    ∃ i, decode w = .ok i ∧ i.row = r := by
  obtain ⟨k, rfl⟩ := exists_row_eq_of_mem hr
  obtain ⟨hop, hrsv, hunused⟩ := (k.row_spells_iff w).mp hw
  obtain ⟨i, hi⟩ := decodeFields_of_op hop
  have hdec : decode w = .ok i := hi.trans ((checkRow_eq_ok_iff ..).mpr ⟨hrsv, hunused, rfl⟩)
  exact ⟨i, hdec, row_eq_of_spells i.row_mem hr (row_spells_of_decode hdec) hw⟩

/-- A word that no row spells is rejected (30_encoding.md R76, R77). -/
theorem decode_eq_error_of_unspelled {w : CommandWord} (h : ∀ r ∈ opcodeRows, ¬ r.Spells w) :
    ∃ e, decode w = .error e := by
  cases hdec : decode w with
  | ok i => exact absurd (row_spells_of_decode hdec) (h i.row i.row_mem)
  | error e => exact ⟨e, rfl⟩

end Sys2Proof

namespace Sys2Proof.Machine

/-- Settles O8: a word that decodes passed the strict check of its command's row, which is that row's mask and
match; rows are disjoint because their OP values differ. -/
theorem wordsSpellTheRowTheyMatch : Obligations.WordsSpellTheRowTheyMatch := by
  refine ⟨fun w r hr => ⟨fun hw => ?_, ?_⟩, fun w r hr r' hr' => row_eq_of_spells hr hr',
    fun w => decode_eq_error_of_unspelled⟩
  · obtain ⟨i, hdec, rfl⟩ := exists_decode_of_spells hr hw
    exact ⟨i, hdec, rfl⟩
  · rintro ⟨i, hdec, hi⟩
    exact Instr.row_eq_of_mnemonic hr hi ▸ row_spells_of_decode hdec

/-- Settles O9: the decoder rejects the latched word, so the step raises ILLEGAL, and an error changes only STATUS. -/
theorem unspelledWordsRaiseIllegal : Obligations.UnspelledWordsRaiseIllegal := by
  intro s l hreset hlatch hwait hunspelled
  obtain ⟨e, he⟩ := decode_eq_error_of_unspelled hunspelled
  have hstep : step s = rejectCommand s := by rw [step_fetch hreset hlatch hwait, he]
  exact ⟨s.raise .illegal, hstep, FailsWith.of_raise s .illegal⟩

end Sys2Proof.Machine
end

section
/-! Settles the statement of 40_char_codecs.md R106: the character tables are inverse to each other, and C2V after V2C
gives the value back. -/

namespace Sys2Proof.Machine

/-! ### The tables -/

/-- A table that finds a character's place in an alphabet is undone by one that writes the character at a place. -/
theorem char_of_value {value : Byte → Option Nat} {char : Nat → Byte} {limit : Nat} {alphabet : List Nat}
    (hvalue : ∀ c, (∃ v, value c = some v ∧ v < limit ∧ c.toNat = alphabet.getD v 0) ∨
      (value c = none ∧ c.toNat ∉ alphabet))
    (hchar : ∀ n < limit, (char n).toNat = alphabet.getD n 0) {c : Byte} {n : Nat} (h : value c = some n) :
    char n = c := by
  rcases hvalue c with ⟨v, hv, hlt, hplace⟩ | ⟨hnone, -⟩
  · obtain rfl : n = v := Option.some.inj (h.symm.trans hv)
    exact BitVec.eq_of_toNat_eq ((hchar n hlt).trans hplace.symm)
  · rw [hnone] at h
    cases h

/-- The character written for a hex value has that value: it stands at no other place of the alphabet
(40_char_codecs.md R100, R106). -/
theorem hexValue_hexChar {n : Nat} (h : n < 16) : hexValue (hexChar n) = some n :=
  hexValue_of_place h (hexChar_toNat h)

/-- A character with a hex value is the one written for that value (40_char_codecs.md R106). -/
theorem hexChar_of_hexValue {c : Byte} {n : Nat} (h : hexValue c = some n) : hexChar n = c :=
  char_of_value hexValue_spec (fun _ => hexChar_toNat) h

/-- The character written for a base64 value has that value: it stands at no other place of the alphabet
(40_char_codecs.md R101, R106). -/
theorem b64Value_b64Char {n : Nat} (h : n < 64) : b64Value (b64Char n) = some n :=
  b64Value_of_place h (b64Char_toNat h)

/-- A character with a base64 value is the one written for that value (40_char_codecs.md R106). -/
theorem b64Char_of_b64Value {c : Byte} {n : Nat} (h : b64Value c = some n) : b64Char n = c :=
  char_of_value b64Value_spec (fun _ => b64Char_toNat) h

/-! ### The commands -/

/-- C2V_HEX answers the value of a character that has one (40_char_codecs.md R102). -/
theorem Returns.c2vHex {c : Byte} {v : Nat} (s : State) (h : hexValue c = some v) : Returns (.c2vHex c) s v :=
  .of_result (congrArg (fun value => complete s (charToValue value c)) h)

/-- C2V_B64 answers the value of a character that has one (40_char_codecs.md R104). -/
theorem Returns.c2vB64 {c : Byte} {v : Nat} (s : State) (h : b64Value c = some v) : Returns (.c2vB64 c) s v :=
  .of_result (congrArg (fun value => complete s (charToValue value c)) h)

/-- Up to its limit, V2C takes the character and not VALUE (40_char_codecs.md R103, R105). -/
theorem valueToChar_of_le {limit n : Nat} (c : Byte) (h : n ≤ limit) : valueToChar limit n c = resultOf c.toNat :=
  if_neg h.not_gt

/-- V2C_HEX answers the character of a value up to 15 (40_char_codecs.md R103). -/
theorem Returns.v2cHex {n : Nat} (s : State) (h : n < 16) : Returns (.v2cHex n) s (hexChar n).toNat :=
  .of_result (congrArg (complete s) (valueToChar_of_le (hexChar n) (Nat.le_of_lt_succ h)))

/-- V2C_B64 answers the character of a value up to 63 (40_char_codecs.md R105). -/
theorem Returns.v2cB64 {n : Nat} (s : State) (h : n < 64) : Returns (.v2cB64 n) s (b64Char n).toNat :=
  .of_result (congrArg (complete s) (valueToChar_of_le (b64Char n) (Nat.le_of_lt_succ h)))

/-- A command given the character that the command before it left in RESULT is given that very character: its 8 bits
pass through the 64 of RESULT unchanged (10_state.md R34). -/
theorem Returns.then_on_result {i : Instr} {back : Byte → Instr} {s : State} {c : Byte} {v : Nat}
    (h : Returns i s c.toNat) (hback : ∀ t, Returns (back c) t v) :
    ∃ t, exec i s = .next t ∧ Returns (back (t.result.setWidth 8)) t v := by
  obtain ⟨t, hexec, -, -, hresult⟩ := h
  have hchar : t.result.setWidth 8 = c := by simp [hresult]
  exact ⟨t, hexec, hchar.symm ▸ hback t⟩

/-- Settles O50: both tables list the places of an alphabet without repetition, and V2C leaves in RESULT the
character that C2V looks up. -/
theorem charTablesRoundTrip : Obligations.CharTablesRoundTrip := by
  refine ⟨fun _ => hexValue_hexChar, fun _ _ => hexChar_of_hexValue, fun _ => b64Value_b64Char,
    fun _ _ => b64Char_of_b64Value, fun s n hn => ?hex, fun s n hn => ?b64⟩
  case hex => exact (Returns.v2cHex s hn).then_on_result fun t => .c2vHex t (hexValue_hexChar hn)
  case b64 => exact (Returns.v2cB64 s hn).then_on_result fun t => .c2vB64 t (b64Value_b64Char hn)

end Sys2Proof.Machine
end

section
/-! Settles the statement of 43_xor.md R202: applied twice with the same second source, or the same key, the XOR
commands give back what they began with. -/

namespace Sys2Proof.Machine

/-! ### The operations over slots (43_xor.md R200, R201) -/

/-- Each word is XORed with the same word twice, and used and pad are never touched, so the slot comes back whole,
whatever the lengths. -/
@[simp] theorem Slot.exclusiveOr_exclusiveOr_self (a b : Slot) : (a.exclusiveOr b).exclusiveOr b = a := by
  have hwords : ((a.words.mapIdx fun k x => x ^^^ b.words.getD k 0).mapIdx fun k x => x ^^^ b.words.getD k 0) =
      a.words :=
    List.ext_getElem (by simp) fun k _ _ => by simp
  rw [Slot.exclusiveOr, Slot.exclusiveOr, hwords]

/-- Every bit above the n mod 8 trailing ones belongs to a byte (20_memory.md R56). -/
theorem Slot.exists_bytePos_add_eq {W p : Nat} {b : Slot} (hlow : b.numBits W % 8 ≤ p) (hlt : p < b.numBits W) :
    ∃ i < b.numBytes W, ∃ j < 8, p = b.bytePos W i + j := by
  unfold Slot.numBytes Slot.bytePos
  refine ⟨(b.numBits W - 1 - p) / 8, by omega, 7 - (b.numBits W - 1 - p) % 8, by omega, by omega⟩

/-- The key and the byte positions are the same both times, so each whole byte is XORed twice with one key byte;
the trailing bits are never touched. -/
theorem Slot.repeatingKeyXor_repeatingKeyXor_self {c : Config} {t : Slot} (hc : c.Valid) (ht : t.WF c) (k : Slot) :
    (t.repeatingKeyXor c.wordWidth k).repeatingKeyXor c.wordWidth k = t := by
  obtain ⟨hwf, hbyte, htrail⟩ := Slot.repeatingKeyXor_spec (k := k) hc ht
  obtain ⟨hwf', hbyte', htrail'⟩ := Slot.repeatingKeyXor_spec (k := k) hc hwf
  simp only [Slot.numBytes, Slot.bytePos, Slot.repeatingKeyXor_numBits] at hbyte hbyte' htrail'
  refine hwf'.ext ht (by simp) (fun p hp => ?_) (by simp)
  simp only [Slot.repeatingKeyXor_numBits] at hp
  by_cases hlow : p < t.numBits c.wordWidth % 8
  · rw [htrail' p hlow, htrail p hlow]
  · obtain ⟨i, hi, j, hj, rfl⟩ := Slot.exists_bytePos_add_eq (Nat.not_lt.mp hlow) hp
    rw [Slot.bytePos, hbyte' i hi j hj, hbyte i hi j hj, Bool.xor_assoc, Bool.xor_self, Bool.xor_false]

/-! ### The commands -/

/-- XOR of two slots of the same length stores their XOR (43_xor.md R200). -/
theorem exec_xor_of_numBits_eq {s : State} {d a b : Nat} (hd : d < s.cfg.nbuf) (ha : a < s.cfg.nbuf)
    (hb : b < s.cfg.nbuf) (hn : s.numBitsOf a = s.numBitsOf b) :
    exec (.xor d a b) s = complete s (.ok (.store d ((s.slotAt a).exclusiveOr (s.slotAt b)))) := by
  refine congrArg (complete s) ?_
  rw [withSlot_of_lt hd, withSlot_of_lt ha, withSlot_of_lt hb]
  exact if_neg (not_not.mpr hn)

/-- RKXOR with a key of at least one byte stores the keyed target (43_xor.md R201). -/
theorem exec_rkxor_of_key {s : State} {d a : Nat} (hd : d < s.cfg.nbuf) (ha : a < s.cfg.nbuf)
    (hkey : 8 ≤ s.numBitsOf a) :
    exec (.rkxor d a) s =
      complete s (.ok (.store d ((s.slotAt d).repeatingKeyXor s.cfg.wordWidth (s.slotAt a)))) := by
  have hbytes : (s.slotAt a).numBytes s.cfg.wordWidth ≠ 0 := (Nat.div_pos hkey (by omega)).ne'
  refine congrArg (complete s) ?_
  rw [withSlot_of_lt hd, withSlot_of_lt ha]
  exact if_neg hbytes

/-- t is s after a command that stored b as slot d and succeeded (30_encoding.md R79). -/
structure Stored (s t : State) (d : Nat) (b : Slot) : Prop where
  cfg : t.cfg = s.cfg
  slots : t.slots = s.slots.set d b
  target : d < s.slots.length → t.slotAt d = b
  other : ∀ e, d ≠ e → t.slotAt e = s.slotAt e
  lastErr : t.lastErr = 0

theorem Stored.of_exec {i : Instr} {s t : State} {d : Nat} {b : Slot}
    (h : exec i s = complete s (.ok (.store d b))) (ht : exec i s = .next t) : Stored s t d b := by
  obtain rfl := Host.Outcome.next.inj (h.symm.trans ht)
  exact ⟨rfl, rfl, fun hd => State.slotAt_store hd b, fun _ hde => State.slotAt_store_ne hde b, rfl⟩

/-- Storing a slot and then its earlier content leaves the storage as it was. -/
theorem State.slots_set_set_slotAt {s : State} {d : Nat} (hd : d < s.slots.length) (b : Slot) :
    (s.slots.set d b).set d (s.slotAt d) = s.slots := by
  simp [State.slotAt, List.getD_eq_getElem?_getD, hd]

/-- XOR with b into d, and once more in place: d holds the first source (43_xor.md R202). -/
theorem xor_then_xor_restores_source {s t u : State} {d a b : Nat} (hs : s.Inv) (hd : d < s.cfg.nbuf)
    (ha : a < s.cfg.nbuf) (hb : b < s.cfg.nbuf) (hdb : d ≠ b) (hn : s.numBitsOf a = s.numBitsOf b)
    (ht : exec (.xor d a b) s = .next t) (hu : exec (.xor d d b) t = .next u) :
    u.slotAt d = s.slotAt a ∧ u.lastErr = 0 := by
  have h := Stored.of_exec (exec_xor_of_numBits_eq hd ha hb hn) ht
  have hlen := hs.slot_lt hd
  have htarget := h.target hlen
  have hother := h.other b hdb
  have hn' : t.numBitsOf d = t.numBitsOf b := by
    rw [State.numBitsOf, State.numBitsOf, htarget, hother, h.cfg, Slot.exclusiveOr_numBits]
    exact hn
  rw [← h.cfg] at hd hb
  have h' := Stored.of_exec (exec_xor_of_numBits_eq hd hd hb hn') hu
  rw [htarget, hother, Slot.exclusiveOr_exclusiveOr_self] at h'
  exact ⟨h'.target (by simpa [h.slots] using hlen), h'.lastErr⟩

/-- RKXOR twice with a key held in another slot: the storage is as before (43_xor.md R202). -/
theorem rkxor_then_rkxor_restores_slots {s t u : State} {d a : Nat} (hs : s.Inv) (hd : d < s.cfg.nbuf)
    (ha : a < s.cfg.nbuf) (hda : d ≠ a) (hkey : 8 ≤ s.numBitsOf a) (ht : exec (.rkxor d a) s = .next t)
    (hu : exec (.rkxor d a) t = .next u) : u.slots = s.slots ∧ u.lastErr = 0 := by
  have h := Stored.of_exec (exec_rkxor_of_key hd ha hkey) ht
  have hlen := hs.slot_lt hd
  have hother := h.other a hda
  have hkey' : 8 ≤ t.numBitsOf a := by
    rw [State.numBitsOf, hother, h.cfg]
    exact hkey
  rw [← h.cfg] at hd ha
  have h' := Stored.of_exec (exec_rkxor_of_key hd ha hkey') hu
  rw [h.target hlen, hother, h.cfg, Slot.repeatingKeyXor_repeatingKeyXor_self hs.1 (hs.slotAt_wf d)] at h'
  exact ⟨by rw [h'.slots, h.slots, State.slots_set_set_slotAt hlen], h'.lastErr⟩

/-- Settles O47: each word, or each byte with its key byte, is XORed twice with the same value, because the slot that
holds that value is not the one written in between. -/
theorem xorCommandsAreSelfInverse : Obligations.XorCommandsAreSelfInverse :=
  ⟨fun _ _ _ _ _ _ hs hd ha hb hdb hn ht hu => xor_then_xor_restores_source hs hd ha hb hdb hn ht hu,
    fun _ _ _ _ _ hs hd ha hda hkey ht hu => rkxor_then_rkxor_restores_slots hs hd ha hda hkey ht hu⟩

end Sys2Proof.Machine
end

section
/-! Settles the statements of 30_encoding.md R70, R75 and R76 on the two directions of the encoding: `encode` and
`decode` are inverse to each other on well-formed commands and on words that decode. -/

namespace Sys2Proof

/-! ### Operand fields -/

/-- A slot number that fits its field is the number the field holds (30_encoding.md R71). -/
theorem toNat_slotField {d : Nat} (h : SlotFits d) : (BitVec.ofNat 4 d).toNat = d :=
  Nat.mod_eq_of_lt h

/-- A width or value that fits IMM8 is the number IMM8 holds (30_encoding.md R72). -/
theorem toNat_imm8Field {n : Nat} (h : Imm8Fits n) : (BitVec.ofNat 8 n).toNat = n :=
  Nat.mod_eq_of_lt h

/-- ADDBIT's bit leaves IMM8[7:1] 0 (30_encoding.md R72, R76). -/
theorem bitField_unused (bit : Bool) : ((if bit then 1 else 0 : BitVec 8).extractLsb' 1 7 == 0) = true := by
  cases bit <;> decide

/-- ADDBIT's bit is bit 0 of IMM8 (30_encoding.md R72). -/
theorem bitField_getLsbD_zero (bit : Bool) : (if bit then 1 else 0 : BitVec 8).getLsbD 0 = bit := by
  cases bit <;> decide

@[simp] theorem encodeFields_rsv (i : Instr) : (encodeFields i).rsv = 0 := by
  cases i <;> rfl

@[simp] theorem encodeFields_op (i : Instr) : (encodeFields i).op = i.opcode := by
  cases i <;> rfl

/-! ### Decoding what was encoded -/

/-- A command's fields decode to it when the arm of its OP finds the unused fields 0 and reads the operands back. -/
theorem decode_encode_of_arm {i j : Instr} {unusedAreZero : Bool}
    (harm : decodeFields (encodeFields i) = checkRow (encodeFields i) unusedAreZero j) (hzero : unusedAreZero = true)
    (hij : j = i) : decode (encode i) = .ok i := by
  rw [decode, encode, Fields.ofWord_toWord, harm, checkRow_eq_ok_iff]
  exact ⟨encodeFields_rsv i, hzero, hij⟩

/-- Settles O6: the word's fields are the encoded ones, the arm of the command's OP passes the strict check on them,
and each operand comes back because it fits its field. -/
theorem decodeInvertsEncode : Obligations.DecodeInvertsEncode := by
  intro i hwf
  cases i with
  | clear d | getbyte d | numbits d | numbytes d | padbits d | enclenBin d | encBin d | enclenHex d | encHex d
  | enclenB64 d | encB64 d | enclenAsc d | encAsc d =>
    exact decode_encode_of_arm rfl rfl (congrArg _ (toNat_slotField (of_decide_eq_true hwf)))
  | addbit d bit =>
    exact decode_encode_of_arm rfl (bitField_unused bit)
      (congrArg₂ _ (toNat_slotField (of_decide_eq_true hwf)) (bitField_getLsbD_zero bit))
  | addbits d width | getbits d width =>
    obtain ⟨hd, hw⟩ := of_decide_eq_true hwf
    exact decode_encode_of_arm rfl rfl (congrArg₂ _ (toNat_slotField hd) (toNat_imm8Field hw))
  | setbyte d c | decBin d c | decHex d c | decB64 d c | decAsc d c =>
    exact decode_encode_of_arm rfl rfl (congrArg₂ _ (toNat_slotField (of_decide_eq_true hwf)) rfl)
  | xor d a b =>
    obtain ⟨hd, ha, hb⟩ := of_decide_eq_true hwf
    have hda := congrArg₂ Instr.xor (toNat_slotField hd) (toNat_slotField ha)
    exact decode_encode_of_arm rfl rfl (congr hda (toNat_slotField hb))
  | rkxor d a =>
    obtain ⟨hd, ha⟩ := of_decide_eq_true hwf
    exact decode_encode_of_arm rfl rfl (congrArg₂ _ (toNat_slotField hd) (toNat_slotField ha))
  | c2vHex c | c2vB64 c => exact decode_encode_of_arm rfl rfl rfl
  | v2cHex n | v2cB64 n => exact decode_encode_of_arm rfl rfl (congrArg _ (toNat_imm8Field (of_decide_eq_true hwf)))

/-! ### Encoding what was decoded -/

theorem encode_eq_of_fields {w : CommandWord} {i : Instr} (h : encodeFields i = Fields.ofWord w) : encode i = w := by
  rw [encode, h, Fields.toWord_ofWord]

/-- A slot field written from the number it holds is that field. -/
theorem ofNat_toNat_field {n : Nat} (x : BitVec n) : BitVec.ofNat n x.toNat = x := by simp

/-- The fields of a row that uses at most D and IMM8, from what these hold; the others are 0 (30_encoding.md R76). -/
theorem Fields.forDImm_eq {f : Fields} {op imm8 : BitVec 8} (hop : f.op = op) (hrsv : f.rsv = 0)
    (h : f.usesDImm = true) (himm : imm8 = f.imm8) : Fields.forDImm op f.d.toNat imm8 = f := by
  obtain ⟨_, d, a, b, _, rsv⟩ := f
  obtain ⟨ha, hb⟩ : a = 0 ∧ b = 0 := by simpa [Fields.usesDImm] using h
  subst hop hrsv himm ha hb
  simp [Fields.forDImm]

/-- The row that uses IMM8 alone: D is 0 too. -/
theorem Fields.forDImm_zero_eq {f : Fields} {op imm8 : BitVec 8} (hop : f.op = op) (hrsv : f.rsv = 0)
    (h : f.usesOnlyImm = true) (himm : imm8 = f.imm8) : Fields.forDImm op 0 imm8 = f := by
  obtain ⟨⟨hd, ha⟩, hb⟩ : (f.d = 0 ∧ f.a = 0) ∧ f.b = 0 := by simpa [Fields.usesOnlyImm] using h
  have hdImm : f.usesDImm = true := by simp [Fields.usesDImm, ha, hb]
  have := Fields.forDImm_eq hop hrsv hdImm himm
  rwa [hd] at this

theorem Fields.usesOnlyD_iff (f : Fields) : f.usesOnlyD = true ↔ f.usesDImm = true ∧ f.imm8 = 0 := by
  simp [Fields.usesOnlyD, Fields.usesDImm]

/-- The fields of a row that uses D, A and B, from what these hold; IMM8 is 0 (30_encoding.md R76). -/
theorem Fields.forDAB_eq {f : Fields} {op : BitVec 8} (hop : f.op = op) (hrsv : f.rsv = 0) (h : f.usesDAB = true) :
    (⟨op, BitVec.ofNat 4 f.d.toNat, BitVec.ofNat 4 f.a.toNat, BitVec.ofNat 4 f.b.toNat, 0, 0⟩ : Fields) = f := by
  obtain ⟨_, d, a, b, imm8, rsv⟩ := f
  obtain rfl : imm8 = 0 := by simpa [Fields.usesDAB] using h
  subst hop hrsv
  simp

/-- A value of IMM8 whose bits 7:1 are 0 is its bit 0. -/
theorem bitField_eq {x : BitVec 8} (h : x.extractLsb' 1 7 = 0) : (if x.getLsbD 0 then 1 else 0) = x := by
  revert x
  decide

/-- The fields of a word that decodes are those of its command: the operands are read from the used fields, and the
strict check of R76 found the others 0. -/
theorem encodeFields_of_decodeFields {f : Fields} {i : Instr} (h : decodeFields f = .ok i) :
    i.WellFormed = true ∧ encodeFields i = f := by
  obtain ⟨hop, -⟩ := decodeFields_eq_ok h
  unfold decodeFields at h
  have hd : SlotFits f.d.toNat := f.d.isLt
  have ha : SlotFits f.a.toNat := f.a.isLt
  have hb : SlotFits f.b.toNat := f.b.isLt
  have himm : Imm8Fits f.imm8.toNat := f.imm8.isLt
  split at h
  case h_28 => cases h
  all_goals obtain ⟨hrsv, hzero, rfl⟩ := (checkRow_eq_ok_iff ..).mp h
  case h_1 | h_5 | h_7 | h_8 | h_9 | h_14 | h_15 | h_16 | h_17 | h_18 | h_19 | h_20 | h_21 =>
    obtain ⟨hzero, himm⟩ := (Fields.usesOnlyD_iff f).mp hzero
    exact ⟨decide_eq_true hd, Fields.forDImm_eq hop hrsv hzero himm.symm⟩
  case h_2 =>
    obtain ⟨hzero, hbit⟩ : f.usesDImm = true ∧ f.imm8.extractLsb' 1 7 = 0 := by
      simpa [Fields.usesDBit, Fields.usesDImm] using hzero
    exact ⟨decide_eq_true hd, Fields.forDImm_eq hop hrsv hzero (bitField_eq hbit)⟩
  case h_3 | h_4 =>
    exact ⟨decide_eq_true ⟨hd, himm⟩, Fields.forDImm_eq hop hrsv hzero (ofNat_toNat_field _)⟩
  case h_6 | h_10 | h_11 | h_12 | h_13 => exact ⟨decide_eq_true hd, Fields.forDImm_eq hop hrsv hzero rfl⟩
  case h_22 => exact ⟨decide_eq_true ⟨hd, ha, hb⟩, Fields.forDAB_eq hop hrsv hzero⟩
  case h_23 =>
    obtain ⟨hb, himm⟩ : f.b = 0 ∧ f.imm8 = 0 := by simpa [Fields.usesDA] using hzero
    refine ⟨decide_eq_true ⟨hd, ha⟩, ?_⟩
    have := Fields.forDAB_eq hop hrsv (by simp [Fields.usesDAB, himm])
    rwa [hb] at this
  case h_24 | h_26 => exact ⟨rfl, Fields.forDImm_zero_eq hop hrsv hzero rfl⟩
  case h_25 | h_27 => exact ⟨decide_eq_true himm, Fields.forDImm_zero_eq hop hrsv hzero (ofNat_toNat_field _)⟩

/-- Settles O7: a word is its fields, and the fields of a word that decodes are those of its command. -/
theorem encodeInvertsDecode : Obligations.EncodeInvertsDecode := by
  intro w i h
  obtain ⟨hwf, hfields⟩ := encodeFields_of_decodeFields h
  exact ⟨hwf, encode_eq_of_fields hfields⟩

/-! ### Words of the test vectors -/

/-- Settles O10: each word is evaluated by the decoder (95_test_vectors.md sections 2 and 3). -/
theorem sampleWordsDecode : Obligations.SampleWordsDecode := by
  unfold Obligations.SampleWordsDecode
  decide

end Sys2Proof
end

section
/-! Settles the statements on STATUS and PARAM (10_state.md R35, R41), on the register block (20_memory.md R60 to
R62) and on the busy protocol (70_reset_and_hazards.md R250, R251, R260 to R263): what the reset input, a host's
write and a host's read do in one cycle, and how many cycles a command in flight takes. -/

namespace Sys2Proof.Machine

/-! ### STATUS and PARAM as words -/

section
variable (busy sticky overrun : Bool) (lastErr : BitVec 4) (errChar : BitVec 8)

/-- The flags of STATUS, and its reserved bits 0 (10_state.md R35). -/
theorem packStatus_flags :
    (packStatus busy sticky overrun lastErr errChar).getLsbD 0 = busy ∧
    (packStatus busy sticky overrun lastErr errChar).getLsbD 1 = sticky ∧
    (packStatus busy sticky overrun lastErr errChar).getLsbD 2 = overrun ∧
    (packStatus busy sticky overrun lastErr errChar).extractLsb' 3 5 = 0 ∧
    (packStatus busy sticky overrun lastErr errChar).extractLsb' 12 4 = 0 ∧
    (packStatus busy sticky overrun lastErr errChar).extractLsb' 24 40 = 0 := by
  refine ⟨packStatus_getLsbD .., packStatus_getLsbD .., packStatus_getLsbD .., ?_, ?_, ?_⟩
  all_goals
    ext i hi
    simp only [BitVec.getElem_extractLsb', packStatus_getLsbD]
    grind

/-- LAST_ERR at bits 11:8 and ERR_CHAR at bits 23:16 of STATUS (10_state.md R35). -/
theorem packStatus_error :
    (packStatus busy sticky overrun lastErr errChar).extractLsb' 8 4 = lastErr ∧
    (packStatus busy sticky overrun lastErr errChar).extractLsb' 16 8 = errChar := by
  refine ⟨?_, ?_⟩
  all_goals
    ext i hi
    simp only [BitVec.getElem_extractLsb', packStatus_getLsbD]
    grind

end

/-- A field of a concatenation that lies above its low part. -/
theorem field_above {m n i w : Nat} {x : BitVec m} {y : BitVec n} {v : BitVec w} (h : n ≤ i)
    (hx : x.extractLsb' (i - n) w = v) : (x ++ y).extractLsb' i w = v :=
  (BitVec.extractLsb'_append_eq_of_le h).trans hx

/-- A field of a concatenation that is the whole of its low part. -/
theorem field_low {m n : Nat} {x : BitVec m} {y : BitVec n} : (x ++ y).extractLsb' 0 n = y :=
  (BitVec.extractLsb'_append_eq_of_add_le (Nat.zero_add n).le).trans BitVec.extractLsb'_eq_self

/-- Settles O5: STATUS is `packStatus` of the block's own fields, and PARAM the concatenation of its own. -/
theorem statusAndParamLayout : Obligations.StatusAndParamLayout := by
  intro s
  obtain ⟨hbusy, hsticky, hoverrun, h3, h12, h24⟩ :=
    packStatus_flags s.busy s.sticky s.overrun s.lastErr s.errChar
  obtain ⟨herr, hchar⟩ := packStatus_error s.busy s.sticky s.overrun s.lastErr s.errChar
  refine ⟨hbusy, hsticky, hoverrun, h3, herr, h12, hchar, h24, field_low, ?nbuf, ?nw, ?version, ?reserved⟩
  case nbuf => exact field_above le_rfl field_low
  case nw => exact field_above (by decide) (field_above le_rfl field_low)
  case version => exact field_above (by decide) (field_above (by decide) (field_above le_rfl field_low))
  case reserved => exact field_above (by decide) (field_above (by decide) (field_above (by decide) (by decide)))

/-! ### Reset -/

theorem step_of_resetAsserted {s : State} (h : s.resetAsserted = true) : step s = .next s.takeReset := if_pos h

/-- Settles O12: the reset branch of a step is the first one, and looks neither at the latch nor at the access. -/
theorem resetInputTakesPrecedence : Obligations.ResetInputTakesPrecedence := by
  intro s c rest hinputs hrst
  have hreset : s.resetAsserted = true := by rw [State.resetAsserted, hinputs]; exact hrst
  exact ⟨s.takeReset, step_of_resetAsserted hreset, ⟨rfl, rfl, rfl, rfl, rfl, rfl, rfl, rfl, rfl, rfl⟩,
    by rw [State.takeReset_inputs, hinputs]; rfl, rfl⟩

/-! ### The step that completes a command -/

/-- Settles O11: the step that finds the latency passed is `exec` of what the latched word decodes to. -/
theorem stepRunsTheLatchedCommand : Obligations.StepRunsTheLatchedCommand := by
  intro s l i hreset hlatch hwait hdec
  rw [step_fetch hreset hlatch hwait, hdec]

/-- A step at a latched command whose latency has passed completes it, whatever the word (30_encoding.md R79). -/
theorem step_completes {s : State} {l : Latch} (hreset : s.resetAsserted = false) (hlatch : s.latch = some l)
    (hwait : s.wait = 0) : ∃ t, step s = .next t ∧ t.latch = none := by
  obtain ⟨r, hr⟩ : ∃ r, step s = complete s r := by
    rw [step_fetch hreset hlatch hwait]
    cases decode l.word with
    | ok i =>
      obtain ⟨r, hr, -⟩ := exec_legal i s
      exact ⟨r, hr⟩
    | error e => exact ⟨_, rfl⟩
  obtain ⟨t, ht, hnone, -⟩ := complete_next s r
  exact ⟨t, hr.trans ht, hnone⟩

/-- Settles O19: without input the latency runs down by one a step, and the step after the last of them completes the
command. -/
theorem everyAcceptedCommandCompletes : Obligations.EveryAcceptedCommandCompletes := by
  intro s l hlatch hinputs
  refine ⟨fun k hk => ⟨s.waited k, runSteps_idle hinputs k hk, hlatch⟩, ?_⟩
  have hreset : (s.waited s.wait).resetAsserted = false := by simp [State.resetAsserted, hinputs]
  obtain ⟨t, hstep, hnone⟩ := step_completes hreset (l := l) hlatch (by simp)
  refine ⟨t, ?_, (State.busy_eq_false_iff t).mpr hnone⟩
  rw [runSteps_add (runSteps_idle hinputs s.wait le_rfl), runSteps_one, hstep]

/-! ### Writes -/

theorem State.issue_of_idle {s : State} (h : s.busy = false) (w : CommandWord) : s.issue w = s.accept w := by
  rw [State.issue, h, if_neg Bool.false_ne_true]

theorem State.issue_of_busy {s : State} (h : s.busy = true) (w : CommandWord) : s.issue w = s.dropCommand := if_pos h

/-- Settles O13: a write to CMD is `State.issue` of bits 31:0, which latches while idle and drops while busy. -/
theorem commandWriteLatchesOrIsDropped : Obligations.CommandWriteLatchesOrIsDropped := by
  intro s host v rest h
  have hstep : step s = .next (((s.tick.withInputs rest).grant host).issue (v.setWidth 32)) :=
    step_busCycle h (by decide) (by decide)
  cases hbusy : s.busy with
  | false =>
    rw [State.issue_of_idle (s := (s.tick.withInputs rest).grant host) hbusy, setWidth_eq_extractLsb'] at hstep
    exact ⟨_, hstep, by simp [State.busy]⟩
  | true =>
    rw [State.issue_of_busy (s := (s.tick.withInputs rest).grant host) hbusy] at hstep
    have hlatch : s.latch.isSome = true := hbusy
    exact ⟨_, hstep, by simp [State.busy, hlatch]⟩

/-- Settles O14: the register map writes ARG and IDX whether a command is in flight or not, and never the latch. -/
theorem operandWritesLeaveTheLatch : Obligations.OperandWritesLeaveTheLatch := by
  intro s host v rest
  refine ⟨fun h => ⟨_, step_busCycle h (by decide) (by decide), ?arg⟩,
    fun h => ⟨_, step_busCycle h (by decide) (by decide), ?idx⟩⟩
  case arg => simp [State.perform, State.writeRegister, SameArchitecture]
  case idx => simp [State.perform, State.writeRegister, SameArchitecture, setWidth_eq_extractLsb']

/-- Settles O15: the register map gives writes above IDX no effect. -/
theorem otherWritesAreIgnored : Obligations.OtherWritesAreIgnored := by
  intro s host offset v rest h8 hlow hhigh h
  have hstep : step s = .next (((s.tick.withInputs rest).grant host).writeRegister offset v) :=
    step_busCycle h hhigh h8
  rw [State.writeRegister_other _ _ _ (by omega) (by omega) (by omega)] at hstep
  exact ⟨_, hstep, by simp [SameArchitecture]⟩

/-! ### Reads -/

/-- What a register reads as does not depend on the input list, the latency count or the owner. -/
theorem State.readRegister_cycle (s : State) (rest : List HostCycle) (host offset : Nat) :
    ((s.tick.withInputs rest).grant host).readRegister offset = s.readRegister offset := by
  rw [State.readRegister_eq, State.readRegister_eq]
  rfl

/-- A read hands the register's value to the host and changes nothing architectural (20_memory.md R62). -/
theorem step_read {s : State} {host offset : Nat} {rest : List HostCycle} (h8 : offset % 8 = 0) (hlt : offset < 0x100)
    (h : FacesCycle s host (busCycle s host offset .read) rest) :
    ∃ t, step s = .next t ∧ SameArchitecture t s ∧ t.inputs = rest ∧ t.readData = some (s.readRegister offset) :=
  ⟨_, step_busCycle h hlt h8, by simp [State.perform, SameArchitecture, State.readRegister_cycle]⟩

/-- Settles O16: while BUSY = 0 what is seen of RESULT and STATUS is what they hold. -/
theorem readsReturnTheRegisters : Obligations.ReadsReturnTheRegisters := by
  intro s host offset rest h8 hlt hidle h
  obtain ⟨t, hstep, hsame, hinputs, hread⟩ := step_read h8 hlt h
  have hresult : s.resultSeen = s.result := by rw [State.resultSeen, hidle, if_neg Bool.false_ne_true]
  have hstatus : s.statusSeen = s.statusWord := by rw [State.statusSeen, hidle, if_neg Bool.false_ne_true]
  rw [State.readRegister_eq, hresult, hstatus] at hread
  exact ⟨t, hstep, hsame, hinputs, hread⟩

/-- Settles O17: while BUSY = 1 the free values stand in the LAST_ERR and ERR_CHAR places of STATUS and nowhere else
but in RESULT. -/
theorem readsWhileBusy : Obligations.ReadsWhileBusy := by
  intro s host offset rest h8 hlt hbusy h
  obtain ⟨t, hstep, hsame, hinputs, hread⟩ := step_read h8 hlt h
  refine ⟨t, _, hstep, hsame, hinputs, hread, ?arg, ?idx, ?param, ?status⟩
  case arg => rintro rfl; rfl
  case idx => rintro rfl; rfl
  case param => rintro rfl; rfl
  case status =>
    rintro rfl
    have hseen : s.readRegister 0x20 =
        packStatus true s.sticky s.overrun (Config.anyLastErr s.draws) (Config.anyErrChar s.draws) := if_pos hbusy
    rw [hseen]
    exact packStatus_flags ..

/-! ### Accesses outside the interface -/

/-- Settles O18: `serveAccess` makes the four checks in this order, on the state's own base address and owner. -/
theorem accessesOutsideTheInterfaceStop : Obligations.AccessesOutsideTheInterfaceStop := by
  intro s a rest hinputs hwaits
  have hstep : step s = serveAccess (s.tick.withInputs rest) a := step_access hinputs hwaits
  rw [hstep, serveAccess]
  refine ⟨fun hout => if_pos hout, fun hin hother => ?host, fun hin hother hwidth => ?width,
    fun hin hother hwidth halign => ?align⟩
  case host => exact (if_neg (not_not.mpr hin)).trans (if_pos hother)
  case width => exact (if_neg (not_not.mpr hin)).trans ((if_neg hother).trans (if_pos hwidth))
  case align =>
    exact (if_neg (not_not.mpr hin)).trans ((if_neg hother).trans ((if_neg (not_not.mpr hwidth)).trans (if_pos halign)))

end Sys2Proof.Machine
end

section
/-! Settles the statements on every step of the block: the invariant of the storage and of STATUS (10_state.md R22
to R28, R37 to R40, 92_eei_decisions.md D33), and that only reset clears STICKY and OVERRUN (R37, R38). -/

namespace Sys2Proof.Machine

/-! ### What a step can do -/

/-- All that a cycle in which the engine completes nothing can change is ARG, IDX, the latch, OVERRUN (only set),
and the model's own fields; the latency count of an idle block does not grow. -/
structure CycleFrame (s t : State) : Prop where
  cfg : t.cfg = s.cfg
  slots : t.slots = s.slots
  lastErr : t.lastErr = s.lastErr
  errChar : t.errChar = s.errChar
  sticky : t.sticky = s.sticky
  overrun : s.overrun = true → t.overrun = true
  idle : t.latch = none → s.latch = none ∧ t.wait ≤ s.wait

namespace CycleFrame

theorem refl (s : State) : CycleFrame s s := ⟨rfl, rfl, rfl, rfl, rfl, id, fun h => ⟨h, le_rfl⟩⟩

theorem trans {s t u : State} (h : CycleFrame s t) (h' : CycleFrame t u) : CycleFrame s u where
  cfg := h'.cfg.trans h.cfg
  slots := h'.slots.trans h.slots
  lastErr := h'.lastErr.trans h.lastErr
  errChar := h'.errChar.trans h.errChar
  sticky := h'.sticky.trans h.sticky
  overrun := h'.overrun ∘ h.overrun
  idle := fun hu => ⟨(h.idle (h'.idle hu).1).1, (h'.idle hu).2.trans (h.idle (h'.idle hu).1).2⟩

/-- One cycle of the latency, and the input list going on. -/
theorem tick (s : State) : CycleFrame s s.tick := ⟨rfl, rfl, rfl, rfl, rfl, id, fun h => ⟨h, Nat.sub_le ..⟩⟩

theorem withInputs (s : State) (rest : List HostCycle) : CycleFrame s (s.withInputs rest) :=
  ⟨rfl, rfl, rfl, rfl, rfl, id, fun h => ⟨h, le_rfl⟩⟩

theorem grant (s : State) (host : Nat) : CycleFrame s (s.grant host) :=
  ⟨rfl, rfl, rfl, rfl, rfl, id, fun h => ⟨h, le_rfl⟩⟩

/-- A CMD write fills the latch or sets OVERRUN (70_reset_and_hazards.md R261). -/
theorem issue (s : State) (w : CommandWord) : CycleFrame s (s.issue w) := by
  cases hbusy : s.busy with
  | false =>
    rw [State.issue_of_idle hbusy]
    exact ⟨rfl, rfl, rfl, rfl, rfl, id, nofun⟩
  | true =>
    rw [State.issue_of_busy hbusy]
    exact ⟨rfl, rfl, rfl, rfl, rfl, fun _ => rfl, fun h => ⟨h, le_rfl⟩⟩

theorem writeRegister (s : State) (offset : Nat) (v : BitVec 64) : CycleFrame s (s.writeRegister offset v) := by
  unfold State.writeRegister
  split
  · exact issue s _
  · exact ⟨rfl, rfl, rfl, rfl, rfl, id, fun h => ⟨h, le_rfl⟩⟩
  · exact ⟨rfl, rfl, rfl, rfl, rfl, id, fun h => ⟨h, le_rfl⟩⟩
  · exact refl s

/-- A host access inside the interface. -/
theorem perform (s : State) (offset : Nat) (kind : AccessKind) : CycleFrame s (s.perform offset kind) := by
  cases kind with
  | read => exact ⟨rfl, rfl, rfl, rfl, rfl, id, fun h => ⟨h, le_rfl⟩⟩
  | write v => exact writeRegister s offset v

theorem serveAccess {s t : State} {a : Access} (h : serveAccess s a = .next t) : CycleFrame s t := by
  unfold Machine.serveAccess at h
  repeat' split at h
  case isFalse.isFalse.isFalse.isFalse =>
    cases h
    exact (grant s a.host).trans (perform _ _ _)
  all_goals cases h

theorem hostCycle {s t : State} (h : hostCycle s = .next t) : CycleFrame s t := by
  unfold Machine.hostCycle at h
  split at h
  · cases h
    exact tick s
  · cases h
    exact (tick s).trans (withInputs _ _)
  · exact ((tick s).trans (withInputs _ _)).trans (serveAccess h)

end CycleFrame

/-- All that a step can do: reset, a command's end with an error or with what a command may do, or a host's cycle. -/
theorem step_next_cases {s t : State} (h : step s = .next t) :
    (s.resetAsserted = true ∧ t = s.takeReset) ∨
    (s.resetAsserted = false ∧
      ((∃ e, t = s.raise e) ∨ (∃ i f, Legal i s (.ok f) ∧ t = (s.apply f).succeed) ∨ CycleFrame s t)) := by
  cases hreset : s.resetAsserted with
  | true =>
    rw [step_of_resetAsserted hreset] at h
    cases h
    exact .inl ⟨rfl, rfl⟩
  | false =>
    refine .inr ⟨rfl, ?_⟩
    rw [step, hreset, if_neg Bool.false_ne_true] at h
    split at h
    · rename_i i _
      obtain ⟨r, hr, hlegal⟩ := exec_legal i s
      rw [hr] at h
      rcases complete_cases s r with ⟨f, rfl, hf⟩ | ⟨e, rfl, he⟩
      · rw [hf] at h
        cases h
        exact .inr (.inl ⟨i, f, hlegal, rfl⟩)
      · rw [he] at h
        cases h
        exact .inl ⟨e, rfl⟩
    · cases h
      exact .inl ⟨_, rfl⟩
    · exact .inr (.inr (.hostCycle h))

/-! ### The invariant -/

/-- The block after reset meets the invariant, for every allowed configuration. -/
theorem State.Inv.resetWith {c : Config} (hc : c.Valid) : (State.resetWith c).Inv := by
  refine ⟨hc, Memory.wf_reset hc, fun b hb => ?pad, ⟨by simp, fun _ => rfl, fun h => absurd rfl h⟩, fun _ => rfl⟩
  case pad =>
    rw [(List.mem_replicate.mp hb).2]
    simp [Slot.PadBounded]

/-- Settles O2: every slot is the empty buffer, every register 0, and the reference configuration is allowed. -/
theorem resetSatisfiesTheInvariant : Obligations.ResetSatisfiesTheInvariant :=
  ⟨fun _ => State.Inv.resetWith, State.Inv.resetWith (by decide)⟩

namespace State.Inv

variable {s : State}

/-- Reset leaves the reset state, but for the model's own fields. -/
theorem takeReset (h : s.Inv) : s.takeReset.Inv := by
  obtain ⟨hcfg, hmem, hpad, hstatus, hwait⟩ := resetWith h.1
  exact ⟨hcfg, hmem, hpad, hstatus, hwait⟩

/-- An error writes a code and a character of 60_exceptions.md R220 and sets STICKY. -/
theorem raise (h : s.Inv) (e : CmdError) : (s.raise e).Inv := by
  obtain ⟨hcfg, hmem, hpad, -, -⟩ := h
  exact ⟨hcfg, hmem, hpad, ⟨e.code_le, e.info_of_code_ne, fun _ => rfl⟩, fun _ => rfl⟩

theorem succeed (h : s.Inv) : s.succeed.Inv := by
  obtain ⟨hcfg, hmem, hpad, -, -⟩ := h
  exact ⟨hcfg, hmem, hpad, ⟨Nat.zero_le _, fun _ => rfl, fun hne => absurd rfl hne⟩, fun _ => rfl⟩

/-- A slot in canonical form with a bounded padding count may be stored anywhere. -/
theorem setSlot (h : s.Inv) (d : Nat) {b : Slot} (hb : b.WF s.cfg) (hbpad : b.PadBounded s.cfg) :
    (s.setSlot d b).Inv := by
  obtain ⟨hcfg, hmem, hpad, hstatus, hwait⟩ := h
  refine ⟨hcfg, Memory.wf_set hmem d hb, fun x hx => ?_, hstatus, hwait⟩
  rcases List.mem_or_eq_of_mem_set hx with hx | rfl
  · exact hpad x hx
  · exact hbpad

theorem complete_ok {i : Instr} {f : Effect} (h : s.Inv) (hf : Legal i s (.ok f)) : (s.apply f).succeed.Inv := by
  cases f with
  | nothing => exact h.succeed
  | result v => exact succeed (s := s.setResult v) h
  | store d b =>
    obtain ⟨-, hb⟩ := hf.store d b rfl
    obtain ⟨hwf, hbpad⟩ := hb h
    exact (h.setSlot d hwf hbpad).succeed

theorem cycle {t : State} (h : s.Inv) (hf : CycleFrame s t) : t.Inv := by
  obtain ⟨hcfg, hmem, hpad, hstatus, hwait⟩ := h
  rw [State.Inv, State.StatusLegal, hf.cfg, hf.slots, hf.lastErr, hf.errChar, hf.sticky]
  refine ⟨hcfg, hmem, hpad, hstatus, fun hnone => ?_⟩
  obtain ⟨hidle, hle⟩ := hf.idle hnone
  exact Nat.le_zero.mp (hle.trans (hwait hidle).le)

end State.Inv

/-- Settles O3: each way a step can end keeps each part of the invariant; a command stores only what `exec_legal`
says. -/
theorem everyStepKeepsTheInvariant : Obligations.EveryStepKeepsTheInvariant := by
  intro s t hs hstep
  rcases step_next_cases hstep with ⟨-, rfl⟩ | ⟨-, ⟨e, rfl⟩ | ⟨i, f, hlegal, rfl⟩ | hframe⟩
  · exact hs.takeReset
  · exact hs.raise e
  · exact hs.complete_ok hlegal
  · exact hs.cycle hframe

/-! ### STICKY, OVERRUN and PARAM -/

/-- Settles O4: an error sets STICKY, a success leaves both flags, a host's cycle can only set OVERRUN, and no way a
step can end writes the configuration. -/
theorem onlyResetClearsStickyAndOverrun : Obligations.OnlyResetClearsStickyAndOverrun := by
  intro s t hstep
  have hparam : ∀ {u : State}, u.cfg = s.cfg → u.paramWord = s.paramWord := fun h => by
    rw [State.paramWord, State.paramWord, h]
  rcases step_next_cases hstep with ⟨hr, rfl⟩ | ⟨hr, ⟨e, rfl⟩ | ⟨i, f, -, rfl⟩ | hframe⟩
  · exact ⟨rfl, rfl, fun h => absurd (hr.symm.trans h) nofun, fun _ => ⟨rfl, rfl⟩⟩
  · exact ⟨rfl, rfl, fun _ => ⟨fun _ => rfl, id⟩, fun h => absurd (h.symm.trans hr) nofun⟩
  · obtain ⟨⟨hcfg, -, -, hoverrun, -⟩, -, -, hsticky, -⟩ := EndsOk.of_apply s f
    exact ⟨hcfg, hparam hcfg, fun _ => ⟨hsticky.trans, hoverrun.trans⟩, fun h => absurd (h.symm.trans hr) nofun⟩
  · exact ⟨hframe.cfg, hparam hframe.cfg, fun _ => ⟨hframe.sticky.trans, hframe.overrun⟩,
      fun h => absurd (h.symm.trans hr) nofun⟩

end Sys2Proof.Machine
end

section
/-! Settles the statements over all commands of 60_exceptions.md R221 to R224 and 30_encoding.md R71, R79: how a
command ends, what it leaves unchanged, and which commands write RESULT (10_state.md R34) or a padding count (R25).
-/

namespace Sys2Proof.Machine

/-! ### How a command ends -/

/-- All that a command can do: fail with an error of its own list, or succeed with what it may write. -/
theorem exec_next_cases {i : Instr} {s t : State} (h : exec i s = .next t) :
    (∃ e : CmdError, e.code ∈ i.errorCodes ∧ t = s.raise e) ∨
    (∃ f, Legal i s (.ok f) ∧ t = (s.apply f).succeed) := by
  obtain ⟨r, hr, hlegal⟩ := exec_legal i s
  rw [hr] at h
  rcases complete_cases s r with ⟨f, rfl, hf⟩ | ⟨e, rfl, he⟩
  · rw [hf] at h
    cases h
    exact .inr ⟨f, hlegal, rfl⟩
  · rw [he] at h
    cases h
    exact .inl ⟨e, hlegal.error e rfl, rfl⟩

@[simp] theorem State.apply_succeed_lastErr (s : State) (f : Effect) : (s.apply f).succeed.lastErr = 0 := rfl

/-- Settles O21: every command is `complete` on some answer, and both ends of `complete` are a next state with the
latch empty. -/
theorem noCommandStopsTheMachine : Obligations.NoCommandStopsTheMachine := by
  intro i s
  obtain ⟨r, hr, -⟩ := exec_legal i s
  obtain ⟨t, ht, hlatch, -⟩ := complete_next s r
  exact ⟨t, hr.trans ht, (State.busy_eq_false_iff t).mpr hlatch⟩

/-- Settles O22: only an error leaves LAST_ERR ≠ 0, and an error is `State.raise`. -/
theorem failingCommandsHaveNoEffect : Obligations.FailingCommandsHaveNoEffect := by
  intro i s t h hne
  rcases exec_next_cases h with ⟨e, -, rfl⟩ | ⟨f, -, rfl⟩
  · exact ⟨FailsWith.of_raise s e, e.info_of_code_ne⟩
  · exact absurd (State.apply_succeed_lastErr s f) hne

/-- Settles O23: an error of a command is one of its own list. -/
theorem errorsOfEachCommand : Obligations.ErrorsOfEachCommand := by
  intro i s t h
  rcases exec_next_cases h with ⟨e, hmem, rfl⟩ | ⟨f, -, rfl⟩
  · exact .inr hmem
  · exact .inl (State.apply_succeed_lastErr s f)

/-! ### SLOT before every other check -/

/-- A check made once the slot is known, which fails with SLOT, makes the whole check fail with SLOT. -/
theorem withSlot_of_slot_error {s : State} {d : Nat} {k : Slot → Except CmdError Effect}
    (h : k (s.slotAt d) = .error .slot) : withSlot s d k = .error .slot := by
  rcases Nat.lt_or_ge d s.cfg.nbuf with hd | hd
  · rw [withSlot_of_lt hd, h]
  · exact withSlot_of_ge hd k

/-- A slot field at or above NBUF: the command fails with SLOT (30_encoding.md R71, 60_exceptions.md R222). -/
theorem exec_of_slot_ge {i : Instr} {s : State} {d : Nat} (hmem : d ∈ i.slotFields) (hd : s.cfg.nbuf ≤ d) :
    exec i s = complete s (.error .slot) := by
  cases i with
  | clear e | addbit e _ | addbits e _ | getbits e _ | getbyte e | setbyte e _ | numbits e | numbytes e | padbits e
  | decBin e _ | decHex e _ | decAsc e _ | enclenBin e | encBin e | enclenHex e | encHex e | enclenB64 e | encB64 e
  | enclenAsc e | encAsc e =>
    obtain rfl := List.mem_singleton.mp hmem
    exact congrArg (complete s) (withSlot_of_ge hd _)
  | decB64 e c =>
    obtain rfl := List.mem_singleton.mp hmem
    refine congrArg (complete s) ?_
    split
    · exact withSlot_of_ge hd _
    · split
      · exact withSlot_of_ge hd _
      · exact withSlot_of_ge hd _
  | xor e a b =>
    refine congrArg (complete s) ?_
    obtain rfl | rfl | rfl : d = e ∨ d = a ∨ d = b := by simpa [Instr.slotFields] using hmem
    · exact withSlot_of_ge hd _
    · exact withSlot_of_slot_error (withSlot_of_ge hd _)
    · exact withSlot_of_slot_error (withSlot_of_slot_error (withSlot_of_ge hd _))
  | rkxor e a =>
    refine congrArg (complete s) ?_
    obtain rfl | rfl : d = e ∨ d = a := by simpa [Instr.slotFields] using hmem
    · exact withSlot_of_ge hd _
    · exact withSlot_of_slot_error (withSlot_of_ge hd _)
  | c2vHex _ | v2cHex _ | c2vB64 _ | v2cB64 _ => exact absurd hmem List.not_mem_nil

/-- Settles O24: `withSlot` stands before every other check of every command. -/
theorem slotFieldsAreCheckedFirst : Obligations.SlotFieldsAreCheckedFirst := by
  intro i s d hmem hd
  exact Fails.of_error (exec_of_slot_ge hmem hd)

/-! ### Frames -/

/-- Settles O25: an error changes only STATUS, and a success stores at most the command's target slot. -/
theorem onlyTheTargetSlotChanges : Obligations.OnlyTheTargetSlotChanges := by
  intro i s t h
  rcases exec_next_cases h with ⟨e, -, rfl⟩ | ⟨f, hlegal, rfl⟩
  · obtain ⟨hshell, -⟩ := FailsWith.of_raise s e
    exact ⟨hshell, rfl, fun hzero => absurd hzero e.code_ne_zero, fun _ _ => rfl⟩
  · obtain ⟨hshell, -, hchar, hsticky, -⟩ := EndsOk.of_apply s f
    refine ⟨hshell, ?length, fun _ => ⟨hchar, hsticky⟩, fun e he => ?slot⟩
    case length => cases f <;> simp
    case slot =>
      cases f with
      | nothing | result _ => rfl
      | store d b =>
        obtain ⟨htarget, -⟩ := hlegal.store d b rfl
        have hde : d ≠ e := fun hde => he (hde ▸ htarget)
        simp [hde]

/-- Settles O26: RESULT is written by an answer that is a result, and only a listed command has one. -/
theorem onlyListedCommandsWriteResult : Obligations.OnlyListedCommandsWriteResult := by
  intro i s t h hcond
  rcases exec_next_cases h with ⟨e, -, rfl⟩ | ⟨f, hlegal, rfl⟩
  · rfl
  · cases f with
    | nothing | store _ _ => rfl
    | result v =>
      have hwrites : i.writesResult = true := hlegal.result v rfl
      rcases hcond with hfalse | hne
      · exact absurd (hwrites.symm.trans hfalse) nofun
      · exact absurd (State.apply_succeed_lastErr s (.result v)) hne

/-! ### Padding counts -/

/-- Every slot this answer stores keeps the padding count of the slot it replaces. -/
structure KeepsPad (s : State) (r : Except CmdError Effect) : Prop where
  store : ∀ d b, r = .ok (.store d b) → b.pad = (s.slotAt d).pad

namespace KeepsPad

variable {s : State}

theorem of_error (e : CmdError) : KeepsPad s (.error e) := ⟨nofun⟩

theorem of_nothing : KeepsPad s (.ok .nothing) := ⟨nofun⟩

theorem of_store {d : Nat} {b : Slot} (h : b.pad = (s.slotAt d).pad) : KeepsPad s (.ok (.store d b)) := by
  refine ⟨?_⟩
  rintro _ _ ⟨⟩
  exact h

theorem withSlot {d : Nat} {k : Slot → Except CmdError Effect} (h : KeepsPad s (k (s.slotAt d))) :
    KeepsPad s (withSlot s d k) := by
  unfold Machine.withSlot
  split
  · exact h
  · exact of_error _

theorem ite {p : Prop} [Decidable p] {r₁ r₂ : Except CmdError Effect} (h₁ : KeepsPad s r₁) (h₂ : KeepsPad s r₂) :
    KeepsPad s (if p then r₁ else r₂) := by
  split
  · exact h₁
  · exact h₂

/-- Append never changes pad (20_memory.md R54). -/
theorem storeAppend (d w v : Nat) : KeepsPad s (storeAppend s.cfg d (s.slotAt d) w v) := by
  rcases storeAppend_cases s.cfg d (s.slotAt d) w v with hr | ⟨b', hb', hr⟩
  · rw [hr]
    exact of_error _
  · rw [hr]
    refine of_store ?_
    simp only [Slot.append] at hb'
    split at hb'
    · cases hb'
    · cases hb'
      rfl

theorem decodeChar (d g : Nat) (c : Byte) (value : Option Nat) : KeepsPad s (decodeChar s d g c value) := by
  refine withSlot ?_
  cases value with
  | some v => exact storeAppend d g v
  | none => exact of_error _

end KeepsPad

/-- Every command but CLEAR, DEC_B64 of `=` and XOR answers with the padding count of its target as it was. -/
theorem exec_keepsPad {i : Instr} {d : Nat} (s : State) (htarget : i.target = some d) (hclear : i ≠ .clear d)
    (hpadding : i ≠ .decB64 d 0x3D) (hxor : ∀ a b, i ≠ .xor d a b) :
    ∃ r, exec i s = complete s r ∧ KeepsPad s r := by
  cases i with
  | clear e => exact absurd (congrArg Instr.clear (Option.some.inj htarget)) hclear
  | xor e a b => exact absurd (congrArg (Instr.xor · a b) (Option.some.inj htarget)) (hxor a b)
  | addbit e bit => exact ⟨_, rfl, .withSlot (.storeAppend ..)⟩
  | addbits e width => exact ⟨_, rfl, .withSlot (.ite (.of_error _) (.ite (.of_error _) (.storeAppend ..)))⟩
  | setbyte e byte => exact ⟨_, rfl, .withSlot (.ite (.of_error _) (.of_store rfl))⟩
  | decBin e c | decHex e c | decAsc e c => exact ⟨_, rfl, .decodeChar ..⟩
  | decB64 e c =>
    obtain rfl : e = d := Option.some.inj htarget
    have hc : c ≠ 0x3D := fun hc => hpadding (congrArg _ hc)
    refine ⟨_, rfl, .ite (.withSlot .of_nothing) ?_⟩
    rw [if_neg hc]
    exact .decodeChar ..
  | rkxor e a => exact ⟨_, rfl, .withSlot (.withSlot (.ite (.of_error _) (.of_store (by simp))))⟩
  | getbits _ _ | getbyte _ | numbits _ | numbytes _ | padbits _ | enclenBin _ | encBin _ | enclenHex _ | encHex _
  | enclenB64 _ | encB64 _ | enclenAsc _ | encAsc _ | c2vHex _ | v2cHex _ | c2vB64 _ | v2cB64 _ => cases htarget

/-- Settles O27: a slot's padding count changes only when the slot is stored, and apart from the three commands what is
stored has the padding count of the slot it replaces. -/
theorem onlyClearPaddingAndXorWritePad : Obligations.OnlyClearPaddingAndXorWritePad := by
  intro i s t d _ h hne
  by_contra hnot
  obtain ⟨hclear, hpadding, hxor⟩ : i ≠ .clear d ∧ i ≠ .decB64 d 0x3D ∧ ∀ a b, i ≠ .xor d a b := by
    simpa [not_or] using hnot
  obtain ⟨-, -, -, hframe⟩ := onlyTheTargetSlotChanges i s t h
  have htarget : i.target = some d := by
    by_contra htarget
    refine hne ?_
    rw [State.padOf, State.padOf, State.slotAt, State.slotAt, List.getD_eq_getElem?_getD, List.getD_eq_getElem?_getD,
      hframe d htarget]
  obtain ⟨r, hr, hkeeps⟩ := exec_keepsPad s htarget hclear hpadding hxor
  rw [hr] at h
  refine hne ?_
  rcases complete_cases s r with ⟨f, rfl, hf⟩ | ⟨e, rfl, he⟩
  · rw [hf] at h
    cases h
    cases f with
    | nothing | result _ => rfl
    | store e b =>
      have hpad := hkeeps.store e b rfl
      have hslot : (s.apply (.store e b)).succeed.slotAt d = _ := State.slotAt_setSlot s d e b
      rw [State.padOf, State.padOf, hslot]
      split
      · rename_i hed
        rw [hpad, hed.1]
      · rfl
  · rw [he] at h
    cases h
    rfl

end Sys2Proof.Machine
end

section
/-! Settles the statements on single commands of 41_buffer_access.md, 42_format_codecs.md sections 1 and 2, 43_xor.md
R200, R201 and 40_char_codecs.md R102 to R105: what each computes when its checks pass, and which check answers
otherwise. -/

namespace Sys2Proof.Machine

/-! ### How a command's answer completes it -/

/-- A command that stores slot d: the block then holds that slot, and nothing else has changed but STATUS. -/
theorem WritesOnly.of_exec {i : Instr} {s : State} {d : Nat} {b : Slot} (hd : d < s.slots.length)
    (h : exec i s = complete s (.ok (.store d b))) :
    ∃ t, exec i s = .next t ∧ WritesOnly s t d ∧ t.cfg = s.cfg ∧ t.slotAt d = b :=
  ⟨_, h, WritesOnly.of_store s d b, rfl, State.slotAt_store hd b⟩

/-- A command that is one Append fails with FULL beyond CAP (20_memory.md R54). -/
theorem Fails.of_storeAppend {i : Instr} {s : State} {d w v : Nat}
    (h : exec i s = complete s (storeAppend s.cfg d (s.slotAt d) w v)) (hfull : s.cfg.cap < s.numBitsOf d + w) :
    Fails i s 10 0 :=
  Fails.of_error (e := .full) (h.trans (congrArg (complete s) (storeAppend_full hfull)))

/-- BitRead on a slot of the machine is the sum of 00_scope.md R11. -/
theorem State.bitRead_slotAt (s : State) (d i w : Nat) :
    (s.slotAt d).bitRead s.cfg.wordWidth i w = s.fieldOf d i w := Slot.bitRead_eq_sumOfBits ..

/-! ### Buffer access -/

/-- CLEAR stores the empty buffer (41_buffer_access.md R120). -/
theorem exec_clear {s : State} {d : Nat} (hd : d < s.cfg.nbuf) :
    exec (.clear d) s = complete s (.ok (.store d Slot.empty)) := congrArg (complete s) (withSlot_of_lt hd _)

/-- Settles O29: CLEAR stores `Slot.empty`. -/
theorem clearEmptiesTheSlot : Obligations.ClearEmptiesTheSlot := by
  intro s d hs hd
  refine ⟨_, exec_clear hd, WritesOnly.of_store s d _, Slot.empty, ?_, rfl, rfl, rfl, rfl⟩
  simp [hs.slot_lt hd]

/-- Settles O30: ADDBIT is one Append of one bit. -/
theorem addbitAppendsOneBit : Obligations.AddbitAppendsOneBit := by
  intro s d bit hs hd
  have hexec : exec (.addbit d bit) s = complete s (storeAppend s.cfg d (s.slotAt d) 1 bit.toNat) :=
    congrArg (complete s) (withSlot_of_lt hd _)
  exact ⟨fun hlt => Appended.of_storeAppend hs hd hexec hlt,
    fun hcap => Fails.of_storeAppend hexec (hcap ▸ Nat.lt_succ_self _)⟩

/-- ADDBITS after its SLOT check. -/
theorem exec_addbits {s : State} {d : Nat} (hd : d < s.cfg.nbuf) (width : Nat) :
    exec (.addbits d width) s = complete s (withWidth s.cfg width
      (if width < 64 ∧ s.operandArg >>> width ≠ 0 then .error .value
       else storeAppend s.cfg d (s.slotAt d) width s.operandArg.toNat)) :=
  congrArg (complete s) (withSlot_of_lt hd _)

/-- Settles O31: the checks WIDTH, VALUE and FULL stand in this order before one Append of ARG. -/
theorem addbitsAppendsTheValue : Obligations.AddbitsAppendsTheValue := by
  intro s d width hs hd
  have hexec := exec_addbits hd width
  have happend : width ≤ s.cfg.wordWidth → s.operandArg.toNat < 2 ^ width →
      exec (.addbits d width) s = complete s (storeAppend s.cfg d (s.slotAt d) width s.operandArg.toNat) := by
    intro hwidth hvalue
    rw [hexec, withWidth_of_le hwidth, if_neg (mt (shiftedOut_iff _ _).mp (Nat.not_le.mpr hvalue))]
  refine ⟨fun hwidth hvalue hfit => ?fits, fun hwidth => ?width, fun hwidth hvalue => ?value,
    fun hwidth hvalue hfull => ?full⟩
  case fits => exact Appended.of_storeAppend hs hd (happend hwidth hvalue) hfit
  case width => exact Fails.of_error (e := .width) (by rw [hexec, withWidth_of_gt hwidth])
  case value =>
    exact Fails.of_error (e := .value) (by rw [hexec, withWidth_of_le hwidth, if_pos ((shiftedOut_iff _ _).mpr hvalue)])
  case full => exact Fails.of_storeAppend (happend hwidth hvalue) hfull

/-- Settles O32: past WIDTH and RANGE, GETBITS answers BitRead. -/
theorem getbitsReadsTheField : Obligations.GetbitsReadsTheField := by
  intro s d width hs hd
  have hexec : exec (.getbits d width) s = complete s (withWidth s.cfg width
      (if s.numBitsOf d ≤ s.operandIdx ∨ s.numBitsOf d < s.operandIdx + width then .error .range
       else resultOf ((s.slotAt d).bitRead s.cfg.wordWidth s.operandIdx width))) :=
    congrArg (complete s) (withSlot_of_lt hd _)
  rw [State.bitRead_slotAt] at hexec
  refine ⟨fun hwidth hlt hend => Returns.of_result ?_, fun hwidth => Fails.of_error (e := .width) ?_,
    fun hwidth hout => Fails.of_error (e := .range) ?_⟩
  · rw [hexec, withWidth_of_le hwidth, if_neg (by omega)]
  · rw [hexec, withWidth_of_gt hwidth]
  · rw [hexec, withWidth_of_le hwidth, if_pos hout]

/-- Settles O33: below RANGE, GETBYTE answers ByteRead, which is BitRead of 8 bits. -/
theorem getbyteReadsTheByte : Obligations.GetbyteReadsTheByte := by
  intro s d hs hd
  have hexec : exec (.getbyte d) s = complete s
      (if s.numBitsOf d / 8 ≤ s.operandIdx then .error .range
       else resultOf ((s.slotAt d).bitRead s.cfg.wordWidth (s.numBitsOf d - 8 * (s.operandIdx + 1)) 8)) :=
    congrArg (complete s) (withSlot_of_lt hd _)
  rw [State.bitRead_slotAt] at hexec
  exact ⟨fun hlt => Returns.of_result (by rw [hexec, if_neg hlt.not_ge]),
    fun hge => Fails.of_error (e := .range) (by rw [hexec, if_pos hge])⟩

/-- Settles O34: below RANGE, SETBYTE stores ByteWrite of the slot. -/
theorem setbyteWritesTheByte : Obligations.SetbyteWritesTheByte := by
  intro s d byte hs hd
  have hexec : exec (.setbyte d byte) s = complete s
      (if s.numBitsOf d / 8 ≤ s.operandIdx then .error .range
       else .ok (.store d ((s.slotAt d).byteWrite s.cfg.wordWidth s.operandIdx byte.toNat))) :=
    congrArg (complete s) (withSlot_of_lt hd _)
  refine ⟨fun hlt => ?_, fun hge => Fails.of_error (e := .range) (by rw [hexec, if_pos hge])⟩
  rw [if_neg hlt.not_ge] at hexec
  obtain ⟨t, ht, hwrites, hcfg, hslot⟩ := WritesOnly.of_exec (hs.slot_lt hd) hexec
  obtain ⟨-, hbits⟩ := Slot.byteWrite_spec (v := byte.toNat) hs.1 (hs.slotAt_wf d) hlt
  have hpos : (s.slotAt d).bytePos s.cfg.wordWidth s.operandIdx = s.numBitsOf d - 8 * (s.operandIdx + 1) := rfl
  rw [hpos] at hbits
  have hbit : ∀ p, t.bitAt d p = _ := fun p => by rw [State.bitAt, hslot, hcfg, hbits]
  refine ⟨t, ht, hwrites, ?_, ?_, fun j hj => ?_, fun p hp hout => ?_⟩
  · rw [State.numBitsOf, hslot, hcfg, Slot.byteWrite_numBits, State.numBitsOf]
  · rw [State.padOf, hslot, Slot.byteWrite_pad, State.padOf]
  · rw [hbit, if_pos (by omega), Nat.add_sub_cancel_left]
    rfl
  · rw [hbit, if_neg (by omega)]
    rfl

/-- Settles O35: each of the four answers a count of its slot; that n is at most CAP is part of the canonical form. -/
theorem countsAreReturned : Obligations.CountsAreReturned := by
  intro s d hs hd
  refine ⟨.of_result ?_, .of_result ?_, .of_result ?_, .of_result ?_, rfl, (hs.slotAt_wf d).numBits_le_cap⟩
  all_goals exact congrArg (complete s) (withSlot_of_lt hd _)

/-! ### Decoders -/

/-- A decoder given a character of its alphabet is one Append of the character's value (42_format_codecs.md R160). -/
theorem exec_decodeChar_of_value {i : Instr} {s : State} {d g v : Nat} {c : Byte} {value : Option Nat}
    (hexec : exec i s = complete s (decodeChar s d g c value)) (hd : d < s.cfg.nbuf) (hvalue : value = some v) :
    exec i s = complete s (storeAppend s.cfg d (s.slotAt d) g v) := by
  rw [hexec, hvalue, decodeChar, withSlot_of_lt hd]

/-- A decoder given a character outside its alphabet fails with CHAR (42_format_codecs.md R160). -/
theorem Fails.of_decodeChar {i : Instr} {s : State} {d g : Nat} {c : Byte} {value : Option Nat}
    (hexec : exec i s = complete s (decodeChar s d g c value)) (hd : d < s.cfg.nbuf) (hvalue : value = none) :
    Fails i s 5 c :=
  Fails.of_error (e := .char c) (by rw [hexec, hvalue, decodeChar, withSlot_of_lt hd])

/-- The value of a character of the binary alphabet (42_format_codecs.md R161). -/
theorem binValue_of_mem {c : Byte} (h : c = 0x30 ∨ c = 0x31) : binValue c = some (if c = 0x31 then 1 else 0) := by
  rcases h with rfl | rfl <;> rfl

theorem binValue_of_not_mem {c : Byte} (h0 : c ≠ 0x30) (h1 : c ≠ 0x31) : binValue c = none := by
  rw [binValue, if_neg h0, if_neg h1]

/-- Settles O36: DEC_BIN decodes by `binValue`, one bit a character. -/
theorem decBinAppendsOneBit : Obligations.DecBinAppendsOneBit := by
  intro s d c hs hd
  have hvalue := fun hc => exec_decodeChar_of_value (i := .decBin d c) (s := s) rfl hd (binValue_of_mem hc)
  exact ⟨fun hc hfit => Appended.of_storeAppend hs hd (hvalue hc) hfit,
    fun h0 h1 => Fails.of_decodeChar (i := .decBin d c) (s := s) rfl hd (binValue_of_not_mem h0 h1),
    fun hc hfull => Fails.of_storeAppend (hvalue hc) hfull⟩

/-- Settles O37: DEC_HEX decodes by the place in the hex alphabet, four bits a character. -/
theorem decHexAppendsTheNibble : Obligations.DecHexAppendsTheNibble := by
  intro s d c hs hd
  have hvalue := fun {v} hc => exec_decodeChar_of_value (i := .decHex d c) (s := s) (v := v) rfl hd hc
  refine ⟨fun v hv hplace hfit => Appended.of_storeAppend hs hd (hvalue (hexValue_of_place hv hplace)) hfit,
    fun hout => Fails.of_decodeChar (i := .decHex d c) (s := s) rfl hd (hexValue_of_not_mem hout), fun hmem hfull => ?_⟩
  obtain ⟨v, hv, -⟩ := hexValue_of_mem hmem
  exact Fails.of_storeAppend (hvalue hv) hfull

/-- Settles O39: DEC_ASC decodes every character, by its code. -/
theorem decAscAppendsTheByte : Obligations.DecAscAppendsTheByte := by
  intro s d c hs hd
  have hvalue : exec (.decAsc d c) s = complete s (storeAppend s.cfg d (s.slotAt d) 8 c.toNat) :=
    exec_decodeChar_of_value rfl hd rfl
  exact ⟨Appended.of_storeAppend hs hd hvalue, Fails.of_storeAppend hvalue⟩

theorem isLineEnd_iff (c : Byte) : isLineEnd c = true ↔ c = 0x0A ∨ c = 0x0D := by
  simp [isLineEnd]

/-- DEC_B64 skips a line end (42_format_codecs.md R163). -/
theorem exec_decB64_of_lineEnd {s : State} {d : Nat} {c : Byte} (hd : d < s.cfg.nbuf) (hc : c = 0x0A ∨ c = 0x0D) :
    exec (.decB64 d c) s = complete s (.ok .nothing) := by
  refine congrArg (complete s) ?_
  rw [if_pos ((isLineEnd_iff c).mpr hc), withSlot_of_lt hd]

/-- DEC_B64 of `=` (42_format_codecs.md R163). -/
theorem exec_decB64_of_padding {s : State} {d : Nat} (hd : d < s.cfg.nbuf) :
    exec (.decB64 d 0x3D) s = complete s (appendPadding s.cfg d (s.slotAt d)) := by
  refine congrArg (complete s) ?_
  rw [if_neg (by decide), if_pos rfl, withSlot_of_lt hd]

/-- DEC_B64 of every other character looks it up in the alphabet (42_format_codecs.md R163). -/
theorem exec_decB64_of_other {s : State} {d : Nat} {c : Byte} (hline : ¬ (c = 0x0A ∨ c = 0x0D)) (hpad : c ≠ 0x3D) :
    exec (.decB64 d c) s = complete s (decodeChar s d 6 c (b64Value c)) := by
  refine congrArg (complete s) ?_
  rw [if_neg (mt (isLineEnd_iff c).mp hline), if_neg hpad]

/-- DEC_B64 of a character of the alphabet is one Append of 6 bits: no line end and no `=` is in the alphabet
(40_char_codecs.md R101). -/
theorem exec_decB64_of_value {s : State} {d v : Nat} {c : Byte} (hd : d < s.cfg.nbuf) (hmem : c.toNat ∈ b64Alphabet)
    (hv : b64Value c = some v) : exec (.decB64 d c) s = complete s (storeAppend s.cfg d (s.slotAt d) 6 v) := by
  obtain ⟨hlf, hcr, heq⟩ := b64Alphabet_excludes
  have hline : ¬ (c = 0x0A ∨ c = 0x0D) := by
    rintro (rfl | rfl)
    · exact hlf hmem
    · exact hcr hmem
  have hpad : c ≠ 0x3D := by
    rintro rfl
    exact heq hmem
  exact exec_decodeChar_of_value (exec_decB64_of_other hline hpad) hd hv

/-- The character at a place of the base64 alphabet is in it. -/
theorem mem_b64Alphabet_of_place {n v : Nat} (hv : v < 64) (h : n = b64Alphabet.getD v 0) : n ∈ b64Alphabet := by
  have hlen : b64Alphabet.length = 64 := rfl
  rw [h, List.getD_eq_getElem _ _ (hlen ▸ hv)]
  exact List.getElem_mem _

/-- DEC_B64 of `=` that fits appends 6 zero bits and adds 8 to pad (42_format_codecs.md R163). -/
theorem Appended.of_padding {s : State} {d : Nat} (hs : s.Inv) (hd : d < s.cfg.nbuf)
    (hfit : s.numBitsOf d + 6 ≤ s.cfg.cap) :
    ∃ t, exec (.decB64 d 0x3D) s = .next t ∧ Appended s t d 6 0 ∧ t.padOf d = s.padOf d + 8 := by
  obtain ⟨b', hb'⟩ := Slot.append_fits (v := 0) hfit
  obtain ⟨happended, hpad⟩ := Appended.of_append hs hd hb' (b'.pad + 8)
  obtain ⟨hadd, -⟩ := Slot.pad_add_eight hs.1 (hs.slotAt_wf d) (hs.padBounded d) hb'
  refine ⟨_, ?_, happended, hpad.trans hadd⟩
  rw [exec_decB64_of_padding hd, appendPadding, hb']
  rfl

/-- Settles O38: DEC_B64 tells line ends, `=` and the alphabet apart, in that order. -/
theorem decB64AppendsTheGroup : Obligations.DecB64AppendsTheGroup := by
  intro s d c hs hd
  refine ⟨fun hline => ?line, ?padding, fun v hv hplace hfit => ?value, fun hlf hcr hpad hout => ?char, ?full⟩
  case line => exact ⟨_, exec_decB64_of_lineEnd hd hline, EndsOk.of_apply s .nothing, rfl, rfl⟩
  case padding =>
    rintro rfl hfit
    exact Appended.of_padding hs hd hfit
  case value =>
    exact Appended.of_storeAppend hs hd
      (exec_decB64_of_value hd (mem_b64Alphabet_of_place hv hplace) (b64Value_of_place hv hplace)) hfit
  case char =>
    exact Fails.of_decodeChar (exec_decB64_of_other (not_or.mpr ⟨hlf, hcr⟩) hpad) hd (b64Value_of_not_mem hout)
  case full =>
    rintro (rfl | hmem) hfull
    · refine Fails.of_error (e := .full) ?_
      rw [exec_decB64_of_padding hd, appendPadding, Slot.append_full hfull]
    · obtain ⟨v, hv, -⟩ := b64Value_of_mem hmem
      exact Fails.of_storeAppend (exec_decB64_of_value hd hmem hv) hfull

/-! ### Encoders -/

theorem renderLength_of_whole {m g : Nat} (h : m % g = 0) : renderLength m g = resultOf (m / g) :=
  if_neg (not_not.mpr h)

theorem renderLength_of_ragged {m g : Nat} (h : m % g ≠ 0) : renderLength m g = .error .group := if_pos h

theorem renderChar_of_lt {m g k : Nat} (c : Byte) (h : m % g = 0) (hk : k < m / g) :
    renderChar m g k c = resultOf c.toNat := by
  rw [renderChar, if_neg (not_not.mpr h), if_neg hk.not_ge]

theorem renderChar_of_ragged {m g : Nat} (k : Nat) (c : Byte) (h : m % g ≠ 0) : renderChar m g k c = .error .group :=
  if_pos h

theorem renderChar_of_ge {m g k : Nat} (c : Byte) (h : m % g = 0) (hk : m / g ≤ k) :
    renderChar m g k c = .error .range := by
  rw [renderChar, if_neg (not_not.mpr h), if_pos hk]

/-- A length command, from the length it computes: a whole number of characters, or GROUP (42_format_codecs.md
R171). -/
theorem returns_or_fails_of_renderLength {i : Instr} {s : State} {m g : Nat}
    (hexec : exec i s = complete s (renderLength m g)) :
    (m % g = 0 → Returns i s (m / g)) ∧ (m % g ≠ 0 → Fails i s 9 0) :=
  ⟨fun h => .of_result (by rw [hexec, renderLength_of_whole h]),
    fun h => Fails.of_error (e := .group) (by rw [hexec, renderLength_of_ragged h])⟩

/-- A character command, from the character it computes: GROUP, then RANGE, else the character (42_format_codecs.md
R170, R171). -/
theorem returns_or_fails_of_renderChar {i : Instr} {s : State} {m g : Nat} {c : Byte}
    (hexec : exec i s = complete s (renderChar m g s.operandIdx c)) :
    (m % g = 0 → s.operandIdx < m / g → Returns i s c.toNat) ∧ (m % g ≠ 0 → Fails i s 9 0) ∧
    (m % g = 0 → m / g ≤ s.operandIdx → Fails i s 6 0) :=
  ⟨fun h hk => .of_result (by rw [hexec, renderChar_of_lt c h hk]),
    fun h => Fails.of_error (e := .group) (by rw [hexec, renderChar_of_ragged _ c h]),
    fun h hk => Fails.of_error (e := .range) (by rw [hexec, renderChar_of_ge c h hk])⟩

/-- Settles O40: the three are `renderLength` of their region, which for hex and ASCII leaves the padding out. -/
theorem renderingLengthsAreReturned : Obligations.RenderingLengthsAreReturned := by
  rintro s d m - hd rfl
  obtain ⟨hhex, hhex'⟩ :=
    returns_or_fails_of_renderLength (i := .enclenHex d) (congrArg (complete s) (withSlot_of_lt hd _))
  obtain ⟨hasc, hasc'⟩ :=
    returns_or_fails_of_renderLength (i := .enclenAsc d) (congrArg (complete s) (withSlot_of_lt hd _))
  obtain ⟨hb64, hb64'⟩ :=
    returns_or_fails_of_renderLength (i := .enclenB64 d) (congrArg (complete s) (withSlot_of_lt hd _))
  exact ⟨hhex, hhex', hasc, hasc', hb64, hb64'⟩

/-- Settles O41: ENC_BIN answers `0` or `1` for the bit counted from the top. -/
theorem encBinReturnsTheCharacter : Obligations.EncBinReturnsTheCharacter := by
  intro s d _ hd
  have hexec : exec (.encBin d) s = complete s (if s.numBitsOf d ≤ s.operandIdx then .error .range
      else resultOf (0x30 + (s.bitAt d (s.numBitsOf d - 1 - s.operandIdx)).toNat)) :=
    congrArg (complete s) (withSlot_of_lt hd _)
  refine ⟨fun hlt => .of_result ?_, fun hge => Fails.of_error (e := .range) (by rw [hexec, if_pos hge])⟩
  rw [hexec, if_neg hlt.not_ge]
  cases s.bitAt d (s.numBitsOf d - 1 - s.operandIdx) <;> rfl

/-- The group that a character stands for, as the sum of 00_scope.md R11. -/
theorem State.groupAt_slotAt (s : State) (d g k : Nat) :
    (s.slotAt d).groupAt s.cfg.wordWidth g k = s.fieldOf d (s.numBitsOf d - g * (k + 1)) g := State.bitRead_slotAt ..

theorem State.fieldOf_lt (s : State) (d i w : Nat) : s.fieldOf d i w < 2 ^ w :=
  State.bitRead_slotAt s d i w ▸ Slot.bitRead_lt ..

/-- Settles O42: ENC_HEX answers the character of its group of 4 bits. -/
theorem encHexReturnsTheCharacter : Obligations.EncHexReturnsTheCharacter := by
  rintro s d m - hd rfl
  have h := returns_or_fails_of_renderChar (i := .encHex d) (congrArg (complete s) (withSlot_of_lt hd _))
  rwa [State.groupAt_slotAt, hexChar_toNat (State.fieldOf_lt s d _ 4)] at h

/-- The base64 character of a group (42_format_codecs.md R177). -/
theorem State.b64CharAt_toNat (s : State) (d k : Nat) :
    ((s.slotAt d).b64CharAt s.cfg.wordWidth k).toNat =
      if s.numBitsOf d - 6 * k - 1 < s.padOf d then 0x3D
      else b64Alphabet.getD (s.fieldOf d (s.numBitsOf d - 6 * (k + 1)) 6) 0 := by
  rw [Slot.b64CharAt, State.groupAt_slotAt, apply_ite BitVec.toNat, b64Char_toNat (State.fieldOf_lt s d _ 6)]
  rfl

/-- Settles O43: ENC_B64 answers `=` for a group inside the padding, else the character of its group of 6 bits. -/
theorem encB64ReturnsTheCharacter : Obligations.EncB64ReturnsTheCharacter := by
  intro s d _ hd
  have h := returns_or_fails_of_renderChar (i := .encB64 d) (congrArg (complete s) (withSlot_of_lt hd _))
  rwa [State.b64CharAt_toNat] at h

/-- Settles O44: ENC_ASC answers its group of 8 bits. -/
theorem encAscReturnsTheCharacter : Obligations.EncAscReturnsTheCharacter := by
  rintro s d m - hd rfl
  have h := returns_or_fails_of_renderChar (i := .encAsc d) (congrArg (complete s) (withSlot_of_lt hd _))
  rwa [State.groupAt_slotAt, BitVec.toNat_ofNat, Nat.mod_eq_of_lt (State.fieldOf_lt s d _ 8)] at h

/-! ### XOR -/

/-- Settles O45: with equal bit counts XOR stores `Slot.exclusiveOr` of its sources. -/
theorem xorCombinesTheSlots : Obligations.XorCombinesTheSlots := by
  intro s d a b hs hd ha hb
  refine ⟨fun hn => ?_, fun hn => Fails.of_error (e := .size) (congrArg (complete s) ?_)⟩
  · obtain ⟨t, ht, hwrites, hcfg, hslot⟩ :=
      WritesOnly.of_exec (hs.slot_lt hd) (exec_xor_of_numBits_eq hd ha hb hn)
    obtain ⟨-, hbits⟩ := Slot.exclusiveOr_spec (hs.slotAt_wf a) (hs.slotAt_wf b) hn
    refine ⟨t, ht, hwrites, ?_, ?_, ?_, fun p _ => ?_⟩
    · rw [State.numBitsOf, hslot, hcfg, Slot.exclusiveOr_numBits, State.numBitsOf]
    · rw [hslot]
      rfl
    · rw [State.padOf, hslot, Slot.exclusiveOr_pad, State.padOf]
    · rw [State.bitAt, hslot, hcfg, hbits]
      rfl
  · rw [withSlot_of_lt hd, withSlot_of_lt ha, withSlot_of_lt hb]
    exact if_pos hn

/-- Settles O46: with a key of at least one byte RKXOR stores `Slot.repeatingKeyXor` of the target. -/
theorem rkxorAppliesTheKey : Obligations.RkxorAppliesTheKey := by
  intro s d a hs hd ha
  refine ⟨fun hkey => ?_, fun hkey => Fails.of_error (e := .emptyKey) (congrArg (complete s) ?_)⟩
  · obtain ⟨t, ht, hwrites, hcfg, hslot⟩ := WritesOnly.of_exec (hs.slot_lt hd) (exec_rkxor_of_key hd ha hkey)
    obtain ⟨-, hbytes, htrail⟩ := Slot.repeatingKeyXor_spec (k := s.slotAt a) hs.1 (hs.slotAt_wf d)
    refine ⟨t, ht, hwrites, ?_, ?_, fun k hk j hj => ?_, fun p hp => ?_⟩
    · rw [State.numBitsOf, hslot, hcfg, Slot.repeatingKeyXor_numBits, State.numBitsOf]
    · rw [State.padOf, hslot, Slot.repeatingKeyXor_pad, State.padOf]
    · rw [State.bitAt, hslot, hcfg]
      exact hbytes k hk j hj
    · rw [State.bitAt, hslot, hcfg]
      exact htrail p hp
  · rw [withSlot_of_lt hd, withSlot_of_lt ha]
    exact if_pos (Nat.div_eq_of_lt hkey)

/-! ### Char codecs -/

/-- C2V of a character without a value fails with CHAR (40_char_codecs.md R102, R104). -/
theorem Fails.of_charToValue {i : Instr} {s : State} {c : Byte} {value : Option Nat}
    (hexec : exec i s = complete s (charToValue value c)) (hvalue : value = none) : Fails i s 5 c :=
  Fails.of_error (e := .char c) (by rw [hexec, hvalue, charToValue])

/-- V2C of a value above its limit fails with VALUE (40_char_codecs.md R103, R105). -/
theorem Fails.of_valueToChar {i : Instr} {s : State} {limit n : Nat} {c : Byte}
    (hexec : exec i s = complete s (valueToChar limit n c)) (hn : limit < n) : Fails i s 4 0 :=
  Fails.of_error (e := .value) (by rw [hexec, valueToChar, if_pos hn])

/-- Settles O48: C2V_HEX looks the character up in the hex alphabet, V2C_HEX the value. -/
theorem hexCharCodec : Obligations.HexCharCodec := by
  intro s c n
  refine ⟨fun v hv hplace => .c2vHex s (hexValue_of_place hv hplace),
    fun hout => .of_charToValue rfl (hexValue_of_not_mem hout), fun hn => ?_, fun hn => .of_valueToChar rfl hn⟩
  have hlt : n < 16 := Nat.lt_succ_of_le hn
  exact hexChar_toNat hlt ▸ .v2cHex s hlt

/-- Settles O49: C2V_B64 looks the character up in the base64 alphabet, V2C_B64 the value. -/
theorem base64CharCodec : Obligations.Base64CharCodec := by
  intro s c n
  refine ⟨fun v hv hplace => .c2vB64 s (b64Value_of_place hv hplace),
    fun hout => .of_charToValue rfl (b64Value_of_not_mem hout), fun hn => ?_, fun hn => .of_valueToChar rfl hn⟩
  have hlt : n < 64 := Nat.lt_succ_of_le hn
  exact b64Char_toNat hlt ▸ .v2cB64 s hlt

end Sys2Proof.Machine
end

section
/-! Settles the statement of 70_reset_and_hazards.md R264: the bus writes of a transaction, and the wait for BUSY = 0,
come to one atomic Execute(w, ARG, IDX). -/

namespace Sys2Proof.Machine

/-! ### The operand writes -/

/-- `u` is the idle block `s` after operand writes of this host: nothing has changed that a command or its latency
could show but ARG and IDX. -/
structure OperandFrame (host : Nat) (s u : State) : Prop where
  cfg : u.cfg = s.cfg
  slots : u.slots = s.slots
  result : u.result = s.result
  sticky : u.sticky = s.sticky
  overrun : u.overrun = s.overrun
  draws : u.draws = s.draws
  latch : u.latch = none
  owner : u.owner = none ∨ u.owner = some host

section
variable {s : State} {host : Nat} {rest : List HostCycle}

/-- The cycle of one write. -/
theorem run_write {offset : Nat} {v : BitVec 64} (hlatch : s.latch = none)
    (howner : s.owner = none ∨ s.owner = some host) (hinputs : s.inputs = writeCycle host s.cfg.base offset v :: rest)
    (hlt : offset < 0x100) (h8 : offset % 8 = 0) (k : Nat) :
    runSteps (s.inputs.length + k) s =
      runSteps (rest.length + k) (((s.tick.withInputs rest).grant host).writeRegister offset v) := by
  have hlen : s.inputs.length + k = rest.length + k + 1 := by
    rw [hinputs, List.length_cons]
    omega
  rw [hlen, runSteps_write hinputs hlatch howner hlt h8]

/-- The cycles of a transaction's ARG write, none or one (30_encoding.md R81). -/
theorem run_argWrite {arg : Option (BitVec 64)} (hlatch : s.latch = none)
    (howner : s.owner = none ∨ s.owner = some host)
    (hinputs : s.inputs = (arg.map fun v => writeCycle host s.cfg.base 0x08 v).toList ++ rest) :
    ∃ u, OperandFrame host s u ∧ u.arg = arg.getD s.arg ∧ u.idx = s.idx ∧ u.inputs = rest ∧
      ∀ k, runSteps (s.inputs.length + k) s = runSteps (u.inputs.length + k) u := by
  cases arg with
  | none => exact ⟨s, ⟨rfl, rfl, rfl, rfl, rfl, rfl, hlatch, howner⟩, rfl, rfl, hinputs, fun _ => rfl⟩
  | some v =>
    refine ⟨((s.tick.withInputs rest).grant host).writeRegister 0x08 v,
      ⟨rfl, rfl, rfl, rfl, rfl, rfl, hlatch, .inr rfl⟩, rfl, rfl, rfl, ?_⟩
    exact run_write hlatch howner hinputs (by decide) (by decide)

/-- The cycles of a transaction's IDX write, none or one (30_encoding.md R81). -/
theorem run_idxWrite {idx : Option (BitVec 32)} (hlatch : s.latch = none)
    (howner : s.owner = none ∨ s.owner = some host)
    (hinputs : s.inputs = (idx.map fun v => writeCycle host s.cfg.base 0x10 (v.setWidth 64)).toList ++ rest) :
    ∃ u, OperandFrame host s u ∧ u.arg = s.arg ∧ u.idx = idx.getD s.idx ∧ u.inputs = rest ∧
      ∀ k, runSteps (s.inputs.length + k) s = runSteps (u.inputs.length + k) u := by
  cases idx with
  | none => exact ⟨s, ⟨rfl, rfl, rfl, rfl, rfl, rfl, hlatch, howner⟩, rfl, rfl, hinputs, fun _ => rfl⟩
  | some v =>
    refine ⟨((s.tick.withInputs rest).grant host).writeRegister 0x10 (v.setWidth 64),
      ⟨rfl, rfl, rfl, rfl, rfl, rfl, hlatch, .inr rfl⟩, rfl, setWidth_setWidth_command v, rfl, ?_⟩
    exact run_write hlatch howner hinputs (by decide) (by decide)

end

/-- The cycles of both operand writes leave the CMD write and the operands of `State.withOperands`. -/
theorem run_operandWrites {s : State} {t : Transaction} {host : Nat} (hlatch : s.latch = none)
    (howner : s.owner = none ∨ s.owner = some host) (hinputs : s.inputs = t.cycles host s.cfg.base) :
    ∃ u, OperandFrame host s u ∧ u.arg = (s.withOperands t).arg ∧ u.idx = (s.withOperands t).idx ∧
      u.inputs = [writeCycle host u.cfg.base 0x00 ((encode t.cmd).setWidth 64)] ∧
      ∀ k, runSteps (s.inputs.length + k) s = runSteps (1 + k) u := by
  rw [Transaction.cycles, List.append_assoc] at hinputs
  obtain ⟨u, hu, harg, hidx, hin, hrun⟩ := run_argWrite hlatch howner hinputs
  rw [← hu.cfg] at hin
  obtain ⟨v, hv, harg', hidx', hin', hrun'⟩ := run_idxWrite hu.latch hu.owner hin
  refine ⟨v, ⟨hv.cfg.trans hu.cfg, hv.slots.trans hu.slots, hv.result.trans hu.result, hv.sticky.trans hu.sticky,
    hv.overrun.trans hu.overrun, hv.draws.trans hu.draws, hv.latch, hv.owner⟩, harg'.trans harg, ?_, ?_, fun k => ?_⟩
  · rw [hidx', hidx, State.withOperands_idx]
  · rw [hin', hv.cfg]
  · rw [hrun, hrun', hin']
    rfl

/-! ### The CMD write and the wait -/

/-- The CMD write latches the command, its latency runs down, and the next step executes it. -/
theorem run_command {s : State} {i : Instr} {host : Nat} (hwf : i.WellFormed = true) (hlatch : s.latch = none)
    (howner : s.owner = none ∨ s.owner = some host)
    (hinputs : s.inputs = [writeCycle host s.cfg.base 0x00 ((encode i).setWidth 64)]) :
    ∃ u, runSteps (1 + (Config.latency s.draws + 1)) s = exec i u ∧ u.cfg = s.cfg ∧ u.slots = s.slots ∧ u.arg = s.arg ∧
      u.idx = s.idx ∧ u.result = s.result ∧ u.sticky = s.sticky ∧ u.overrun = s.overrun ∧ u.inputs = [] ∧
      u.operandArg = s.arg ∧ u.operandIdx = s.idx.toNat := by
  obtain ⟨w, hw⟩ : ∃ w, w = ((s.tick.withInputs []).grant host).accept (encode i) := ⟨_, rfl⟩
  have hissue : ((s.tick.withInputs []).grant host).writeRegister 0x00 ((encode i).setWidth 64) = w := by
    have hidle : ((s.tick.withInputs []).grant host).busy = false := (State.busy_eq_false_iff _).mpr hlatch
    rw [State.writeRegister, State.issue_of_idle hidle, setWidth_setWidth_command, hw]
  have hwlatch : w.latch = some ⟨encode i, s.arg, s.idx⟩ := by simp [hw]
  have hwwait : w.wait = Config.latency s.draws := by simp [hw]
  have hwinputs : w.inputs = [] := by simp [hw]
  have hexec : step (w.waited w.wait) = exec i (w.waited w.wait) := by
    have hlatched : (w.waited w.wait).latch = some ⟨encode i, s.arg, s.idx⟩ := hwlatch
    rw [step_fetch (by simp [State.resetAsserted, hwinputs]) hlatched (by simp), decodeInvertsEncode i hwf]
  refine ⟨w.waited w.wait, ?_, by simp [hw], by simp [hw], by simp [hw], by simp [hw], by simp [hw], by simp [hw],
    by simp [hw], hwinputs, State.operandArg_of_latch hwlatch, State.operandIdx_of_latch hwlatch⟩
  rw [Nat.add_comm, runSteps_write hinputs hlatch howner (by decide) (by decide), hissue, ← hwwait, ← hexec,
    ← runSteps_one]
  exact runSteps_add (runSteps_idle hwinputs w.wait le_rfl) 1

/-- Settles O20: the command that the wait ends with reads the slots and operands that the atomic transaction reads,
and completes a block of the same architecture. -/
theorem transactionIsOneAtomicStep : Obligations.TransactionIsOneAtomicStep := by
  intro s t host hlatch _ howner hwf hinputs
  obtain ⟨u, hu, harg, hidx, hin, hrun⟩ := run_operandWrites hlatch howner hinputs
  obtain ⟨w, hexec, hcfg, hslots, hwarg, hwidx, hresult, hsticky, hoverrun, hwin, hoparg, hopidx⟩ :=
    run_command hwf hu.latch hu.owner hin
  have hidle : (s.withOperands t).latch = none := hlatch
  obtain ⟨r, hatomic, hbus⟩ := exec_congr t.cmd (s := s.withOperands t) (t := w) (hcfg.trans hu.cfg)
    (hslots.trans hu.slots) (by rw [hoparg, harg, State.operandArg_of_idle hidle])
    (by rw [hopidx, hidx, State.operandIdx_of_idle hidle])
  obtain ⟨x, y, hx, hy, hsame, hdone, hxin⟩ := complete_congr (s := w) (t := s.withOperands t) (hcfg.trans hu.cfg)
    (hslots.trans hu.slots) (hwarg.trans harg) (hwidx.trans hidx) (hresult.trans hu.result) (hsticky.trans hu.sticky)
    (hoverrun.trans hu.overrun) r
  refine ⟨x, y, ?_, hatomic.trans hy, hsame, hdone, hxin.trans hwin⟩
  rw [Nat.add_assoc, hrun, ← hu.draws, hexec, hbus, hx]

end Sys2Proof.Machine
end

section
/-! Settles the statements of 42_format_codecs.md R180 and R171 on the string encode TO_x: it reads one character
for each group of the region its format renders, and fails where the region is not whole characters. -/

namespace Sys2Proof.Machine

/-! ### What the encoder commands of one format render -/

/-- The format with these length and character commands renders slot d of every block with the storage of `s` as m
bits in groups of g, character k being `ch k` (42_format_codecs.md R170). -/
structure Renders (len char : Nat → Instr) (s : State) (d m g : Nat) (ch : Nat → Byte) : Prop where
  length : ∀ u : State, u.cfg = s.cfg → u.slots = s.slots → exec (len d) u = complete u (renderLength m g)
  character : ∀ u : State, u.cfg = s.cfg → u.slots = s.slots → u.latch = none →
    exec (char d) u = complete u (renderChar m g u.idx.toNat (ch u.idx.toNat))

section
variable {s : State} {d : Nat}

/-- A check of slot d, in a block with the storage of `s`. -/
theorem withSlot_of_storage {u : State} (hd : d < s.cfg.nbuf) (hcfg : u.cfg = s.cfg) (hslots : u.slots = s.slots)
    (k : Slot → Except CmdError Effect) : withSlot u d k = k (s.slotAt d) := by
  rw [withSlot_congr hcfg hslots, withSlot_of_lt hd]

/-- The character that ENC_BIN answers for a group of one bit (42_format_codecs.md R173). -/
def binChar (n : Nat) : Byte := BitVec.ofNat 8 (0x30 + n)

/-- A group of one bit is that bit. -/
theorem Slot.groupAt_one (W : Nat) (b : Slot) (k : Nat) :
    b.groupAt W 1 k = (b.bit W (b.numBits W - 1 - k)).toNat := by
  simp [Slot.groupAt, Slot.bitRead, bitsValue, show b.numBits W - (k + 1) = b.numBits W - 1 - k by omega]

/-- Binary renders every bit, one a character (42_format_codecs.md R172, R173). -/
theorem renders_bin (hd : d < s.cfg.nbuf) :
    Renders .enclenBin .encBin s d (s.numBitsOf d) 1 fun k => binChar ((s.slotAt d).groupAt s.cfg.wordWidth 1 k) where
  length u hcfg hslots := by
    refine congrArg (complete u) ?_
    rw [withSlot_of_storage hd hcfg hslots, hcfg, renderLength_of_whole (Nat.mod_one _), Nat.div_one, State.numBitsOf]
  character u hcfg hslots hlatch := by
    refine congrArg (complete u) ?_
    rw [withSlot_of_storage hd hcfg hslots, hcfg, State.operandIdx_of_idle hlatch, Slot.groupAt_one, renderChar,
      if_neg (not_not.mpr (Nat.mod_one _)), Nat.div_one, State.numBitsOf]
    cases (s.slotAt d).bit s.cfg.wordWidth ((s.slotAt d).numBits s.cfg.wordWidth - 1 - u.idx.toNat) <;> rfl

/-- Hex renders the region below the padding, four bits a character (42_format_codecs.md R174, R175). -/
theorem renders_hex (hd : d < s.cfg.nbuf) :
    Renders .enclenHex .encHex s d ((s.slotAt d).unpadded s.cfg.wordWidth) 4
      fun k => hexChar ((s.slotAt d).groupAt s.cfg.wordWidth 4 k) where
  length u hcfg hslots := by
    refine congrArg (complete u) ?_
    rw [withSlot_of_storage hd hcfg hslots, hcfg]
  character u hcfg hslots hlatch := by
    refine congrArg (complete u) ?_
    rw [withSlot_of_storage hd hcfg hslots, hcfg, State.operandIdx_of_idle hlatch]

/-- Base64 renders every bit, six a character, padding too (42_format_codecs.md R176, R177). -/
theorem renders_b64 (hd : d < s.cfg.nbuf) :
    Renders .enclenB64 .encB64 s d (s.numBitsOf d) 6 ((s.slotAt d).b64CharAt s.cfg.wordWidth) where
  length u hcfg hslots := by
    refine congrArg (complete u) ?_
    rw [withSlot_of_storage hd hcfg hslots, hcfg, State.numBitsOf]
  character u hcfg hslots hlatch := by
    refine congrArg (complete u) ?_
    rw [withSlot_of_storage hd hcfg hslots, hcfg, State.operandIdx_of_idle hlatch, State.numBitsOf]

/-- ASCII renders the region below the padding, eight bits a character (42_format_codecs.md R178, R179). -/
theorem renders_asc (hd : d < s.cfg.nbuf) :
    Renders .enclenAsc .encAsc s d ((s.slotAt d).unpadded s.cfg.wordWidth) 8
      fun k => BitVec.ofNat 8 ((s.slotAt d).groupAt s.cfg.wordWidth 8 k) where
  length u hcfg hslots := by
    refine congrArg (complete u) ?_
    rw [withSlot_of_storage hd hcfg hslots, hcfg]
  character u hcfg hslots hlatch := by
    refine congrArg (complete u) ?_
    rw [withSlot_of_storage hd hcfg hslots, hcfg, State.operandIdx_of_idle hlatch]

end

/-! ### Reading a rendering -/

/-- `u` is `s` after encoder commands that all succeeded: only RESULT, IDX and the error fields of STATUS may
differ. -/
structure ReadFrame (s u : State) : Prop where
  cfg : u.cfg = s.cfg
  slots : u.slots = s.slots
  sticky : u.sticky = s.sticky
  lastErr : u.lastErr = 0
  errChar : u.errChar = 0
  latch : u.latch = none
  wait : u.wait = 0

/-- Reading a rendering keeps the invariant. -/
theorem ReadFrame.inv {s u : State} (h : ReadFrame s u) (hs : s.Inv) : u.Inv := by
  obtain ⟨hcfg, hmem, hpad, -, -⟩ := hs
  rw [State.Inv, State.StatusLegal, h.cfg, h.slots, h.lastErr, h.errChar]
  exact ⟨hcfg, hmem, hpad, ⟨Nat.zero_le _, fun _ => rfl, fun hne => absurd rfl hne⟩, fun _ => h.wait⟩

namespace Renders

variable {len char : Nat → Instr} {s : State} {d m g : Nat} {ch : Nat → Byte}

/-- Character k of a rendering, with k in IDX. -/
theorem exec_character (h : Renders len char s d m g ch) (hwhole : m % g = 0) (hm : m / g ≤ 2 ^ 32) {k : Nat}
    (hk : k < m / g) {u : State} (hcfg : u.cfg = s.cfg) (hslots : u.slots = s.slots) (hlatch : u.latch = none)
    (hidx : u.idx = BitVec.ofNat 32 k) : exec (char d) u = complete u (resultOf (ch k).toNat) := by
  have hk' : (BitVec.ofNat 32 k).toNat = k := Nat.mod_eq_of_lt (hk.trans_le hm)
  rw [h.character u hcfg hslots hlatch, hidx, hk', renderChar_of_lt _ hwhole hk]

/-- Reading j characters from character k on, one transaction each. -/
theorem readText (h : Renders len char s d m g ch) (hwhole : m % g = 0) (hm : m / g ≤ 2 ^ 32) {j k : Nat} {u : State}
    (hu : ReadFrame s u) (hjk : k + j = m / g) :
    ∃ v, readText (char d) j k u = .next (.text ((List.range' k j).map ch) v) ∧ ReadFrame s v := by
  induction j generalizing k u with
  | zero => exact ⟨u, rfl, hu⟩
  | succ j ih =>
    have hread : transact (.indexed (char d) k) u =
        complete { u with idx := BitVec.ofNat 32 k } (resultOf (ch k).toNat) :=
      h.exec_character hwhole hm (by omega) hu.cfg hu.slots hu.latch rfl
    obtain ⟨v, hv, hframe⟩ := ih (k := k + 1)
      (u := ({ u with idx := BitVec.ofNat 32 k }.apply (.result (BitVec.ofNat 64 (ch k).toNat))).succeed)
      ⟨hu.cfg, hu.slots, hu.sticky, rfl, rfl, rfl, rfl⟩ (by omega)
    refine ⟨v, ?_, hframe⟩
    rw [Machine.readText, transactThen_of_ok hread rfl, hv, prependCharacter_text, List.range'_succ, List.map_cons]
    simp

/-- TO_x of a region of whole characters gives them all (42_format_codecs.md R180). -/
theorem toText (h : Renders len char s d m g ch) (hwhole : m % g = 0) (hm : m / g ≤ 2 ^ 32) :
    ∃ v, toText len char d s = .next (.text ((List.range (m / g)).map ch) v) ∧ ReadFrame s v := by
  have hlen : transact (.plain (len d)) s = complete s (resultOf (m / g)) := by
    rw [transact_plain, h.length s rfl rfl, renderLength_of_whole hwhole]
  have hresult : (BitVec.ofNat 64 (m / g)).toNat = m / g := Nat.mod_eq_of_lt (by omega)
  obtain ⟨v, hv, hframe⟩ := h.readText hwhole hm (k := 0) (u := (s.setResult (BitVec.ofNat 64 (m / g))).succeed)
    ⟨rfl, rfl, rfl, rfl, rfl, rfl, rfl⟩ (Nat.zero_add _)
  refine ⟨v, ?_, hframe⟩
  rw [Machine.toText, transactThen_of_ok hlen rfl, List.range_eq_range', ← hv]
  exact congrArg (fun j => Machine.readText (char d) j 0 _) hresult

/-- TO_x of a region that is not whole characters fails as ENCLEN_x has (42_format_codecs.md R171, R180). -/
theorem toText_ragged (h : Renders len char s d m g ch) (hragged : m % g ≠ 0) :
    Machine.toText len char d s = .next (.failed 9 (s.raise .group)) := by
  have hlen : transact (.plain (len d)) s = .next (s.raise .group) := by
    rw [transact_plain, h.length s rfl rfl, renderLength_of_ragged hragged]
    rfl
  rw [Machine.toText, transactThen_of_error hlen (CmdError.code_ne_zero .group)]
  rfl

end Renders

/-- A length command that answers leaves a whole number of characters in RESULT. -/
theorem whole_of_renderLength {s t : State} {m g : Nat} (h : complete s (renderLength m g) = .next t)
    (hzero : t.lastErr = 0) : m % g = 0 ∧ t.result = BitVec.ofNat 64 (m / g) := by
  by_cases hwhole : m % g = 0
  · rw [renderLength_of_whole hwhole] at h
    cases h
    exact ⟨hwhole, rfl⟩
  · rw [renderLength_of_ragged hwhole] at h
    cases h
    exact absurd hzero (CmdError.code_ne_zero .group)

/-- The region of a rendering is at most CAP bits, so its length fits RESULT and its indices fit IDX. -/
theorem State.Inv.numBitsOf_lt {s : State} (hs : s.Inv) (d : Nat) : s.numBitsOf d < 2 ^ 31 :=
  (hs.slotAt_wf d).numBits_le_cap.trans_lt (Config.Valid.cap_lt hs.1).2

theorem State.Inv.unpadded_lt {s : State} (hs : s.Inv) (d : Nat) : (s.slotAt d).unpadded s.cfg.wordWidth < 2 ^ 31 :=
  (Nat.sub_le ..).trans_lt (hs.numBitsOf_lt d)

/-- Each format renders every slot, as a region of fewer than 2^31 bits. -/
theorem exists_renders {s : State} (hs : s.Inv) {d : Nat} (hd : d < s.cfg.nbuf) {f : (Nat → Instr) × (Nat → Instr)}
    (hf : f ∈ [(Instr.enclenBin, Instr.encBin), (Instr.enclenHex, Instr.encHex), (Instr.enclenB64, Instr.encB64),
      (Instr.enclenAsc, Instr.encAsc)]) :
    ∃ m g ch, Renders f.1 f.2 s d m g ch ∧ m < 2 ^ 31 := by
  simp only [List.mem_cons, List.not_mem_nil, or_false] at hf
  rcases hf with rfl | rfl | rfl | rfl
  · exact ⟨_, _, _, renders_bin hd, hs.numBitsOf_lt d⟩
  · exact ⟨_, _, _, renders_hex hd, hs.unpadded_lt d⟩
  · exact ⟨_, _, _, renders_b64 hd, hs.numBitsOf_lt d⟩
  · exact ⟨_, _, _, renders_asc hd, hs.unpadded_lt d⟩

/-- The length commands of the four formats check slot d first (30_encoding.md R71). -/
theorem slotFields_lengthCommand {d : Nat} {f : (Nat → Instr) × (Nat → Instr)}
    (hf : f ∈ [(Instr.enclenBin, Instr.encBin), (Instr.enclenHex, Instr.encHex), (Instr.enclenB64, Instr.encB64),
      (Instr.enclenAsc, Instr.encAsc)]) : d ∈ (f.1 d).slotFields := by
  simp only [List.mem_cons, List.not_mem_nil, or_false] at hf
  rcases hf with rfl | rfl | rfl | rfl <;> exact List.mem_singleton_self d

/-- Settles O55: after ENCLEN_x every ENC_x reads the storage as it was, so the text is the list of the format's
characters. -/
theorem encodeMacrosReadEveryCharacter : Obligations.EncodeMacrosReadEveryCharacter := by
  intro s t d hs hlatch f hf hexec
  refine ⟨fun hne => transactThen_of_error (t := .plain (f.1 d)) hexec hne .., fun hzero => ?_⟩
  have hd : d < s.cfg.nbuf := by
    by_contra hd
    rw [exec_of_slot_ge (slotFields_lengthCommand hf) (Nat.not_lt.mp hd)] at hexec
    cases hexec
    exact CmdError.code_ne_zero .slot hzero
  obtain ⟨m, g, ch, hrenders, hm⟩ := exists_renders hs hd hf
  have hbound : m / g < 2 ^ 31 := (Nat.div_le_self m g).trans_lt hm
  obtain ⟨hwhole, hresult⟩ := whole_of_renderLength ((hrenders.length s rfl rfl).symm.trans hexec) hzero
  obtain ⟨u, htext, hframe⟩ := hrenders.toText hwhole (by omega)
  refine ⟨_, u, htext, ?length, hframe.slots, hframe.lastErr, hframe.sticky, fun k c hc => ?character⟩
  case length =>
    rw [List.length_map, List.length_range, hresult]
    exact (Nat.mod_eq_of_lt (by omega)).symm
  case character =>
    obtain ⟨hk, rfl⟩ : k < m / g ∧ ch k = c := by
      obtain ⟨hk, hc⟩ := List.getElem?_eq_some_iff.mp hc
      exact ⟨by simpa using hk, by simpa using hc⟩
    exact Returns.of_result (hrenders.exec_character hwhole (by omega) hk rfl rfl hlatch rfl)

/-- Settles O56: ENCLEN_x fails with GROUP on such a region, and a region of single bits is always whole. -/
theorem encodeMacrosFailWithGroup : Obligations.EncodeMacrosFailWithGroup := by
  rintro s d m hs hd rfl
  refine ⟨fun h => ⟨_, (renders_hex hd).toText_ragged h, FailsWith.of_raise s .group⟩,
    fun h => ⟨_, (renders_asc hd).toText_ragged h, FailsWith.of_raise s .group⟩,
    fun h => ⟨_, (renders_b64 hd).toText_ragged h, FailsWith.of_raise s .group⟩, ?_⟩
  have hm := hs.numBitsOf_lt d
  obtain ⟨u, htext, -⟩ := (renders_bin hd).toText (Nat.mod_one _) (by omega)
  exact ⟨_, u, htext⟩

end Sys2Proof.Machine
end

section
/-! Settles the statements of 42_format_codecs.md R181 and R182: a string that fits is decoded and rendered back
unchanged, and the renderings of a buffer decode to that buffer. -/

namespace Sys2Proof.Machine

/-! ### What slot d holds after a decode (42_format_codecs.md R160, R165) -/

/-- Slot d holds these values in groups of g bits, the first one lowest. -/
structure Holds (s : State) (d g : Nat) (vs : List Nat) : Prop where
  numBits : s.numBitsOf d = g * vs.length
  group : ∀ j < vs.length, ∀ b < g, s.bitAt d (g * j + b) = (vs.getD j 0).testBit b

namespace Holds

variable {s t : State} {d g v : Nat} {vs : List Nat}

/-- Appending one group of g bits puts its value on top. -/
theorem append (h : Holds s d g vs) (ht : Appended s t d g v) : Holds t d g (vs ++ [v]) := by
  obtain ⟨-, hn, hold, hnew⟩ := ht
  rw [h.numBits] at hn hold hnew
  refine ⟨by rw [hn, List.length_append, List.length_singleton, Nat.mul_succ], fun j hj b hb => ?_⟩
  rw [List.length_append, List.length_singleton] at hj
  rcases Nat.lt_succ_iff_lt_or_eq.mp hj with hj | rfl
  · have hlow : g * j + b < g * vs.length := by
      calc g * j + b < g * j + g := by omega
        _ = g * (j + 1) := rfl
        _ ≤ g * vs.length := Nat.mul_le_mul_left _ hj
    rw [hold _ hlow, h.group j hj b hb, List.getD_append _ _ _ _ hj]
  · rw [hnew b hb, List.getD_append_right _ _ _ _ le_rfl, Nat.sub_self, List.getD_cons_zero]

/-- The k-th group from the top, as the encoders read it, is the k-th value from the last. -/
theorem groupAt (h : Holds s d g vs) (hlt : ∀ v ∈ vs, v < 2 ^ g) {k : Nat} (hk : k < vs.length) :
    (s.slotAt d).groupAt s.cfg.wordWidth g k = vs.reverse.getD k 0 := by
  have hj : vs.length - 1 - k < vs.length := by omega
  have hpos : s.numBitsOf d - g * (k + 1) = g * (vs.length - 1 - k) := by
    rw [h.numBits, ← Nat.mul_sub, Nat.sub_sub, Nat.add_comm]
  have hrev : vs.reverse.getD k 0 = vs.getD (vs.length - 1 - k) 0 := by
    simp [List.getD_eq_getElem?_getD, List.getElem?_reverse hk]
  rw [hrev]
  refine bitsValue_of_testBit _ _ _ ?_ fun b hb => ?_
  · rw [List.getD_eq_getElem _ _ hj]
    exact hlt _ (List.getElem_mem _)
  · rw [← h.group _ hj b hb, ← hpos]
    rfl

end Holds

/-! ### Running a decode -/

/-- A command keeps the invariant. -/
theorem State.Inv.exec {s t : State} {i : Instr} (hs : s.Inv) (h : exec i s = .next t) : t.Inv := by
  rcases exec_next_cases h with ⟨e, -, rfl⟩ | ⟨f, hlegal, rfl⟩
  · exact hs.raise e
  · exact hs.complete_ok hlegal

/-- The decoder command appends the value of this character as g bits, and adds e to pad, wherever it fits. -/
def Decodes (dec : Nat → Byte → Instr) (g : Nat) (c : Byte) (v e : Nat) : Prop :=
  ∀ (s : State) (d : Nat), s.Inv → d < s.cfg.nbuf → s.numBitsOf d + g ≤ s.cfg.cap →
    ∃ t, exec (dec d c) s = .next t ∧ Appended s t d g v ∧ t.padOf d = s.padOf d + e

/-- The block `t` after a decode into slot d that succeeded in `s`: the values lie in groups of g bits, and the padding
count is e. -/
structure Decoded (s t : State) (d g : Nat) (vs : List Nat) (e : Nat) : Prop where
  inv : t.Inv
  cfg : t.cfg = s.cfg
  lastErr : t.lastErr = 0
  holds : Holds t d g vs
  pad : t.padOf d = e

section
variable {dec : Nat → Byte → Instr} {g d : Nat} {value pad : Byte → Nat}

/-- Decoding the characters in this order, after those whose values slot d holds already. -/
theorem run_decode {cs : List Byte} (hdec : ∀ c ∈ cs, Decodes dec g c (value c) (pad c)) {s₀ s : State} {vs : List Nat}
    {e : Nat} (hs : Decoded s₀ s d g vs e) (hd : d < s.cfg.nbuf) (hfit : g * (vs.length + cs.length) ≤ s.cfg.cap) :
    ∃ t, runTransactions (cs.map fun c => .plain (dec d c)) s = .next t ∧
      Decoded s₀ t d g (vs ++ cs.map value) (e + (cs.map pad).sum) := by
  induction cs generalizing s vs e with
  | nil => exact ⟨s, rfl, by simpa using hs⟩
  | cons c cs ih =>
    have hroom : s.numBitsOf d + g ≤ s.cfg.cap := by
      rw [hs.holds.numBits, ← Nat.mul_succ]
      refine le_trans (Nat.mul_le_mul_left _ ?_) hfit
      rw [List.length_cons]
      omega
    obtain ⟨t, ht, happended, hpad⟩ := hdec c List.mem_cons_self s d hs.inv hd hroom
    obtain ⟨⟨⟨hcfg, -⟩, hzero, -⟩, -⟩ := happended.1
    have htd : Decoded s₀ t d g (vs ++ [value c]) (e + pad c) :=
      ⟨hs.inv.exec ht, hcfg.trans hs.cfg, hzero, hs.holds.append happended, by rw [hpad, hs.pad]⟩
    obtain ⟨u, hu, hud⟩ := ih (fun x hx => hdec x (List.mem_cons_of_mem _ hx)) htd (hcfg ▸ hd) (by
      rw [hcfg, List.length_append, List.length_singleton, Nat.add_assoc, Nat.add_comm 1]
      exact hfit)
    refine ⟨u, ?_, ?_⟩
    · rw [List.map_cons, runTransactions, transactThen_of_ok (t := .plain (dec d c)) ht hzero, hu]
    · rw [List.append_assoc, Nat.add_assoc] at hud
      exact hud

/-- FROM_x of a text that fits: the values of its characters, the last one lowest (42_format_codecs.md R165). -/
theorem run_fromText {s : State} {text : List Byte} (hs : s.Inv) (hd : d < s.cfg.nbuf)
    (hdec : ∀ c ∈ text, Decodes dec g c (value c) (pad c)) (hfit : g * text.length ≤ s.cfg.cap) :
    ∃ t, runTransactions (fromText dec d text) s = .next t ∧
      Decoded s t d g (text.reverse.map value) (text.map pad).sum := by
  obtain ⟨t, ht, hwrites, hcfg, hslot⟩ := WritesOnly.of_exec (hs.slot_lt hd) (exec_clear hd)
  obtain ⟨⟨-, hzero, -⟩, -⟩ := hwrites
  have hempty : Decoded s t d g [] 0 := by
    refine ⟨hs.exec ht, hcfg, hzero, ⟨?_, nofun⟩, ?_⟩
    · rw [State.numBitsOf, hslot, Slot.empty_numBits, List.length_nil, Nat.mul_zero]
    · rw [State.padOf, hslot, Slot.empty_pad]
      rfl
  obtain ⟨u, hu, hud⟩ := run_decode (cs := text.reverse) (fun c hc => hdec c (List.mem_reverse.mp hc)) hempty
    (hcfg ▸ hd)
    (by rwa [hcfg, List.length_nil, Nat.zero_add, List.length_reverse])
  refine ⟨u, (transactThen_of_ok (t := .plain (.clear d)) ht hzero _ _).trans hu, ?_⟩
  rwa [List.nil_append, Nat.zero_add, List.map_reverse, List.map_reverse, List.sum_reverse, ← List.map_reverse] at hud

end

/-! ### The four formats on a buffer without padding -/

/-- A format: its commands agree on an alphabet and on the value of each of its characters, g bits wide
(42_format_codecs.md R160, R170; 40_char_codecs.md R106). -/
structure Format (dec : Nat → Byte → Instr) (len char : Nat → Instr) (g : Nat) (Letter : Byte → Prop)
    (value : Byte → Nat) (letter : Nat → Byte) : Prop where
  pos : 0 < g
  decodes : ∀ c, Letter c → Decodes dec g c (value c) 0
  value_lt : ∀ c, Letter c → value c < 2 ^ g
  letter_value : ∀ c, Letter c → letter (value c) = c
  mem_letter : ∀ n < 2 ^ g, Letter (letter n)
  value_letter : ∀ n < 2 ^ g, value (letter n) = n
  renders : ∀ (s : State) (d : Nat), d < s.cfg.nbuf → s.padOf d = 0 →
    Renders len char s d (s.numBitsOf d) g fun k => letter ((s.slotAt d).groupAt s.cfg.wordWidth g k)

section
variable {s : State} {d : Nat}

/-- Without padding, hex and ASCII render the whole buffer (42_format_codecs.md R170). -/
theorem State.unpadded_slotAt_of_pad_zero (h : s.padOf d = 0) :
    (s.slotAt d).unpadded s.cfg.wordWidth = s.numBitsOf d := by
  rw [State.padOf] at h
  rw [Slot.unpadded, h, Nat.zero_min, Nat.sub_zero, State.numBitsOf]

theorem format_bin : Format .decBin .enclenBin .encBin 1 (fun c => c = 0x30 ∨ c = 0x31)
    (fun c => if c = 0x31 then 1 else 0) binChar where
  pos := Nat.one_pos
  decodes c hc s d hs hd hfit := by
    obtain ⟨hfits, -⟩ := decBinAppendsOneBit s d c hs hd
    exact hfits hc hfit
  value_lt c _ := by split <;> decide
  letter_value c hc := by rcases hc with rfl | rfl <;> rfl
  mem_letter n hn := by interval_cases n <;> decide
  value_letter n hn := by interval_cases n <;> rfl
  renders s d hd _ := renders_bin hd

theorem format_hex : Format .decHex .enclenHex .encHex 4 (fun c => c.toNat ∈ hexAlphabet)
    (fun c => (hexValue c).getD 0) hexChar where
  pos := by decide
  decodes c hc s d hs hd hfit := by
    obtain ⟨v, hv, hlt, hplace⟩ := hexValue_of_mem hc
    obtain ⟨hfits, -⟩ := decHexAppendsTheNibble s d c hs hd
    rw [hv]
    exact hfits v hlt hplace hfit
  value_lt c hc := by
    obtain ⟨v, hv, hlt, -⟩ := hexValue_of_mem hc
    rwa [hv]
  letter_value c hc := by
    obtain ⟨v, hv, -⟩ := hexValue_of_mem hc
    rw [hv]
    exact hexChar_of_hexValue hv
  mem_letter n hn := by
    by_contra hout
    exact Option.some_ne_none n ((hexValue_hexChar hn).symm.trans (hexValue_of_not_mem hout))
  value_letter n hn := by rw [hexValue_hexChar hn, Option.getD_some]
  renders s d hd hpad := State.unpadded_slotAt_of_pad_zero hpad ▸ renders_hex hd

theorem format_b64 : Format .decB64 .enclenB64 .encB64 6 (fun c => c.toNat ∈ b64Alphabet)
    (fun c => (b64Value c).getD 0) b64Char where
  pos := by decide
  decodes c hc s d hs hd hfit := by
    obtain ⟨v, hv, hlt, hplace⟩ := b64Value_of_mem hc
    obtain ⟨-, -, hfits, -⟩ := decB64AppendsTheGroup s d c hs hd
    rw [hv]
    exact hfits v hlt hplace hfit
  value_lt c hc := by
    obtain ⟨v, hv, hlt, -⟩ := b64Value_of_mem hc
    rwa [hv]
  letter_value c hc := by
    obtain ⟨v, hv, -⟩ := b64Value_of_mem hc
    rw [hv]
    exact b64Char_of_b64Value hv
  mem_letter n hn := by
    by_contra hout
    exact Option.some_ne_none n ((b64Value_b64Char hn).symm.trans (b64Value_of_not_mem hout))
  value_letter n hn := by rw [b64Value_b64Char hn, Option.getD_some]
  renders s d hd hpad := by
    have hch : (s.slotAt d).b64CharAt s.cfg.wordWidth =
        fun k => b64Char ((s.slotAt d).groupAt s.cfg.wordWidth 6 k) := by
      rw [State.padOf] at hpad
      funext k
      rw [Slot.b64CharAt, hpad, if_neg (Nat.not_lt_zero _)]
    exact hch ▸ renders_b64 hd

theorem format_asc : Format .decAsc .enclenAsc .encAsc 8 (fun _ => True) BitVec.toNat (BitVec.ofNat 8) where
  pos := by decide
  decodes c _ s d hs hd hfit := by
    obtain ⟨hfits, -⟩ := decAscAppendsTheByte s d c hs hd
    exact hfits hfit
  value_lt c _ := c.isLt
  letter_value c _ := by simp
  mem_letter _ _ := trivial
  value_letter n hn := Nat.mod_eq_of_lt hn
  renders s d hd hpad := State.unpadded_slotAt_of_pad_zero hpad ▸ renders_asc hd

end

/-! ### Strings -/

section
variable {len char : Nat → Instr} {g : Nat} {value : Byte → Nat}

/-- A rendering of as many characters as the text has, character by character the text's, is the text. -/
theorem Renders.toText_eq {s : State} {d : Nat} {ch : Nat → Byte} {text : List Byte} (hs : s.Inv) (hg : 0 < g)
    (h : Renders len char s d (s.numBitsOf d) g ch) (hn : s.numBitsOf d = g * text.length)
    (hch : ∀ (k : Nat) (hk : k < text.length), ch k = text[k]) :
    ∃ u, Machine.toText len char d s = .next (.text text u) := by
  have hlt := hs.numBitsOf_lt d
  have hcount : s.numBitsOf d / g = text.length := by rw [hn, Nat.mul_div_cancel_left _ hg]
  have hbound : s.numBitsOf d / g ≤ 2 ^ 32 := (Nat.div_le_self ..).trans (by omega)
  obtain ⟨u, hu, -⟩ := h.toText (by rw [hn, Nat.mul_mod_right]) hbound
  have htext : (List.range (s.numBitsOf d / g)).map ch = text := by
    rw [hcount]
    refine List.ext_getElem (by simp) fun k _ hk => ?_
    rw [List.getElem_map, List.getElem_range, hch k hk]
  exact ⟨u, htext ▸ hu⟩

/-- The k-th group of a decoded text, from the top, is the value of its k-th character. -/
theorem Decoded.groupAt {s t : State} {d e : Nat} {text : List Byte} (h : Decoded s t d g (text.reverse.map value) e)
    (hlt : ∀ c ∈ text, value c < 2 ^ g) {k : Nat} (hk : k < text.length) :
    (t.slotAt d).groupAt t.cfg.wordWidth g k = value text[k] := by
  have hvs : ∀ v ∈ text.reverse.map value, v < 2 ^ g := by simpa using hlt
  rw [h.holds.groupAt hvs (by simpa using hk), ← List.map_reverse, List.reverse_reverse]
  simp [List.getD_eq_getElem?_getD, hk]

/-- A string over a format's alphabet that fits comes back from decoding and encoding (42_format_codecs.md R181). -/
theorem Format.roundTrip {dec : Nat → Byte → Instr} {Letter : Byte → Prop} {letter : Nat → Byte}
    (hf : Format dec len char g Letter value letter) {s : State} {d : Nat} {text : List Byte} (hs : s.Inv)
    (hd : d < s.cfg.nbuf) (htext : ∀ c ∈ text, Letter c) (hfit : g * text.length ≤ s.cfg.cap) :
    ∃ t u, runTransactions (fromText dec d text) s = .next t ∧ t.lastErr = 0 ∧ t.numBitsOf d = g * text.length ∧
      toText len char d t = .next (.text text u) := by
  obtain ⟨t, ht, hdecoded⟩ := run_fromText (pad := fun _ => 0) hs hd (fun c hc => hf.decodes c (htext c hc)) hfit
  have hn : t.numBitsOf d = g * text.length := by simpa using hdecoded.holds.numBits
  have hpad : t.padOf d = 0 := by simpa using hdecoded.pad
  obtain ⟨u, hu⟩ := (hf.renders t d (hdecoded.cfg ▸ hd) hpad).toText_eq (text := text) hdecoded.inv hf.pos hn
    fun k hk => by
      rw [hdecoded.groupAt (fun c hc => hf.value_lt c (htext c hc)) hk]
      exact hf.letter_value _ (htext _ (List.getElem_mem hk))
  exact ⟨t, u, ht, hdecoded.lastErr, hn, hu⟩

end

/-- Settles O51: the round trip of the binary format. -/
theorem binaryStringsRoundTrip : Obligations.BinaryStringsRoundTrip := by
  intro s d text hs hd htext hfit
  have h := format_bin.roundTrip hs hd htext (by rwa [Nat.one_mul])
  rwa [Nat.one_mul] at h

/-- Settles O52: the round trip of the hex format. -/
theorem hexStringsRoundTrip : Obligations.HexStringsRoundTrip :=
  fun _ _ _ hs hd htext hfit => format_hex.roundTrip hs hd htext hfit

/-- Settles O53: the round trip of the ASCII format, whose alphabet is every byte. -/
theorem asciiStringsRoundTrip : Obligations.AsciiStringsRoundTrip :=
  fun _ _ _ hs hd hfit => format_asc.roundTrip hs hd (fun _ _ => trivial) hfit

/-! ### Base64 with padding -/

/-- What DEC_B64 adds to pad for a character (42_format_codecs.md R163). -/
def b64Pad (c : Byte) : Nat := if c = 0x3D then 8 else 0

theorem b64Pad_of_mem {c : Byte} (h : c.toNat ∈ b64Alphabet) : b64Pad c = 0 := by
  obtain ⟨-, -, hpadding⟩ := b64Alphabet_excludes
  refine if_neg ?_
  rintro rfl
  exact hpadding h

/-- DEC_B64 decodes its alphabet and `=`, whose group is 0 (42_format_codecs.md R163). -/
theorem decodes_b64 {c : Byte} (h : c.toNat ∈ b64Alphabet ∨ c = 0x3D) :
    Decodes .decB64 6 c ((b64Value c).getD 0) (b64Pad c) := by
  rcases h with hmem | rfl
  · rw [b64Pad_of_mem hmem]
    exact format_b64.decodes c hmem
  · exact fun s d hs hd hfit => Appended.of_padding hs hd hfit

/-- Each `=` counts 8 and no other character of the text counts (42_format_codecs.md R163). -/
theorem sum_b64Pad {body : List Byte} (hbody : ∀ c ∈ body, c.toNat ∈ b64Alphabet) (e : Nat) :
    ((body ++ List.replicate e 0x3D).map b64Pad).sum = 8 * e := by
  have hzero : (body.map b64Pad).sum = 0 := by
    refine List.sum_eq_zero fun n hn => ?_
    obtain ⟨c, hc, rfl⟩ := List.mem_map.mp hn
    exact b64Pad_of_mem (hbody c hc)
  rw [List.map_append, List.sum_append, hzero, List.map_replicate, List.sum_replicate, Nat.zero_add, smul_eq_mul,
    Nat.mul_comm]
  rfl

/-- A character of a base64 text: one of the alphabet, or `=`. -/
theorem mem_b64Text {body : List Byte} (hbody : ∀ c ∈ body, c.toNat ∈ b64Alphabet) {e : Nat} :
    ∀ c ∈ body ++ List.replicate e 0x3D, c.toNat ∈ b64Alphabet ∨ c = 0x3D :=
  fun c hc => (List.mem_append.mp hc).imp (hbody c) List.eq_of_mem_replicate

/-- With at most two `=`, 8 padding bits for each reach into exactly as many groups of 6 bits, counted from the
lowest, so ENC_B64 answers `=` for their groups and for no other (42_format_codecs.md R177). -/
theorem Decoded.b64CharAt {s t : State} {d e : Nat} {body : List Byte} (hbody : ∀ c ∈ body, c.toNat ∈ b64Alphabet)
    (he : e ≤ 2)
    (h : Decoded s t d 6 ((body ++ List.replicate e 0x3D).reverse.map fun c => (b64Value c).getD 0) (8 * e))
    {k : Nat} (hk : k < (body ++ List.replicate e 0x3D).length) :
    (t.slotAt d).b64CharAt t.cfg.wordWidth k = (body ++ List.replicate e 0x3D)[k] := by
  have hlt : ∀ c ∈ body ++ List.replicate e 0x3D, (b64Value c).getD 0 < 2 ^ 6 := fun c hc => by
    rcases mem_b64Text hbody c hc with hc | rfl
    · exact format_b64.value_lt c hc
    · decide
  have hpadded : (t.slotAt d).numBits t.cfg.wordWidth - 6 * k - 1 < (t.slotAt d).pad.toNat ↔ body.length ≤ k := by
    have hn : (t.slotAt d).numBits t.cfg.wordWidth = 6 * (body.length + e) := by
      simpa [State.numBitsOf, Nat.add_comm] using h.holds.numBits
    have hpad : (t.slotAt d).pad.toNat = 8 * e := h.pad
    rw [List.length_append, List.length_replicate] at hk
    omega
  have hgroup := h.groupAt hlt hk
  by_cases hk' : k < body.length
  · rw [List.getElem_append_left hk'] at hgroup ⊢
    rw [Slot.b64CharAt, if_neg (mt hpadded.mp (Nat.not_le.mpr hk')), hgroup]
    exact format_b64.letter_value _ (hbody _ (List.getElem_mem hk'))
  · rw [List.getElem_append_right (Nat.not_lt.mp hk'), List.getElem_replicate, Slot.b64CharAt,
      if_pos (hpadded.mpr (Nat.not_lt.mp hk'))]

/-- Settles O54: the round trip of the base64 format, with `=` decoded as a zero group and rendered from the padding
count. -/
theorem base64StringsRoundTrip : Obligations.Base64StringsRoundTrip := by
  intro s d e body hs hd hbody he hfit
  have hlen : (body ++ List.replicate e (0x3D : Byte)).length = body.length + e := by simp
  obtain ⟨t, ht, hdecoded⟩ := run_fromText hs hd (fun c hc => decodes_b64 (mem_b64Text hbody c hc)) (hlen ▸ hfit)
  rw [sum_b64Pad hbody] at hdecoded
  have hn : t.numBitsOf d = 6 * (body ++ List.replicate e (0x3D : Byte)).length := by
    rw [hdecoded.holds.numBits, List.length_map, List.length_reverse]
  obtain ⟨u, hu⟩ := (renders_b64 (hdecoded.cfg ▸ hd)).toText_eq hdecoded.inv (by decide) hn
    fun _ hk => hdecoded.b64CharAt hbody he hk
  exact ⟨t, u, ht, hdecoded.lastErr, hlen ▸ hn, hdecoded.pad, hu⟩

/-! ### Renderings of a buffer -/

/-- A bit of a slot of L groups, from the group it lies in. -/
theorem Slot.bit_eq_testBit_groupAt {W g L p : Nat} {b : Slot} (hg : 0 < g) (hn : b.numBits W = g * L)
    (hp : p < g * L) :
    b.bit W p = (b.groupAt W g (L - 1 - p / g)).testBit (p % g) := by
  have hdiv : p / g < L := Nat.div_lt_of_lt_mul hp
  have hpos : g * L - g * (L - 1 - p / g + 1) + p % g = p := by
    have hk : L - (L - 1 - p / g + 1) = p / g := by
      generalize p / g = q at hdiv ⊢
      omega
    rw [← Nat.mul_sub, hk, Nat.div_add_mod]
  rw [Slot.groupAt, Slot.bitRead_testBit, hn, hpos, decide_eq_true (Nat.mod_lt _ hg), Bool.true_and]

/-- Slots in canonical form, without padding, of the same length and the same groups are equal. -/
theorem Slot.WF.eq_of_groupAt {c : Config} {a b : Slot} {g L : Nat} (ha : a.WF c) (hb : b.WF c) (hg : 0 < g)
    (han : a.numBits c.wordWidth = g * L) (hbn : b.numBits c.wordWidth = g * L)
    (hgroup : ∀ k < L, a.groupAt c.wordWidth g k = b.groupAt c.wordWidth g k) (hpad : a.pad = b.pad) : a = b := by
  refine ha.ext hb (han.trans hbn.symm) (fun p hp => ?_) hpad
  rw [han] at hp
  have hk : L - 1 - p / g < L := by
    have hdiv : p / g < L := Nat.div_lt_of_lt_mul hp
    generalize p / g = q at hdiv ⊢
    omega
  rw [Slot.bit_eq_testBit_groupAt hg han hp, Slot.bit_eq_testBit_groupAt hg hbn hp, hgroup _ hk]

/-- A buffer without padding that is whole characters of a format: decoding its rendering rebuilds it
(42_format_codecs.md R182). -/
theorem Format.rebuilds {dec : Nat → Byte → Instr} {len char : Nat → Instr} {g : Nat} {Letter : Byte → Prop}
    {value : Byte → Nat} {letter : Nat → Byte} (hf : Format dec len char g Letter value letter) {s : State} {d e : Nat}
    (hs : s.Inv) (hd : d < s.cfg.nbuf) (he : e < s.cfg.nbuf) (hpad : s.padOf d = 0) (hwhole : s.numBitsOf d % g = 0) :
    ∃ text u v, toText len char d s = .next (.text text u) ∧ runTransactions (fromText dec e text) u = .next v ∧
      v.lastErr = 0 ∧ v.slotAt e = s.slotAt d := by
  have hlt := hs.numBitsOf_lt d
  have hbound : s.numBitsOf d / g ≤ 2 ^ 32 := (Nat.div_le_self ..).trans (by omega)
  have hn : g * (s.numBitsOf d / g) = s.numBitsOf d := Nat.mul_div_cancel' (Nat.dvd_of_mod_eq_zero hwhole)
  have hgroup : ∀ k, (s.slotAt d).groupAt s.cfg.wordWidth g k < 2 ^ g := fun k => Slot.bitRead_lt ..
  obtain ⟨u, hu, hframe⟩ := (hf.renders s d hd hpad).toText hwhole hbound
  have hletter : ∀ c ∈ (List.range (s.numBitsOf d / g)).map fun k => letter ((s.slotAt d).groupAt s.cfg.wordWidth g k),
      Letter c := by
    intro c hc
    obtain ⟨k, -, rfl⟩ := List.mem_map.mp hc
    exact hf.mem_letter _ (hgroup k)
  obtain ⟨v, hv, hdecoded⟩ := run_fromText (pad := fun _ => 0) (hframe.inv hs) (hframe.cfg ▸ he)
    (fun c hc => hf.decodes c (hletter c hc)) (by
      rw [hframe.cfg, List.length_map, List.length_range, hn]
      exact (hs.slotAt_wf d).numBits_le_cap)
  refine ⟨_, u, v, hu, hv, hdecoded.lastErr, ?_⟩
  have hcfg : v.cfg = s.cfg := hdecoded.cfg.trans hframe.cfg
  have hvn : (v.slotAt e).numBits v.cfg.wordWidth = g * (s.numBitsOf d / g) := by
    simpa [State.numBitsOf] using hdecoded.holds.numBits
  have hvpad : v.padOf e = 0 := by simp [hdecoded.pad, Function.comp_def]
  have hvwf := hdecoded.inv.slotAt_wf e
  rw [hcfg] at hvn hvwf
  refine hvwf.eq_of_groupAt (hs.slotAt_wf d) hf.pos hvn hn.symm (fun k hk => ?_)
    (BitVec.eq_of_toNat_eq (hvpad.trans hpad.symm))
  rw [← hcfg, hdecoded.groupAt (fun c hc => hf.value_lt c (hletter c hc)) (by simpa using hk), List.getElem_map,
    List.getElem_range, hf.value_letter _ (hgroup k), hcfg]

/-- Settles O57: 24 bits are whole characters in all four formats, and each rebuilds the buffer from its rendering. -/
theorem renderingsDecodeToTheSameBuffer : Obligations.RenderingsDecodeToTheSameBuffer := by
  intro s d e hs _ hd he hpad h24 f hf
  simp only [List.mem_cons, List.not_mem_nil, or_false] at hf
  rcases hf with rfl | rfl | rfl | rfl
  · exact format_bin.rebuilds hs hd he hpad (Nat.mod_one _)
  · exact format_hex.rebuilds hs hd he hpad (by omega)
  · exact format_b64.rebuilds hs hd he hpad (by omega)
  · exact format_asc.rebuilds hs hd he hpad (by omega)

end Sys2Proof.Machine
end
